-- ==== Sys2Proof/Word.lean ====
section
/-! DEFINITION. The word types of the CORE block (spec/00_scope.md R14: bit 0 is the least significant bit; all
quantities are unsigned) and their plainest notions. -/

namespace Sys2Proof

/-- An 8-bit value: a V register, a timer, a memory byte (R20, R26, R34). -/
abbrev Byte := BitVec 8

/-- A 16-bit value: an opcode, PC, I, a call-stack slot (R22, R25, R29). -/
abbrev Word := BitVec 16

/-- A 4-bit value: a register index, a row or line count, a key value (R91, R37). -/
abbrev Nibble := BitVec 4

/-- A 12-bit address immediate `nnn` (R91). -/
abbrev Addr := BitVec 12

end Sys2Proof
end

