-- ==== Sys2Proof/Config.lean ====
section
/-! DEFINITION. What an instance of the hardware fixes for its whole life (spec/00_scope.md R2, R6 to R11), and the
values the spec leaves open, as constants without a body (spec/92_eei_decisions.md, "Open parameters in one list"). -/

namespace Sys2Proof

/-- The operating mode `MODE`: configuration, chosen at construction, changed by no instruction (R2, R8). -/
inductive Mode where
  | classic
  | extended
  deriving DecidableEq, Repr

/-- What a scroll does at the edges, `SCROLL_EDGE` (R11, R184). -/
inductive ScrollEdge where
  | wrap
  | clear
  deriving DecidableEq, Repr

/-- The configuration record of one instance (R6: "a model takes it as a field of a configuration record, not as
state"). `State` carries it as its field `cfg`, which is how `exec` and `step` take it as an argument (log entry 1);
no step changes it. -/
structure Config where
  /-- `MODE` (R2, R8). -/
  mode : Mode
  /-- `W`, the plane's width in pixels (R7). -/
  width : Nat
  /-- `H`, the plane's height in pixels (R7). -/
  height : Nat
  /-- `SCROLL_EDGE` (R11). -/
  scrollEdge : ScrollEdge
  deriving DecidableEq, Repr

/-- `W` and `H` are positive integers (R7). -/
abbrev Config.wf (c : Config) : Prop := 1 ≤ c.width ∧ 1 ≤ c.height

/-- The configuration `State.reset` stands for: the spec's default plane and edge policy (R7, R11); `MODE` is open
(R8) and `extended` is the model's choice (DESIGN CHOICE, log entry 2). -/
def Config.default : Config :=
  { mode := .extended, width := 64, height := 32, scrollEdge := .wrap }

/-- `LOWMEM` (R9, R63): byte `k` of the 432 bytes that addresses 0x050 to 0x1FF hold at power-on. Open: "nothing may
be assumed of them", so the constant has no body (log entry 4). -/
opaque Config.lowmem : Nat → Byte

/-- The host's answer to the `n`-th key query that no queued answer serves: `none` is `NoKey`, `some k` the key `k`
(R12, R37). Open: no rule constrains it (log entry 5). -/
opaque Config.freeKey : Nat → Option Nibble

/-- The two agents whose events interleave freely: the step agent and the tick agent (R3, R287). -/
inductive Agent where
  | step
  | tick
  deriving DecidableEq, Repr, Inhabited

/-- Whose event the `n`-th turn of a free-running machine is (R13, R287). Open: "no source relates the two rates"; that
each agent's turns keep coming is a premise of the claim that needs it (log entry 25). -/
opaque Config.freeTurn : Nat → Agent

/-- The random byte of the `n`-th draw that no queued byte serves (R12, R161, R295). Open (log entry 5). -/
opaque Config.freeByte : Nat → Byte

end Sys2Proof
end

