-- ==== Sys2Proof/Syntax.lean ====
section
/-! DEFINITION. The instructions: one constructor per row of spec/opcode_table.json (spec/30_encoding.md R95). An
undefined word is no instruction of the table; it is `Decoded.nop` in Decode.lean and runs as `execNop`. -/

namespace Sys2Proof

/-- The 45 rows of the opcode table. Operands are the fields of R91: `x`, `y` register indices, `kk` a byte, `n` a
nibble, `nnn` an address. -/
inductive Instr where
  /-- 0000, the halt sentinel (R96, R121). -/
  | halt
  /-- 00Bn, `SCU n` (R252). -/
  | scu (n : Nibble)
  /-- 00Cn, `SCD n` (R251). -/
  | scd (n : Nibble)
  /-- 00E0, `CLS` (R187). -/
  | cls
  /-- 00EE, `RET` (R123). -/
  | ret
  /-- 00FB, `SCR` (R253). -/
  | scr
  /-- 00FC, `SCL` (R254). -/
  | scl
  /-- 00FE, `LOW` (R255). -/
  | low
  /-- 00FF, `HIGH` (R256). -/
  | high
  /-- 1nnn, `JP nnn` (R124). -/
  | jp (nnn : Addr)
  /-- 2nnn, `CALL nnn` (R125). -/
  | call (nnn : Addr)
  /-- 3xkk, `SE Vx kk` (R127). -/
  | seByte (x : Nibble) (kk : Byte)
  /-- 4xkk, `SNE Vx kk` (R128). -/
  | sneByte (x : Nibble) (kk : Byte)
  /-- 5xy0, `SE Vx Vy` (R129). -/
  | seReg (x y : Nibble)
  /-- 6xkk, `LD Vx kk` (R150). -/
  | ldByte (x : Nibble) (kk : Byte)
  /-- 7xkk, `ADD Vx kk` (R151). -/
  | addByte (x : Nibble) (kk : Byte)
  /-- 8xy0, `LD Vx Vy` (R152). -/
  | ldReg (x y : Nibble)
  /-- 8xy1, `OR Vx Vy` (R153). -/
  | orReg (x y : Nibble)
  /-- 8xy2, `AND Vx Vy` (R154). -/
  | andReg (x y : Nibble)
  /-- 8xy3, `XOR Vx Vy` (R155). -/
  | xorReg (x y : Nibble)
  /-- 8xy4, `ADD Vx Vy` (R156). -/
  | addReg (x y : Nibble)
  /-- 8xy5, `SUB Vx Vy` (R157). -/
  | subReg (x y : Nibble)
  /-- 8xy6, `SHR Vx Vy` (R158). -/
  | shr (x y : Nibble)
  /-- 8xy7, `SUBN Vx Vy` (R159). -/
  | subn (x y : Nibble)
  /-- 8xyE, `SHL Vx Vy` (R160). -/
  | shl (x y : Nibble)
  /-- 9xy0, `SNE Vx Vy` (R130). -/
  | sneReg (x y : Nibble)
  /-- Annn, `LD I nnn` (R230). -/
  | ldI (nnn : Addr)
  /-- Bnnn, `JP V0 nnn` (R126). -/
  | jpV0 (nnn : Addr)
  /-- Cxkk, `RND Vx kk` (R161). -/
  | rnd (x : Nibble) (kk : Byte)
  /-- Dxy0 in Classic mode, `DRW Vx Vy 0` (R189). -/
  | drwZeroClassic (x y : Nibble)
  /-- Dxy0 in Extended mode, `DRW Vx Vy 0`, the 16×16 draw (R190). -/
  | drwZeroExtended (x y : Nibble)
  /-- Dxyn with n ≠ 0, `DRW Vx Vy n` (R188). -/
  | drw (x y n : Nibble)
  /-- Ex9E, `SKP Vx` (R210). -/
  | skp (x : Nibble)
  /-- ExA1, `SKNP Vx` (R211). -/
  | sknp (x : Nibble)
  /-- Fx07, `LD Vx DT` (R212). -/
  | ldFromDt (x : Nibble)
  /-- Fx0A, `LD Vx K`, the key-wait (R213). -/
  | ldKey (x : Nibble)
  /-- Fx15, `LD DT Vx` (R214). -/
  | ldDt (x : Nibble)
  /-- Fx18, `LD ST Vx` (R215). -/
  | ldSt (x : Nibble)
  /-- Fx1E, `ADD I Vx` (R231). -/
  | addI (x : Nibble)
  /-- Fx29, `LD F Vx` (R232). -/
  | ldFont (x : Nibble)
  /-- Fx33, `LD B Vx` (R233). -/
  | ldBcd (x : Nibble)
  /-- Fx55, `LD [I] Vx`, the block store (R234). -/
  | storeBlock (x : Nibble)
  /-- Fx65, `LD Vx [I]`, the block load (R235). -/
  | loadBlock (x : Nibble)
  /-- Fx75, `LD R Vx` (R257). -/
  | saveFlags (x : Nibble)
  /-- Fx85, `LD Vx R` (R258). -/
  | restoreFlags (x : Nibble)
  deriving DecidableEq, Repr

end Sys2Proof
end

