-- ==== Sys2Proof/WellFormed.lean ====
section
/-! DEFINITION. Which terms of `Instr` are instructions of the machine. Every operand is as wide as its field (R91), so
two checks are left: the row count of `DRW Vx Vy n`, and the mode a row is defined in. -/

namespace Sys2Proof

/-- `DRW Vx Vy n` has n = 1..15 (R188; n = 0 is taken by the Dxy0 row of the mode, R95); every other term is well
formed. -/
def Instr.wellFormed : Instr → Bool
  | .drw _ _ n => decide (n ≠ 0)
  | .halt | .scu _ | .scd _ | .cls | .ret | .scr | .scl | .low | .high | .jp _ | .call _ => true
  | .seByte _ _ | .sneByte _ _ | .seReg _ _ | .ldByte _ _ | .addByte _ _ | .ldReg _ _ => true
  | .orReg _ _ | .andReg _ _ | .xorReg _ _ | .addReg _ _ | .subReg _ _ | .shr _ _ | .subn _ _ | .shl _ _ => true
  | .sneReg _ _ | .ldI _ | .jpV0 _ | .rnd _ _ | .drwZeroClassic _ _ | .drwZeroExtended _ _ => true
  | .skp _ | .sknp _ | .ldFromDt _ | .ldKey _ | .ldDt _ | .ldSt _ => true
  | .addI _ | .ldFont _ | .ldBcd _ | .storeBlock _ | .loadBlock _ | .saveFlags _ | .restoreFlags _ => true

/-- The mode column of the opcode map (R95): the eight `Ext` rows and the 16×16 draw need `extended`, the Classic row
of Dxy0 needs `classic`, every other row is defined in both modes. -/
def Instr.definedIn (m : Mode) : Instr → Bool
  | .scu _ | .scd _ | .scr | .scl | .low | .high | .saveFlags _ | .restoreFlags _ => decide (m = .extended)
  | .drwZeroExtended _ _ => decide (m = .extended)
  | .drwZeroClassic _ _ => decide (m = .classic)
  | .halt | .cls | .ret | .jp _ | .call _ => true
  | .seByte _ _ | .sneByte _ _ | .seReg _ _ | .ldByte _ _ | .addByte _ _ | .ldReg _ _ => true
  | .orReg _ _ | .andReg _ _ | .xorReg _ _ | .addReg _ _ | .subReg _ _ | .shr _ _ | .subn _ _ | .shl _ _ => true
  | .sneReg _ _ | .ldI _ | .jpV0 _ | .rnd _ _ | .drw _ _ _ => true
  | .skp _ | .sknp _ | .ldFromDt _ | .ldKey _ | .ldDt _ | .ldSt _ => true
  | .addI _ | .ldFont _ | .ldBcd _ | .storeBlock _ | .loadBlock _ => true

end Sys2Proof
end

