-- ==== Sys2Proof/Decode.lean ====
section
/-! DEFINITION. The decoder, total on every opcode word (spec/30_encoding.md R94), and after it the encoder, both
written from the opcode map of R95; then the two views of that map as match and mask (R92). -/

namespace Sys2Proof

/-- Why a word is an undefined pattern, which executes as a no-op (R97). -/
inductive Undefined where
  /-- No row of the opcode map matches the word in any mode. -/
  | noRow
  /-- An `Ext` row matches, and `MODE` is Classic (R98 (a)). -/
  | extendedOnly
  deriving DecidableEq, Repr

/-- What a word decodes to: one instruction of the table (HALT among them) or `NOP` (R94). -/
inductive Decoded where
  | instr (i : Instr)
  | nop (why : Undefined)
  deriving DecidableEq, Repr

/-! ## The fields of R91 -/

/-- `h` = op[15:12], the class selector. -/
def fieldH (w : Word) : Nibble := w.extractLsb' 12 4
/-- `x` = op[11:8]. -/
def fieldX (w : Word) : Nibble := w.extractLsb' 8 4
/-- `y` = op[7:4]. -/
def fieldY (w : Word) : Nibble := w.extractLsb' 4 4
/-- `n` = op[3:0]. -/
def fieldN (w : Word) : Nibble := w.extractLsb' 0 4
/-- `kk` = op[7:0]. -/
def fieldKK (w : Word) : Byte := w.extractLsb' 0 8
/-- `nnn` = op[11:0]. -/
def fieldNNN (w : Word) : Addr := w.extractLsb' 0 12

/-- op[15:4] of `SCU n`: the match value of this one row is the spec's own choice and is kept as a constant (R252,
D17; the alternative is 0x00D; log entry 8). -/
def scuPrefix : BitVec 12 := 0x00B

/-! ## Decoding -/

/-- A row of mode "Ext" (R95): the instruction in Extended mode, an undefined pattern in Classic mode. -/
def extRow (m : Mode) (i : Instr) : Decoded :=
  match m with
  | .extended => .instr i
  | .classic => .nop .extendedOnly

/-- Class 0: the whole word is matched, but for the two rows of format N (R92, R95). -/
def decode0 (m : Mode) (w : Word) : Decoded :=
  if w = 0x0000 then .instr .halt
  else if w = 0x00E0 then .instr .cls
  else if w = 0x00EE then .instr .ret
  else if w = 0x00FB then extRow m .scr
  else if w = 0x00FC then extRow m .scl
  else if w = 0x00FE then extRow m .low
  else if w = 0x00FF then extRow m .high
  else if w.extractLsb' 4 12 = scuPrefix then extRow m (.scu (fieldN w))
  else if w.extractLsb' 4 12 = 0x00C then extRow m (.scd (fieldN w))
  else .nop .noRow

/-- Class 8: `n` selects the operation, matched exactly (R94). -/
def decode8 (x y n : Nibble) : Decoded :=
  if n = 0x0 then .instr (.ldReg x y)
  else if n = 0x1 then .instr (.orReg x y)
  else if n = 0x2 then .instr (.andReg x y)
  else if n = 0x3 then .instr (.xorReg x y)
  else if n = 0x4 then .instr (.addReg x y)
  else if n = 0x5 then .instr (.subReg x y)
  else if n = 0x6 then .instr (.shr x y)
  else if n = 0x7 then .instr (.subn x y)
  else if n = 0xE then .instr (.shl x y)
  else .nop .noRow

/-- Class D: the Dxy0 row of the mode wins over the Dxyn row (R95, R99). -/
def decodeD (m : Mode) (x y n : Nibble) : Decoded :=
  if n = 0x0 then
    match m with
    | .classic => .instr (.drwZeroClassic x y)
    | .extended => .instr (.drwZeroExtended x y)
  else .instr (.drw x y n)

/-- Class E: `kk` selects the operation, matched exactly (R94). -/
def decodeE (x : Nibble) (kk : Byte) : Decoded :=
  if kk = 0x9E then .instr (.skp x)
  else if kk = 0xA1 then .instr (.sknp x)
  else .nop .noRow

/-- Class F: `kk` selects the operation, matched exactly (R94). -/
def decodeF (m : Mode) (x : Nibble) (kk : Byte) : Decoded :=
  if kk = 0x07 then .instr (.ldFromDt x)
  else if kk = 0x0A then .instr (.ldKey x)
  else if kk = 0x15 then .instr (.ldDt x)
  else if kk = 0x18 then .instr (.ldSt x)
  else if kk = 0x1E then .instr (.addI x)
  else if kk = 0x29 then .instr (.ldFont x)
  else if kk = 0x33 then .instr (.ldBcd x)
  else if kk = 0x55 then .instr (.storeBlock x)
  else if kk = 0x65 then .instr (.loadBlock x)
  else if kk = 0x75 then extRow m (.saveFlags x)
  else if kk = 0x85 then extRow m (.restoreFlags x)
  else .nop .noRow

/-- Decode of a word under `MODE` (R94), total: the class digit `h` first, then the sub-function digits. -/
def decode (m : Mode) (w : Word) : Decoded :=
  match (fieldH w).toNat with
  | 0x0 => decode0 m w
  | 0x1 => .instr (.jp (fieldNNN w))
  | 0x2 => .instr (.call (fieldNNN w))
  | 0x3 => .instr (.seByte (fieldX w) (fieldKK w))
  | 0x4 => .instr (.sneByte (fieldX w) (fieldKK w))
  | 0x5 => if fieldN w = 0 then .instr (.seReg (fieldX w) (fieldY w)) else .nop .noRow
  | 0x6 => .instr (.ldByte (fieldX w) (fieldKK w))
  | 0x7 => .instr (.addByte (fieldX w) (fieldKK w))
  | 0x8 => decode8 (fieldX w) (fieldY w) (fieldN w)
  | 0x9 => if fieldN w = 0 then .instr (.sneReg (fieldX w) (fieldY w)) else .nop .noRow
  | 0xA => .instr (.ldI (fieldNNN w))
  | 0xB => .instr (.jpV0 (fieldNNN w))
  | 0xC => .instr (.rnd (fieldX w) (fieldKK w))
  | 0xD => decodeD m (fieldX w) (fieldY w) (fieldN w)
  | 0xE => decodeE (fieldX w) (fieldKK w)
  | _ => decodeF m (fieldX w) (fieldKK w)

/-- The word two bytes make: the byte at the lower address is the high byte (R65, R90). -/
def wordOfBytes (hi lo : Byte) : Word := hi ++ lo

/-- The two bytes of a word, the one at the lower address first (R65). -/
def bytesOfWord (w : Word) : Byte × Byte := (w.extractLsb' 8 8, w.extractLsb' 0 8)

/-! ## Encoding: the shapes of the formats of R92, then the word of each instruction -/

/-- The word of four hex digits, high to low. -/
def digits (a b c d : Nibble) : Word := a ++ b ++ c ++ d

/-- The word of a class digit, a digit and a byte: formats XKK and X. -/
def withByte (h x : Nibble) (kk : Byte) : Word := h ++ x ++ kk

/-- The word of a class digit and an address: format NNN. -/
def withAddr (h : Nibble) (nnn : Addr) : Word := h ++ nnn

/-- The word of three fixed digits and a nibble: format N. -/
def withLine (p : BitVec 12) (n : Nibble) : Word := p ++ n

/-- The word of an instruction, digit by digit as the pattern column of R95 writes it. -/
def encode : Instr → Word
  | .halt => 0x0000
  | .scu n => withLine scuPrefix n
  | .scd n => withLine 0x00C n
  | .cls => 0x00E0
  | .ret => 0x00EE
  | .scr => 0x00FB
  | .scl => 0x00FC
  | .low => 0x00FE
  | .high => 0x00FF
  | .jp nnn => withAddr 0x1 nnn
  | .call nnn => withAddr 0x2 nnn
  | .seByte x kk => withByte 0x3 x kk
  | .sneByte x kk => withByte 0x4 x kk
  | .seReg x y => digits 0x5 x y 0x0
  | .ldByte x kk => withByte 0x6 x kk
  | .addByte x kk => withByte 0x7 x kk
  | .ldReg x y => digits 0x8 x y 0x0
  | .orReg x y => digits 0x8 x y 0x1
  | .andReg x y => digits 0x8 x y 0x2
  | .xorReg x y => digits 0x8 x y 0x3
  | .addReg x y => digits 0x8 x y 0x4
  | .subReg x y => digits 0x8 x y 0x5
  | .shr x y => digits 0x8 x y 0x6
  | .subn x y => digits 0x8 x y 0x7
  | .shl x y => digits 0x8 x y 0xE
  | .sneReg x y => digits 0x9 x y 0x0
  | .ldI nnn => withAddr 0xA nnn
  | .jpV0 nnn => withAddr 0xB nnn
  | .rnd x kk => withByte 0xC x kk
  | .drwZeroClassic x y => digits 0xD x y 0x0
  | .drwZeroExtended x y => digits 0xD x y 0x0
  | .drw x y n => digits 0xD x y n
  | .skp x => withByte 0xE x 0x9E
  | .sknp x => withByte 0xE x 0xA1
  | .ldFromDt x => withByte 0xF x 0x07
  | .ldKey x => withByte 0xF x 0x0A
  | .ldDt x => withByte 0xF x 0x15
  | .ldSt x => withByte 0xF x 0x18
  | .addI x => withByte 0xF x 0x1E
  | .ldFont x => withByte 0xF x 0x29
  | .ldBcd x => withByte 0xF x 0x33
  | .storeBlock x => withByte 0xF x 0x55
  | .loadBlock x => withByte 0xF x 0x65
  | .saveFlags x => withByte 0xF x 0x75
  | .restoreFlags x => withByte 0xF x 0x85

/-! ## The opcode table's match and mask columns -/

/-- The mask of the instruction's row (R92, spec/opcode_table.json). -/
def rowMask : Instr → Word
  | .halt | .cls | .ret | .scr | .scl | .low | .high => 0xFFFF
  | .scu _ | .scd _ => 0xFFF0
  | .jp _ | .call _ | .ldI _ | .jpV0 _ => 0xF000
  | .seByte _ _ | .sneByte _ _ | .ldByte _ _ | .addByte _ _ | .rnd _ _ => 0xF000
  | .seReg _ _ | .sneReg _ _ | .ldReg _ _ | .orReg _ _ | .andReg _ _ | .xorReg _ _ => 0xF00F
  | .addReg _ _ | .subReg _ _ | .shr _ _ | .subn _ _ | .shl _ _ => 0xF00F
  | .drwZeroClassic _ _ | .drwZeroExtended _ _ => 0xF00F
  | .drw _ _ _ => 0xF000
  | .skp _ | .sknp _ | .ldFromDt _ | .ldKey _ | .ldDt _ | .ldSt _ => 0xF0FF
  | .addI _ | .ldFont _ | .ldBcd _ | .storeBlock _ | .loadBlock _ | .saveFlags _ | .restoreFlags _ => 0xF0FF

/-- The match value of the instruction's row (R92, spec/opcode_table.json). -/
def rowMatch : Instr → Word
  | .halt => 0x0000 | .scu _ => 0x00B0 | .scd _ => 0x00C0 | .cls => 0x00E0 | .ret => 0x00EE
  | .scr => 0x00FB | .scl => 0x00FC | .low => 0x00FE | .high => 0x00FF
  | .jp _ => 0x1000 | .call _ => 0x2000 | .seByte _ _ => 0x3000 | .sneByte _ _ => 0x4000
  | .seReg _ _ => 0x5000 | .ldByte _ _ => 0x6000 | .addByte _ _ => 0x7000
  | .ldReg _ _ => 0x8000 | .orReg _ _ => 0x8001 | .andReg _ _ => 0x8002 | .xorReg _ _ => 0x8003
  | .addReg _ _ => 0x8004 | .subReg _ _ => 0x8005 | .shr _ _ => 0x8006 | .subn _ _ => 0x8007
  | .shl _ _ => 0x800E | .sneReg _ _ => 0x9000 | .ldI _ => 0xA000 | .jpV0 _ => 0xB000 | .rnd _ _ => 0xC000
  | .drwZeroClassic _ _ => 0xD000 | .drwZeroExtended _ _ => 0xD000 | .drw _ _ _ => 0xD000
  | .skp _ => 0xE09E | .sknp _ => 0xE0A1
  | .ldFromDt _ => 0xF007 | .ldKey _ => 0xF00A | .ldDt _ => 0xF015 | .ldSt _ => 0xF018
  | .addI _ => 0xF01E | .ldFont _ => 0xF029 | .ldBcd _ => 0xF033 | .storeBlock _ => 0xF055
  | .loadBlock _ => 0xF065 | .saveFlags _ => 0xF075 | .restoreFlags _ => 0xF085

/-! ## The host's question to the decoder -/

/-- The instruction the decoder reads from the table word `w` (every instruction is one 16-bit word, R90, so `nbits`
adds nothing). The answer is under the mode of `State.reset`'s configuration (log entry 2). -/
def decodeTableWord (_nbits w : Nat) : Option Instr :=
  match decode Config.default.mode (BitVec.ofNat 16 w) with
  | .instr i => some i
  | .nop _ => none

end Sys2Proof
end

