-- ==== Sys2Proof/Machine/State.lean ====
section
/-! DEFINITION. The machine's state as plain data (spec/10_state.md), the reasons it can stop, and the state right after
reset (R38, R323). The last six fields of `State` are the model's own: they hold what the spec calls inputs, outputs
and events (R36, R37), since `step` has no other argument (log entries 5, 6, 7, 25). -/

namespace Sys2Proof.Machine

/-- The resolution-mode flag's two values: 0 = Low, 1 = High (R30). -/
inductive Resolution where
  | low
  | high
  deriving DecidableEq, Repr

/-- The fault causes (R282). The spec's fault mechanism is the latch `State.fault` (R31, R281): the step in which one
arises answers a NEXT state whose latch holds it, and no step of this model ever answers `Outcome.fault` (log entry 3).
Taking each is SAFE: the machine executes nothing any more. -/
inductive Fault where
  /-- Code 1. Raised by a `Step` with PC > 0xFFE, before decode. Safe. -/
  | fetchOutOfRange
  /-- Code 2. Raised by CALL at SP = 16. Safe. -/
  | stackOverflow
  /-- Code 3. Raised by RET at SP = 0. Safe. -/
  | stackUnderflow
  /-- Code 4. Raised by DRW, LD B, LD [I] Vx and LD Vx [I] when a byte they touch lies above 0xFFF. Safe. -/
  | dataOutOfRange
  /-- Code 5. Raised by Dxy0 in Classic mode, always. Safe. -/
  | invalidSpriteHeight
  deriving DecidableEq, Repr

/-- The reasons a step is refused. No arm of `exec` uses it: every instruction of the table has its meaning. -/
inductive Refusal where
  /-- Raised by an arm of `exec` whose instruction has no meaning yet; there is none. Safe. -/
  | notModelled (mnemonic : String)
  deriving DecidableEq, Repr

/-- The events of the three agents (R3, R37). -/
inductive Event where
  /-- One `Step` of the step agent (R120). -/
  | step
  /-- One `Tick` of the tick agent (R286). -/
  | tick
  /-- The host's `Reset` (R320). -/
  | reset
  /-- The host's `Load(bytes)` (R324, R325). -/
  | load (bytes : List Byte)
  deriving DecidableEq, Repr

/-- What the core reports to the host (R36), and the error report of a refused `Load` (R325). -/
inductive Output where
  | frame
  | soundStart
  | soundStop
  | loadRefused
  deriving DecidableEq, Repr

/-- Memory in one canonical form (`Memory.wf` in Ops.lean): cells at strictly rising addresses, none equal to what an
unlisted address reads as (`Memory.unlisted`). -/
abbrev Memory := List Host.Cell

/-- The display plane: its rows from top to bottom, each its pixels from left to right (R33). -/
abbrev Plane := List (List Bool)

/-- The state of the CORE block (R20 to R34, R38). -/
structure State where
  /-- The instance's configuration: carried, never changed (R2, R35; log entry 1). -/
  cfg : Config
  /-- V0 to VF (R20). -/
  v : Vector Byte 16
  /-- I, the index register (R25). -/
  i : Word
  /-- PC, a byte address (R22). -/
  pc : Word
  /-- DT, the delay timer (R26). -/
  dt : Byte
  /-- ST, the sound timer (R27). -/
  st : Byte
  /-- SP, the number of occupied stack slots, 0 to 16 (R28). -/
  sp : Fin 17
  /-- Stack[0] to Stack[15] (R29). -/
  stack : Vector Word 16
  /-- HIRES (R30). -/
  hires : Resolution
  /-- FAULT, the fault latch: `none` is code 0 (R31, R282). -/
  fault : Option Fault
  /-- R[0] to R[7], the flag-save bank (R32). -/
  r : Vector Byte 8
  /-- Disp, the display plane (R33). -/
  disp : Plane
  /-- Mem (R34, R60). -/
  mem : Memory
  /-- The model's own: the events the agents and the host perform next, first first; when none is listed `turns` says
  which comes (log entry 6). -/
  pending : List Event
  /-- The model's own: who is next when no event is pending. `none`: the step agent, always (the host makes the steps,
  R299). `some n`: the machine runs free, and the open constant `Config.freeTurn` says whose turn number `n` is, so
  that ticks and steps go on coming in an order nothing fixes (R287; log entry 25). -/
  turns : Option Nat
  /-- The model's own: the host's answers to the coming key queries, first first (R12, R37; log entry 5). -/
  keys : List (Option Nibble)
  /-- The model's own: the random bytes of the coming draws, first first (R12, R161; log entry 5). -/
  rnds : List Byte
  /-- The model's own: how many answers have been taken from the open constants `Config.freeKey` and
  `Config.freeByte` (log entry 5). -/
  draws : Nat
  /-- The model's own: the output events emitted so far, oldest first (R36; log entry 7). -/
  outputs : List Output
  deriving DecidableEq, Repr

/-- A plane of `c`'s size with every pixel 0. -/
def blankPlane (c : Config) : Plane := List.replicate c.height (List.replicate c.width false)

/-- The power-on state of an instance (R320, R323, R38): memory lists nothing, so it reads as `Memory.unlisted` says. -/
def State.powerOn (c : Config) : State :=
  { cfg := c
    v := Vector.replicate 16 0
    i := 0
    pc := 0x200
    dt := 0
    st := 0
    sp := 0
    stack := Vector.replicate 16 0
    hires := .low
    fault := none
    r := Vector.replicate 8 0
    disp := blankPlane c
    mem := []
    pending := []
    turns := none
    keys := []
    rnds := []
    draws := 0
    outputs := [] }

/-- The machine right after reset (R38): power-on of the instance that `Config.default` describes. -/
def State.reset : State := State.powerOn Config.default

end Sys2Proof.Machine
end

