-- ==== Sys2Proof/Machine/Ops.lean ====
section
/-! DEFINITION. The named operations over memory, registers, inputs and outputs that the meanings share, the fetch of
an instruction word, and the taking of a fault (the machine's only exception) with the one way out of it, `Reset`. -/

namespace Sys2Proof.Machine

/-! ## Memory (spec/20_memory.md) -/

/-- The default `FONT`: glyph g, 0 to F, is bytes 5g to 5g + 4 (R62; the bytes are general knowledge, G3; log
entry 9). -/
def font : List Byte :=
  [0xF0, 0x90, 0x90, 0x90, 0xF0, 0x20, 0x60, 0x20, 0x20, 0x70] ++
  [0xF0, 0x10, 0xF0, 0x80, 0xF0, 0xF0, 0x10, 0xF0, 0x10, 0xF0] ++
  [0x90, 0x90, 0xF0, 0x10, 0x10, 0xF0, 0x80, 0xF0, 0x10, 0xF0] ++
  [0xF0, 0x80, 0xF0, 0x90, 0xF0, 0xF0, 0x10, 0x20, 0x40, 0x40] ++
  [0xF0, 0x90, 0xF0, 0x90, 0xF0, 0xF0, 0x90, 0xF0, 0x10, 0xF0] ++
  [0xF0, 0x90, 0xF0, 0x90, 0x90, 0xE0, 0x90, 0xE0, 0x90, 0xE0] ++
  [0xF0, 0x80, 0x80, 0x80, 0xF0, 0xE0, 0x90, 0x90, 0x90, 0xE0] ++
  [0xF0, 0x80, 0xF0, 0x80, 0xF0, 0xF0, 0x80, 0xF0, 0x80, 0x80]

/-- What an address that memory does not list reads as: the power-on contents (R34, R323), `FONT`, then the open
`LOWMEM`, then zeros. -/
def Memory.unlisted (a : Nat) : Byte :=
  if a < 0x050 then font.getD a 0
  else if a < 0x200 then Config.lowmem (a - 0x050)
  else 0

/-- The canonical form: strictly rising addresses, all inside 0x000 to 0xFFF (R60), no cell equal to what its address
reads as unlisted. -/
abbrev Memory.wf (m : Memory) : Prop :=
  m.Pairwise (fun c d => c.1 < d.1) ∧ ∀ c ∈ m, c.1 < 0x1000 ∧ c.2 ≠ Memory.unlisted c.1

/-- The byte listed at `a`, if any. -/
def Memory.lookup : Memory → Nat → Option Byte
  | [], _ => none
  | (b, w) :: m, a => if a = b then some w else Memory.lookup m a

/-- `MemRead(a, 1)` for an address inside memory (R67); the range is checked by the callers. -/
def Memory.read (m : Memory) (a : Nat) : Byte := (Memory.lookup m a).getD (Memory.unlisted a)

/-- `m` with no cell at `a`. -/
def Memory.erase (m : Memory) (a : Nat) : Memory := m.filter fun c => decide (c.1 ≠ a)

/-- `m` with the cell (`a`, `v`), put in its place. -/
def Memory.insert : Memory → Nat → Byte → Memory
  | [], a, v => [(a, v)]
  | (b, w) :: m, a, v =>
    if a < b then (a, v) :: (b, w) :: m
    else if a = b then (a, v) :: m
    else (b, w) :: Memory.insert m a v

/-- `MemWrite(a, 1, v)` for an address inside memory (R68), keeping the canonical form. -/
def Memory.write (m : Memory) (a : Nat) (v : Byte) : Memory :=
  if v = Memory.unlisted a then Memory.erase m a else Memory.insert m a v

/-- The bytes `bs` written at `base`, `base + 1`, ... in ascending order (R70). -/
def Memory.storeBytes (m : Memory) (base : Nat) : List Byte → Memory
  | [] => m
  | b :: bs => Memory.storeBytes (Memory.write m base b) (base + 1) bs

/-- The `k` bytes read at `base`, `base + 1`, ... -/
def Memory.loadBytes (m : Memory) (base k : Nat) : List Byte :=
  (List.range k).map fun j => Memory.read m (base + j)

/-- `Mem[a] <- 0` for a = 0x200 .. 0xFFF (R324): an unlisted address there reads 0. -/
def Memory.clearProgram (m : Memory) : Memory := m.filter fun c => decide (c.1 < 0x200)

/-! ## Registers (spec/10_state.md) -/

/-- `V[x]` (R20). -/
def State.reg (s : State) (x : Nibble) : Byte := s.v[x.toNat]'(x.isLt)

/-- `V[x] <- b` (R20). -/
def State.setReg (s : State) (x : Nibble) (b : Byte) : State := { s with v := s.v.set x.toNat b x.isLt }

/-- The whole V file replaced (the block load and the restore, R235, R258). -/
def State.setV (s : State) (v : Vector Byte 16) : State := { s with v := v }

/-- `VF <- f`, the flag written last (R21, R162). -/
def State.setVF (s : State) (f : Byte) : State := s.setReg 0xF f

/-- `I <- w` (R25). -/
def State.setI (s : State) (w : Word) : State := { s with i := w }

/-- `pc <- w` (R22). -/
def State.setPc (s : State) (w : Word) : State := { s with pc := w }

/-- `DT <- b` (R26). -/
def State.setDt (s : State) (b : Byte) : State := { s with dt := b }

/-- `ST <- b` (R27). -/
def State.setSt (s : State) (b : Byte) : State := { s with st := b }

/-- `HIRES <- h` (R30). -/
def State.setHires (s : State) (h : Resolution) : State := { s with hires := h }

/-- The flag-save bank replaced (R257). -/
def State.setBank (s : State) (r : Vector Byte 8) : State := { s with r := r }

/-- The plane replaced (R33). -/
def State.setDisp (s : State) (d : Plane) : State := { s with disp := d }

/-- Memory replaced. -/
def State.setMem (s : State) (m : Memory) : State := { s with mem := m }

/-- `Stack[SP] <- w; SP <- SP + 1` (R28, R125), for SP < 16. -/
def State.push (s : State) (w : Word) (h : s.sp.val < 16) : State :=
  { s with stack := s.stack.set s.sp.val w h, sp := ⟨s.sp.val + 1, Nat.succ_lt_succ h⟩ }

/-- The slot RET pops, `Stack[SP - 1]` (R123), for SP > 0. -/
def State.top (s : State) (h : 0 < s.sp.val) : Word := s.stack[s.sp.val - 1]'(by have := s.sp.isLt; omega)

/-- `SP <- SP - 1` (R28, R123); the slot keeps its value. -/
def State.pop (s : State) : State := { s with sp := ⟨s.sp.val - 1, by have := s.sp.isLt; omega⟩ }

/-- `PC <- (PC + 2) mod 65536`: the step's last line (R23, R120 line 7), and the write of a taken skip. -/
def State.advance (s : State) : State := s.setPc (s.pc + 2)

/-- The first `k` cells of `src` copied over the first `k` cells of `dst`, in ascending order (R257, R258). -/
def copyPrefix {a b : Nat} (src : Vector Byte a) (dst : Vector Byte b) : Nat → Vector Byte b
  | 0 => dst
  | k + 1 => (copyPrefix src dst k).setIfInBounds k (src[k]?.getD 0)

/-- `V[j] <- MemRead(base + j, 1)` for j = 0 .. k - 1, in ascending order (R235). -/
def loadRegs (m : Memory) (base : Nat) (v : Vector Byte 16) : Nat → Vector Byte 16
  | 0 => v
  | k + 1 => (loadRegs m base v k).setIfInBounds k (Memory.read m (base + k))

/-! ## Inputs and outputs (R36, R37) -/

/-- `key`, the host's answer to the query this execution makes (R12, R37): the next queued answer, else an open
value. -/
def State.key (s : State) : Option Nibble :=
  match s.keys with
  | k :: _ => k
  | [] => Config.freeKey s.draws

/-- The state after the key query: the answer is used up. -/
def State.takeKey (s : State) : State :=
  match s.keys with
  | _ :: ks => { s with keys := ks }
  | [] => { s with draws := s.draws + 1 }

/-- `rnd`, the random byte of this execution (R12, R161): the next queued byte, else an open value. -/
def State.rnd (s : State) : Byte :=
  match s.rnds with
  | b :: _ => b
  | [] => Config.freeByte s.draws

/-- The state after the random byte has been drawn. -/
def State.takeRnd (s : State) : State :=
  match s.rnds with
  | _ :: bs => { s with rnds := bs }
  | [] => { s with draws := s.draws + 1 }

/-- `emit e` (R15, R36). -/
def State.emit (s : State) (e : Output) : State := { s with outputs := s.outputs ++ [e] }

/-! ## Taking a fault, and the way out (spec/60_exceptions.md R281 to R288) -/

/-- `raise Fault(c)`: `FAULT <- c` and nothing else; PC stays at the faulting instruction (R15, R281). The meanings test
the condition before they write anything (R283), so `s` is the state before the step. -/
def State.raiseFault (s : State) (c : Fault) : State := { s with fault := some c }

/-- `Reset()`, the only exit from the faulted state (R288, R320): every register, timer, slot, pixel and flag to its
power-on value; memory, the configuration and the model's own input and output fields stay. -/
def State.resetEvent (s : State) : State :=
  { State.powerOn s.cfg with
    mem := s.mem, pending := s.pending, turns := s.turns, keys := s.keys, rnds := s.rnds, draws := s.draws,
    outputs := s.outputs }

/-- The cause code of the latch, 3 bits: 0 = no fault (R31, R282). -/
def State.faultCode (s : State) : BitVec 3 :=
  match s.fault with
  | none => 0
  | some .fetchOutOfRange => 1
  | some .stackOverflow => 2
  | some .stackUnderflow => 3
  | some .dataOutOfRange => 4
  | some .invalidSpriteHeight => 5

/-! ## Fetch (R65, R120 lines 2 and 3) -/

/-- PC and PC + 1 are both inside memory: PC ≤ 0xFFE (R24, R67). -/
def State.canFetch (s : State) : Bool := decide (s.pc.toNat ≤ 0xFFE)

/-- `op <- MemRead(PC,1) * 256 + MemRead(PC+1,1)` (R65), read from memory at that moment (R74). -/
def State.fetchWord (s : State) : Word :=
  wordOfBytes (Memory.read s.mem s.pc.toNat) (Memory.read s.mem (s.pc.toNat + 1))

end Sys2Proof.Machine
end

