-- ==== Sys2Proof/Machine/Flags.lean ====
section
/-! DEFINITION. Every flag computation: the values the six flag-writing instructions put in VF (spec/10_state.md R21,
spec/41_load_and_alu.md R163). Each is a function of the operands alone (R162 (2)). -/

namespace Sys2Proof.Machine

/-- Carry, the ninth bit of the unsigned sum: 1 if `a + b > 255` (R156, R163). -/
def carry (a b : Byte) : Byte := if 255 < a.toNat + b.toNat then 1 else 0

/-- NOT borrow of `a - b`: 1 if `a ≥ b` (R157, R159, R163). -/
def notBorrow (a b : Byte) : Byte := if b.toNat ≤ a.toNat then 1 else 0

/-- The bit SHR shifts out, bit 0 (R158). -/
def shiftedOutRight (b : Byte) : Byte := if b.getLsbD 0 then 1 else 0

/-- The bit SHL shifts out, bit 7 (R160). -/
def shiftedOutLeft (b : Byte) : Byte := if b.getLsbD 7 then 1 else 0

/-- The collision flag of a draw (R188, R190). -/
def collisionFlag (c : Bool) : Byte := if c then 1 else 0

end Sys2Proof.Machine
end

