-- ==== Sys2Proof/Machine/Operands.lean ====
section
/-! DEFINITION. The operand forms: immediates, the one data addressing mode (spec/44_index_and_memory.md R236), jump
targets, and the digits of LD B. -/

namespace Sys2Proof.Machine

/-- `zext_16(nnn)` (R93, R230). -/
def zext16 (nnn : Addr) : Word := nnn.setWidth 16

/-- The effective address `I + k`, in unbounded integers (R236). -/
def State.ea (s : State) (k : Nat) : Nat := s.i.toNat + k

/-- The whole range I .. I + last lies inside memory: the check an instruction makes before any effect (R67, R236). -/
def State.inRange (s : State) (last : Nat) : Bool := decide (s.ea last ≤ 0xFFF)

/-- The value a jump writes to PC: `target - 2`, so that the step's + 2 lands on the target (R131). -/
def biased (target : Word) : Word := target - 2

/-- The target of JP V0: `nnn + V[0]`, not reduced to 12 bits (R126). -/
def indexedTarget (s : State) (nnn : Addr) : Word := zext16 nnn + (s.reg 0).setWidth 16

/-- The address of the glyph of `b`, `0x000 + 5 * b`, with no nibble mask (R232). -/
def glyphAddress (b : Byte) : Word := BitVec.ofNat 16 (0x000 + 5 * b.toNat)

/-- `v div 100`, the hundreds digit (R233). -/
def hundreds (b : Byte) : Byte := BitVec.ofNat 8 (b.toNat / 100)

/-- `(v div 10) mod 10`, the tens digit (R233). -/
def tens (b : Byte) : Byte := BitVec.ofNat 8 (b.toNat / 10 % 10)

/-- `v mod 10`, the units digit (R233). -/
def units (b : Byte) : Byte := BitVec.ofNat 8 (b.toNat % 10)

/-- V0 .. Vx, the registers of a block store (R234). -/
def State.block (s : State) (x : Nibble) : List Byte := s.v.toList.take (x.toNat + 1)

/-- How many registers a flag-save transfer moves: indices 0 to min(x, 7) (R257, R258). -/
def bankCount (x : Nibble) : Nat := min x.toNat 7 + 1

end Sys2Proof.Machine
end

