-- ==== Sys2Proof/Machine/Alu.lean ====
section
/-! DEFINITION. Register loads, the ALU and the random byte (spec/41_load_and_alu.md R150 to R163). Operands are read
before any write, and VF is written last (R162). -/

namespace Sys2Proof.Machine

/-- LD Vx kk (R150). -/
def execLdByte (x : Nibble) (kk : Byte) (s : State) : Host.Outcome State Fault Refusal :=
  .next (s.setReg x kk).advance

/-- ADD Vx kk: modulo 256, VF not written (R151). -/
def execAddByte (x : Nibble) (kk : Byte) (s : State) : Host.Outcome State Fault Refusal :=
  .next (s.setReg x (s.reg x + kk)).advance

/-- LD Vx Vy (R152). -/
def execLdReg (x y : Nibble) (s : State) : Host.Outcome State Fault Refusal :=
  .next (s.setReg x (s.reg y)).advance

/-- OR Vx Vy: VF not written (R153). -/
def execOrReg (x y : Nibble) (s : State) : Host.Outcome State Fault Refusal :=
  .next (s.setReg x (s.reg x ||| s.reg y)).advance

/-- AND Vx Vy: VF not written (R154). -/
def execAndReg (x y : Nibble) (s : State) : Host.Outcome State Fault Refusal :=
  .next (s.setReg x (s.reg x &&& s.reg y)).advance

/-- XOR Vx Vy: VF not written (R155). -/
def execXorReg (x y : Nibble) (s : State) : Host.Outcome State Fault Refusal :=
  .next (s.setReg x (s.reg x ^^^ s.reg y)).advance

/-- ADD Vx Vy: VF = carry (R156). -/
def execAddReg (x y : Nibble) (s : State) : Host.Outcome State Fault Refusal :=
  .next ((s.setReg x (s.reg x + s.reg y)).setVF (carry (s.reg x) (s.reg y))).advance

/-- SUB Vx Vy: Vx - Vy, VF = NOT borrow (R157). -/
def execSubReg (x y : Nibble) (s : State) : Host.Outcome State Fault Refusal :=
  .next ((s.setReg x (s.reg x - s.reg y)).setVF (notBorrow (s.reg x) (s.reg y))).advance

/-- SUBN Vx Vy: Vy - Vx into Vx, VF = NOT borrow (R159). -/
def execSubn (x y : Nibble) (s : State) : Host.Outcome State Fault Refusal :=
  .next ((s.setReg x (s.reg y - s.reg x)).setVF (notBorrow (s.reg y) (s.reg x))).advance

/-- The result of a shift: written to Vx and to Vy, the shifted-out bit to VF last (R158, R160). -/
def State.putShift (s : State) (x y : Nibble) (result out : Byte) : State :=
  ((s.setReg x result).setReg y result).setVF out

/-- SHR Vx Vy: the operand is the old Vy (R158). -/
def execShr (x y : Nibble) (s : State) : Host.Outcome State Fault Refusal :=
  .next (s.putShift x y (s.reg y >>> 1) (shiftedOutRight (s.reg y))).advance

/-- SHL Vx Vy: the operand is the old Vy (R160). -/
def execShl (x y : Nibble) (s : State) : Host.Outcome State Fault Refusal :=
  .next (s.putShift x y (s.reg y <<< 1) (shiftedOutLeft (s.reg y))).advance

/-- RND Vx kk: `rnd & kk`, `rnd` the free input (R161). -/
def execRnd (x : Nibble) (kk : Byte) (s : State) : Host.Outcome State Fault Refusal :=
  .next (s.takeRnd.setReg x (s.rnd &&& kk)).advance

end Sys2Proof.Machine
end

