-- ==== Sys2Proof/Machine/Control.lean ====
section
/-! DEFINITION. HALT, NOP, return, jumps, call and the conditional skips (spec/40_step_and_control.md R121 to R131).
Every meaning is the whole effect of lines 4 to 7 of the step cycle (R120): `advance` at its end is line 7. -/

namespace Sys2Proof.Machine

/-- HALT: no state change, PC not advanced (R121). -/
def execHalt (s : State) : Host.Outcome State Fault Refusal := .next s

/-- NOP, any undefined pattern: PC + 2 and nothing else (R97, R122). -/
def execNop (s : State) : Host.Outcome State Fault Refusal := .next s.advance

/-- RET (R123). -/
def execRet (s : State) : Host.Outcome State Fault Refusal :=
  if h : 0 < s.sp.val then .next (s.pop.setPc (s.top h)).advance
  else .next (s.raiseFault .stackUnderflow)

/-- JP nnn (R124): the bias is written and the step's + 2 cancels it (R131). -/
def execJp (nnn : Addr) (s : State) : Host.Outcome State Fault Refusal :=
  .next (s.setPc (biased (zext16 nnn))).advance

/-- CALL nnn (R125): the pushed value is the CALL's own address. -/
def execCall (nnn : Addr) (s : State) : Host.Outcome State Fault Refusal :=
  if h : s.sp.val < 16 then .next ((s.push s.pc h).setPc (biased (zext16 nnn))).advance
  else .next (s.raiseFault .stackOverflow)

/-- JP V0 nnn (R126). -/
def execJpV0 (nnn : Addr) (s : State) : Host.Outcome State Fault Refusal :=
  .next (s.setPc (biased (indexedTarget s nnn))).advance

/-- The conditional skip: PC + 2 extra when the condition holds (spec/40_step_and_control.md, section 3). -/
def State.skipIf (s : State) (c : Bool) : State := if c then s.advance.advance else s.advance

/-- SE Vx kk (R127). -/
def execSeByte (x : Nibble) (kk : Byte) (s : State) : Host.Outcome State Fault Refusal :=
  .next (s.skipIf (s.reg x == kk))

/-- SNE Vx kk (R128). -/
def execSneByte (x : Nibble) (kk : Byte) (s : State) : Host.Outcome State Fault Refusal :=
  .next (s.skipIf (s.reg x != kk))

/-- SE Vx Vy (R129). -/
def execSeReg (x y : Nibble) (s : State) : Host.Outcome State Fault Refusal :=
  .next (s.skipIf (s.reg x == s.reg y))

/-- SNE Vx Vy (R130). -/
def execSneReg (x y : Nibble) (s : State) : Host.Outcome State Fault Refusal :=
  .next (s.skipIf (s.reg x != s.reg y))

end Sys2Proof.Machine
end

