-- ==== Sys2Proof/Machine/Surface.lean ====
section
/-! DEFINITION. The display surface's primitives, clear, getPixel, draw and scroll (spec/42_display.md R180 to R184), and
the sprite decoders (R185, R186). `w` and `h` are the plane's width and height. -/

namespace Sys2Proof.Machine

/-- `Disp[x, y]` for coordinates inside the plane; false outside it. -/
def Plane.cell (d : Plane) (x y : Nat) : Bool := (d.getD y []).getD x false

/-- `getPixel(x, y) = Disp[x mod W, y mod H]` (R180). -/
def Plane.getPixel (w h : Nat) (d : Plane) (x y : Nat) : Bool := Plane.cell d (x % w) (y % h)

/-- The plane whose pixel (x, y) is `f x y`. -/
def Plane.tabulate (w h : Nat) (f : Nat → Nat → Bool) : Plane :=
  (List.range h).map fun y => (List.range w).map fun x => f x y

/-- `Disp[x, y] <- Disp[x, y] ^ 1`. -/
def Plane.toggle (d : Plane) (x y : Nat) : Plane := d.modify y fun row => row.modify x fun b => !b

/-- The plane's shape: `h` rows of `w` pixels. -/
abbrev Plane.shaped (w h : Nat) (d : Plane) : Prop := d.length = h ∧ ∀ row ∈ d, row.length = w

/-! ## Draw (R182) -/

/-- One source pixel `b` of a draw at (x, y): a set one tests its wrapped destination, then toggles it. The pair is the
plane and the collision so far. -/
def drawPixel (w h x y : Nat) (b : Bool) (acc : Plane × Bool) : Plane × Bool :=
  if b then (Plane.toggle acc.1 (x % w) (y % h), acc.2 || Plane.getPixel w h acc.1 x y) else acc

/-- One row of source pixels from column `x` on, left to right. -/
def drawRow (w h x y : Nat) : List Bool → Plane × Bool → Plane × Bool
  | [], acc => acc
  | b :: bs, acc => drawRow w h (x + 1) y bs (drawPixel w h x y b acc)

/-- The rows of the pixel matrix from row `y` on, top to bottom. -/
def drawRows (w h x y : Nat) : List (List Bool) → Plane × Bool → Plane × Bool
  | [], acc => acc
  | p :: ps, acc => drawRows w h x (y + 1) ps (drawRow w h x y p acc)

/-- `Draw(x0, y0, P)`: the plane after it, and the collision (R182). -/
def draw (w h x0 y0 : Nat) (p : List (List Bool)) (d : Plane) : Plane × Bool := drawRows w h x0 y0 p (d, false)

/-! ## Scroll (R184) -/

/-- The horizontal scroll distance `HSCROLL` in pixels (R11, R253; general knowledge, G5; log entry 10). -/
def hscroll : Nat := 4

/-- `Scroll(dx, dy)`, positive = right and down, under the edge policy (R184). -/
def scroll (e : ScrollEdge) (w h : Nat) (dx dy : Int) (d : Plane) : Plane :=
  Plane.tabulate w h fun x y =>
    let sx : Int := x - dx
    let sy : Int := y - dy
    match e with
    | .wrap => Plane.cell d (sx % w).toNat (sy % h).toNat
    | .clear => decide (0 ≤ sx ∧ sx < w ∧ 0 ≤ sy ∧ sy < h) && Plane.cell d sx.toNat sy.toNat

/-! ## Sprite decoders (R185, R186) -/

/-- The 8 pixels of a sprite byte, MSB first: `P[c] = (b >> (7 - c)) & 1` (R185). -/
def spriteByte (b : Byte) : List Bool := (List.range 8).map fun c => b.getLsbD (7 - c)

/-- Classic decode: one row of 8 pixels per byte (R185). -/
def classicDecode (bs : List Byte) : List (List Bool) := bs.map spriteByte

/-- Extended decode: one row of 16 pixels per two bytes, the byte at the lower address the left half (R186). -/
def extendedDecode : List Byte → List (List Bool)
  | l :: r :: bs => (spriteByte l ++ spriteByte r) :: extendedDecode bs
  | _ => []

end Sys2Proof.Machine
end

