-- ==== Sys2Proof/Machine/Display.lean ====
section
/-! DEFINITION. CLS and the three rows of DRW (spec/42_display.md R187 to R190). -/

namespace Sys2Proof.Machine

/-- CLS: `Clear()`, every pixel 0 (R181, R187). -/
def execCls (s : State) : Host.Outcome State Fault Refusal := .next (s.setDisp (blankPlane s.cfg)).advance

/-- The draw of pixel matrix `p` at (V[x], V[y]), read before VF is written; VF = collision (R188, R190). -/
def State.drawSprite (s : State) (x y : Nibble) (p : List (List Bool)) : State :=
  let out := draw s.cfg.width s.cfg.height (s.reg x).toNat (s.reg y).toNat p s.disp
  (s.setDisp out.1).setVF (collisionFlag out.2)

/-- DRW Vx Vy n, n = 1..15: an 8×n sprite at I (R188). -/
def execDrw (x y n : Nibble) (s : State) : Host.Outcome State Fault Refusal :=
  if s.inRange (n.toNat - 1) then
    .next (s.drawSprite x y (classicDecode (Memory.loadBytes s.mem s.i.toNat n.toNat))).advance
  else .next (s.raiseFault .dataOutOfRange)

/-- DRW Vx Vy 0 in Classic mode: always Fault(5) (R189). The operands are not looked at. -/
def execDrwZeroClassic (_x _y : Nibble) (s : State) : Host.Outcome State Fault Refusal :=
  .next (s.raiseFault .invalidSpriteHeight)

/-- DRW Vx Vy 0 in Extended mode: a 16×16 sprite at I (R190). -/
def execDrwZeroExtended (x y : Nibble) (s : State) : Host.Outcome State Fault Refusal :=
  if s.inRange 31 then
    .next (s.drawSprite x y (extendedDecode (Memory.loadBytes s.mem s.i.toNat 32))).advance
  else .next (s.raiseFault .dataOutOfRange)

end Sys2Proof.Machine
end

