-- ==== Sys2Proof/Machine/Extended.lean ====
section
/-! DEFINITION. The Extended-mode instructions (spec/45_extended.md R250 to R258). Their gating by `MODE` is in the
decoder (R98, R250): in Classic mode their words decode to `NOP` and these meanings are never called. -/

namespace Sys2Proof.Machine

/-- The plane scrolled by (dx, dy) under the instance's edge policy (R184). -/
def State.scrolled (s : State) (dx dy : Int) : State :=
  s.setDisp (scroll s.cfg.scrollEdge s.cfg.width s.cfg.height dx dy s.disp)

/-- SCD n: down n rows (R251). -/
def execScd (n : Nibble) (s : State) : Host.Outcome State Fault Refusal := .next (s.scrolled 0 n.toNat).advance

/-- SCU n: up n rows (R252). -/
def execScu (n : Nibble) (s : State) : Host.Outcome State Fault Refusal := .next (s.scrolled 0 (-n.toNat)).advance

/-- SCR: right `HSCROLL` columns (R253). -/
def execScr (s : State) : Host.Outcome State Fault Refusal := .next (s.scrolled hscroll 0).advance

/-- SCL: left `HSCROLL` columns (R254). -/
def execScl (s : State) : Host.Outcome State Fault Refusal := .next (s.scrolled (-hscroll) 0).advance

/-- LOW (R255). -/
def execLow (s : State) : Host.Outcome State Fault Refusal := .next (s.setHires .low).advance

/-- HIGH (R256). -/
def execHigh (s : State) : Host.Outcome State Fault Refusal := .next (s.setHires .high).advance

/-- LD R Vx: V0..V[min(x,7)] to the flag-save bank (R257). -/
def execSaveFlags (x : Nibble) (s : State) : Host.Outcome State Fault Refusal :=
  .next (s.setBank (copyPrefix s.v s.r (bankCount x))).advance

/-- LD Vx R: V0..V[min(x,7)] from the flag-save bank (R258). -/
def execRestoreFlags (x : Nibble) (s : State) : Host.Outcome State Fault Refusal :=
  .next (s.setV (copyPrefix s.r s.v (bankCount x))).advance

end Sys2Proof.Machine
end

