-- ==== Sys2Proof/Machine/IndexMem.lean ====
section
/-! DEFINITION. The index register and memory instructions (spec/44_index_and_memory.md R230 to R236). -/

namespace Sys2Proof.Machine

/-- LD I nnn (R230). -/
def execLdI (nnn : Addr) (s : State) : Host.Outcome State Fault Refusal := .next (s.setI (zext16 nnn)).advance

/-- ADD I Vx: modulo 65536, VF not written (R231). -/
def execAddI (x : Nibble) (s : State) : Host.Outcome State Fault Refusal :=
  .next (s.setI (s.i + (s.reg x).setWidth 16)).advance

/-- LD F Vx (R232). -/
def execLdFont (x : Nibble) (s : State) : Host.Outcome State Fault Refusal :=
  .next (s.setI (glyphAddress (s.reg x))).advance

/-- LD B Vx: the three decimal digits at I, I + 1, I + 2; I unchanged (R233). -/
def execLdBcd (x : Nibble) (s : State) : Host.Outcome State Fault Refusal :=
  if s.inRange 2 then
    let b := s.reg x
    .next (s.setMem (Memory.storeBytes s.mem (s.ea 0) [hundreds b, tens b, units b])).advance
  else .next (s.raiseFault .dataOutOfRange)

/-- `I <- (I + x + 1) mod 65536`, the block transfers' post-increment (R234, R235, R236). -/
def State.bumpI (s : State) (x : Nibble) : State := s.setI (s.i + BitVec.ofNat 16 (x.toNat + 1))

/-- LD [I] Vx, the block store of V0..Vx (R234). -/
def execStoreBlock (x : Nibble) (s : State) : Host.Outcome State Fault Refusal :=
  if s.inRange x.toNat then
    .next ((s.setMem (Memory.storeBytes s.mem (s.ea 0) (s.block x))).bumpI x).advance
  else .next (s.raiseFault .dataOutOfRange)

/-- LD Vx [I], the block load of V0..Vx (R235). -/
def execLoadBlock (x : Nibble) (s : State) : Host.Outcome State Fault Refusal :=
  if s.inRange x.toNat then
    .next ((s.setV (loadRegs s.mem (s.ea 0) s.v (x.toNat + 1))).bumpI x).advance
  else .next (s.raiseFault .dataOutOfRange)

end Sys2Proof.Machine
end

