-- ==== Sys2Proof/Machine/KeysTimers.lean ====
section
/-! DEFINITION. The keypad and timer instructions (spec/43_keys_and_timers.md R210 to R215). `s.key` is the host's
answer to the one query an execution makes; `takeKey` uses it up. -/

namespace Sys2Proof.Machine

/-- The reported key equals V[x] on its full 8 bits; `NoKey` equals nothing (R210). -/
def State.keyIs (s : State) (x : Nibble) : Bool :=
  match s.key with
  | none => false
  | some k => k.setWidth 8 == s.reg x

/-- SKP Vx (R210). -/
def execSkp (x : Nibble) (s : State) : Host.Outcome State Fault Refusal := .next (s.takeKey.skipIf (s.keyIs x))

/-- SKNP Vx (R211). -/
def execSknp (x : Nibble) (s : State) : Host.Outcome State Fault Refusal := .next (s.takeKey.skipIf (!s.keyIs x))

/-- LD Vx DT (R212). -/
def execLdFromDt (x : Nibble) (s : State) : Host.Outcome State Fault Refusal := .next (s.setReg x s.dt).advance

/-- LD Vx K, the key-wait: with no key PC is rewound, and the step's + 2 restores it (R213). -/
def execLdKey (x : Nibble) (s : State) : Host.Outcome State Fault Refusal :=
  .next (match s.key with
    | none => (s.takeKey.setPc (s.pc - 2)).advance
    | some k => (s.takeKey.setReg x (k.setWidth 8)).advance)

/-- LD DT Vx (R214). -/
def execLdDt (x : Nibble) (s : State) : Host.Outcome State Fault Refusal := .next (s.setDt (s.reg x)).advance

/-- LD ST Vx: `sound_start` is emitted when the value written is greater than 0 (R215). -/
def execLdSt (x : Nibble) (s : State) : Host.Outcome State Fault Refusal :=
  .next (if 0 < (s.reg x).toNat then ((s.setSt (s.reg x)).emit .soundStart).advance else (s.setSt (s.reg x)).advance)

end Sys2Proof.Machine
end

