-- ==== Sys2Proof/Machine/Events.lean ====
section
/-! DEFINITION. The events of the tick agent and of the host: `Tick` (spec/60_exceptions.md R286) and `Load`
(spec/70_reset_and_hazards.md R324, R325); `Reset` is `State.resetEvent` in Ops.lean. And power-on with any font and
any low memory (R323). -/

namespace Sys2Proof.Machine

/-- `if DT > 0: DT <- DT - 1` (R286). -/
def State.tickDelay (s : State) : State := if 0 < s.dt.toNat then s.setDt (s.dt - 1) else s

/-- `if ST > 0: ST <- ST - 1, and sound_stop if it is now 0` (R286). -/
def State.tickSound (s : State) : State :=
  if 0 < s.st.toNat then
    if s.st - 1 = 0 then (s.setSt (s.st - 1)).emit .soundStop else s.setSt (s.st - 1)
  else s

/-- `Tick()` (R286): it runs whatever the step agent's condition is. -/
def State.tickEvent (s : State) : State := s.tickDelay.tickSound.emit .frame

/-- Program capacity `PROG_CAP` in bytes (R6). -/
def progCap : Nat := 3584

/-- Program origin `ORIGIN` (R6), the reset value of PC. -/
def origin : Nat := 0x200

/-- `Load(bytes)` (R324); more than `progCap` bytes are refused with no state change but the report to the host
(R325). -/
def State.loadEvent (s : State) (bytes : List Byte) : State :=
  if bytes.length ≤ progCap then
    (s.setMem (Memory.storeBytes (Memory.clearProgram s.mem) origin bytes)).setPc (BitVec.ofNat 16 origin)
  else s.emit .loadRefused

/-- Power-on of an instance with configuration `c` whose `FONT` is `f` and whose `LOWMEM` is `l` (R9, R323).
`State.powerOn c` is the same with the default font and the open `LOWMEM`. -/
def State.powerOnWith (c : Config) (f : Vector Byte 80) (l : Vector Byte 432) : State :=
  (State.powerOn c).setMem (Memory.storeBytes [] 0x000 (f.toList ++ l.toList))

end Sys2Proof.Machine
end

