-- ==== Sys2Proof/Machine/Cycle.lean ====
section
/-! DEFINITION. The step cycle of the step agent (spec/40_step_and_control.md R120) and the performing of one event of
any agent (spec/00_scope.md R3). -/

namespace Sys2Proof.Machine

/-- Line 5 and 6 of the step cycle on a decoded word: one instruction, or NOP (R94, R97). -/
def State.runDecoded (s : State) (d : Decoded) : Host.Outcome State Fault Refusal :=
  match d with
  | .instr i => exec i s
  | .nop _ => execNop s

/-- `Step` (R120): faulted, then the fetch range, then fetch, decode under `MODE` (HALT among the answers, R94) and
execution. -/
def State.stepEvent (s : State) : Host.Outcome State Fault Refusal :=
  if s.fault ≠ none then .next s
  else if s.canFetch then s.runDecoded (decode s.cfg.mode s.fetchWord)
  else .next (s.raiseFault .fetchOutOfRange)

/-- One event performed, whole (R3: every event is atomic with respect to every other). -/
def State.perform (s : State) (e : Event) : Host.Outcome State Fault Refusal :=
  match e with
  | .step => s.stepEvent
  | .tick => .next s.tickEvent
  | .reset => .next s.resetEvent
  | .load bytes => .next (s.loadEvent bytes)

/-- The event of an agent's turn: each agent has one (R3, R120, R286). -/
def agentEvent : Agent → Event
  | .step => .step
  | .tick => .tick

/-- The next event: the first pending one; when none is listed, a `Step`, or the open turn of a free-running machine
(R3, R287; log entries 6, 25). -/
def State.headEvent (s : State) : Event :=
  match s.pending, s.turns with
  | e :: _, _ => e
  | [], none => .step
  | [], some n => agentEvent (Config.freeTurn n)

/-- The state after the next event has been chosen: it is taken off the list, or the turn is used up. -/
def State.takeEvent (s : State) : State :=
  match s.pending with
  | _ :: es => { s with pending := es }
  | [] => { s with turns := s.turns.map (· + 1) }

/-- The next event, performed on the state in which it has been taken. -/
def State.nextEvent (s : State) : Host.Outcome State Fault Refusal := s.takeEvent.perform s.headEvent

/-- `s` with the bytes of `w` where the next fetch reads them: at PC, or at 0x200 where PC admits no fetch. What would
keep the next event from being a `Step` that fetches is taken away: a fault latch that is set; a pending event or an
open turn, before which a `Step` is put. -/
def State.placeWord (s : State) (w : Word) : State :=
  let pc := if s.canFetch then s.pc else BitVec.ofNat 16 origin
  { s with
    pc := pc
    fault := none
    mem := Memory.storeBytes s.mem pc.toNat [(bytesOfWord w).1, (bytesOfWord w).2]
    pending := match s.pending, s.turns with
      | [], none => []
      | es, _ => .step :: es }

end Sys2Proof.Machine
end

