-- ==== Sys2Proof/Machine/Step.lean ====
section
/-! DEFINITION. The machine's step: the next event, performed (Cycle.lean). -/

namespace Sys2Proof.Machine

/-- One event of the machine (R3): the first pending one; where none is pending, the step agent's `Step` (R120), or of
a free-running machine the event of the agent whose turn it is (R287). -/
def step (s : State) : Host.Outcome State Fault Refusal := s.nextEvent

/-- `s` with the instruction word `w` stored where `step` fetches next (every instruction is one 16-bit word, R90, so
`nbits` adds nothing). -/
def State.withFetchWord (s : State) (_nbits w : Nat) : State := s.placeWord (BitVec.ofNat 16 w)

end Sys2Proof.Machine
end

