-- ==== Sys2Proof/Safety.lean ====
section
/-! DEFINITION. The terms claims are stated in: the conditions of a machine that runs no instruction
(spec/60_exceptions.md R300), the outcomes of a `Step` (R16), the invariant of the model, and the frames. -/

namespace Sys2Proof.Machine

/-! ## Conditions and outcomes -/

/-- Halted: no fault, PC ≤ 0xFFE and the word at PC is 0x0000 (R121, R300, R329). The only normal end of a run. -/
abbrev State.halted (s : State) : Prop := s.fault = none ∧ s.canFetch = true ∧ s.fetchWord = 0

/-- Faulted: the latch is set (R281, R300). Never an end of a run (R329). -/
abbrev State.faulted (s : State) : Prop := s.fault ≠ none

/-- In a key-wait: the word at PC is Fx0A and the host answers `NoKey` (R300). -/
abbrev State.keyWaiting (s : State) : Prop :=
  s.fault = none ∧ s.canFetch = true ∧ fieldH s.fetchWord = 0xF ∧ fieldKK s.fetchWord = 0x0A ∧ s.key = none

/-- The four outcomes of a `Step` event (R16). -/
inductive StepKind where
  | executed
  | halted
  | fault
  | faulted
  deriving DecidableEq, Repr

/-- Which of the four outcomes a `Step` from `s` to `t` is (R16). -/
def State.stepKind (s t : State) : StepKind :=
  if s.fault ≠ none then .faulted
  else if t.fault ≠ none then .fault
  else if s.canFetch = true ∧ s.fetchWord = 0 then .halted
  else .executed

/-- The step agent is next: a `Step` is the first pending event, or none is pending and no turn is the tick agent's. -/
abbrev State.stepIsNext (s : State) : Prop := s.headEvent = .step

/-! ## Interleavings of the two agents (R287)

An interleaving is any infinite sequence of turns `f`. -/

/-- `s` comes to `t` by the events of the first `k` turns of `f`, as steps of the machine that has them pending. -/
def State.Runs (s : State) (f : Nat → Agent) (k : Nat) (t : State) : Prop :=
  Host.Core.run Sys2Proof.core k { s with pending := (List.range k).map fun j => agentEvent (f j) } = .next t

/-- From every turn on there is one more of agent `a`'s. Weak fairness, the only liveness assumption there is (R287),
says this of both agents. -/
def KeepsComing (a : Agent) (f : Nat → Agent) : Prop := ∀ n, ∃ m, n ≤ m ∧ f m = a

/-! ## The plane, the pixels of a sprite -/

/-- `Disp[x, y]`, the display snapshot the host reads (R33, R191). -/
def State.pixel (s : State) (x y : Nat) : Bool := Plane.cell s.disp x y

/-- Pixel (r, c) of an 8×n sprite at I: bit 7 - c of the byte at I + r (R185). -/
def State.spriteBit (s : State) (r c : Nat) : Bool := (Memory.read s.mem (s.i.toNat + r)).getLsbD (7 - c)

/-- Pixel (r, c) of a 16×16 sprite at I: the byte at I + 2r is the left half of row r (R186). -/
def State.wideSpriteBit (s : State) (r c : Nat) : Bool :=
  if c < 8 then (Memory.read s.mem (s.i.toNat + 2 * r)).getLsbD (7 - c)
  else (Memory.read s.mem (s.i.toNat + 2 * r + 1)).getLsbD (15 - c)

/-! ## What a draw does to the plane, pixel by pixel -/

/-- How many set pixels of row `r` of the matrix `p`, its first `cols` columns, placed at (x0, y0) on a W×H plane, fall
on pixel (x, y) after wrapping (R180, R182). -/
def hitsOfRow (w h x0 y0 cols : Nat) (p : Nat → Nat → Bool) (r x y : Nat) : Nat :=
  (List.range cols).countP fun c => p r c && (x0 + c) % w == x && (y0 + r) % h == y

/-- The same for the first `rows` rows. -/
def hits (w h x0 y0 rows cols : Nat) (p : Nat → Nat → Bool) (x y : Nat) : Nat :=
  ((List.range rows).map fun r => hitsOfRow w h x0 y0 cols p r x y).sum

/-- Whether the destination of source pixel (r, c) is 1 when the row-major draw comes to it: its value before the draw,
toggled once by every set source pixel that came earlier and fell on it (R182, R183). -/
def State.destBit (s : State) (x0 y0 cols : Nat) (p : Nat → Nat → Bool) (r c : Nat) : Bool :=
  let w := s.cfg.width
  let h := s.cfg.height
  let x := (x0 + c) % w
  let y := (y0 + r) % h
  s.pixel x y ^^ decide ((hits w h x0 y0 r cols p x y + hitsOfRow w h x0 y0 c p r x y) % 2 = 1)

/-- The effect of drawing the rows × cols matrix `p` at (V[x], V[y]): every pixel is toggled once by every set source
pixel that falls on it; VF is 1 exactly when some set source pixel met a 1 (R182, R183, R188, R190). -/
def DrawEffect (s t : State) (x y : Nibble) (rows cols : Nat) (p : Nat → Nat → Bool) : Prop :=
  let x0 := (s.reg x).toNat
  let y0 := (s.reg y).toNat
  (∀ px py, px < s.cfg.width → py < s.cfg.height →
    t.pixel px py = (s.pixel px py ^^ decide (hits s.cfg.width s.cfg.height x0 y0 rows cols p px py % 2 = 1))) ∧
  ((t.reg 0xF = 1 ∧ ∃ r c, r < rows ∧ c < cols ∧ p r c = true ∧ s.destBit x0 y0 cols p r c = true) ∨
   (t.reg 0xF = 0 ∧ ∀ r c, r < rows → c < cols → p r c = true → s.destBit x0 y0 cols p r c = false))

/-! ## The invariant -/

/-- What every step keeps: W and H are positive, memory is in its canonical form, the plane has the instance's size (R7,
R33, R60, R192). -/
abbrev State.Inv (s : State) : Prop :=
  s.cfg.wf ∧ Memory.wf s.mem ∧ Plane.shaped s.cfg.width s.cfg.height s.disp

/-! ## Frames and effects. A frame `t = { s with v := t.v, ... }` says that every field not named is unchanged. -/

/-- Every byte of memory reads as before. -/
abbrev SameMemory (s t : State) : Prop := ∀ a, Memory.read t.mem a = Memory.read s.mem a

/-- Every byte of memory outside the `len` bytes at `base` reads as before. -/
abbrev SameMemoryOutside (base len : Nat) (s t : State) : Prop :=
  ∀ a, a < base ∨ base + len ≤ a → Memory.read t.mem a = Memory.read s.mem a

/-- `exec i s` answers the next state in which V[x] is `b` and PC is 2 further, and nothing else is changed. -/
def WritesReg (i : Instr) (s : State) (x : Nibble) (b : Byte) : Prop :=
  ∃ t, exec i s = .next t ∧ t.reg x = b ∧ (∀ k, k ≠ x → t.reg k = s.reg k) ∧
    t = { s with v := t.v, pc := s.pc + 2 } ∧ SameMemory s t

/-- `exec i s` answers the next state in which VF is `f`, V[x] is `b` unless x = 15 (the flag is written last, R162), PC
is 2 further, and nothing else is changed. -/
def WritesRegAndFlag (i : Instr) (s : State) (x : Nibble) (b f : Byte) : Prop :=
  ∃ t, exec i s = .next t ∧ t.reg 0xF = f ∧ (x ≠ 0xF → t.reg x = b) ∧
    (∀ k, k ≠ x → k ≠ 0xF → t.reg k = s.reg k) ∧ t = { s with v := t.v, pc := s.pc + 2 } ∧ SameMemory s t

/-- From `s` to `t` one key query was made: the next queued answer is used up, or one open value is (R12, R37). -/
def KeyQueried (s t : State) : Prop :=
  (∀ k ks, s.keys = k :: ks → s.key = k ∧ t.keys = ks ∧ t.draws = s.draws) ∧
  (s.keys = [] → s.key = Config.freeKey s.draws ∧ t.keys = [] ∧ t.draws = s.draws + 1)

/-- From `s` to `t` one random byte was drawn: the next queued byte is used up, or one open value is (R12, R161). -/
def RndDrawn (s t : State) : Prop :=
  (∀ b bs, s.rnds = b :: bs → s.rnd = b ∧ t.rnds = bs ∧ t.draws = s.draws) ∧
  (s.rnds = [] → s.rnd = Config.freeByte s.draws ∧ t.rnds = [] ∧ t.draws = s.draws + 1)

end Sys2Proof.Machine
end

