-- ==== Sys2Proof/Certificates/Slice0/Obligations.lean ====
section
/-! DEFINITION. The statements for the provers, from the numbered rules of spec/. `exec` is the whole effect of lines 4
to 7 of the step cycle on one decoded instruction (R120). -/

open Sys2Proof Sys2Proof.Machine

/-! ## Encoding (spec/30_encoding.md) -/

/-- R92, R94, R95 (decisions D15, D16, D17): decoding the word of a well-formed instruction of the mode gives the
instruction back. -/
def Obligations.DecodeOfEncodeIsTheInstruction : Prop :=
  ∀ (m : Mode) (i : Instr), i.wellFormed = true → i.definedIn m = true → decode m (encode i) = .instr i

/-- R94 (decision D15): the instruction a word decodes to is well formed, defined in the mode, and encodes to that very
word. -/
def Obligations.EncodeOfDecodeIsTheWord : Prop :=
  ∀ (m : Mode) (w : Word) (i : Instr), decode m w = .instr i →
    i.wellFormed = true ∧ i.definedIn m = true ∧ encode i = w

/-- R95 (decision D16), and the examples of R124 to R258: words written out from the opcode map decode as the map says.
-/
def Obligations.WordsOfTheOpcodeMapDecode : Prop :=
  (∀ m, decode m 0x0000 = .instr .halt ∧ decode m 0x00E0 = .instr .cls ∧ decode m 0x00EE = .instr .ret ∧
    decode m 0x1204 = .instr (.jp 0x204) ∧ decode m 0x220C = .instr (.call 0x20C) ∧
    decode m 0x332A = .instr (.seByte 3 0x2A) ∧ decode m 0x432A = .instr (.sneByte 3 0x2A) ∧
    decode m 0x5120 = .instr (.seReg 1 2) ∧ decode m 0x6A7F = .instr (.ldByte 0xA 0x7F) ∧
    decode m 0x7003 = .instr (.addByte 0 3) ∧ decode m 0x9120 = .instr (.sneReg 1 2) ∧
    decode m 0xA300 = .instr (.ldI 0x300) ∧ decode m 0xB300 = .instr (.jpV0 0x300) ∧
    decode m 0xC20F = .instr (.rnd 2 0x0F) ∧
    decode m 0x8216 = .instr (.shr 2 1) ∧ decode m 0xF155 = .instr (.storeBlock 1) ∧
    decode m 0xE49E = .instr (.skp 4) ∧ decode m 0xD125 = .instr (.drw 1 2 5)) ∧
  decode .classic 0xD120 = .instr (.drwZeroClassic 1 2) ∧ decode .extended 0xD120 = .instr (.drwZeroExtended 1 2) ∧
  decode .extended 0x00C1 = .instr (.scd 1) ∧ decode .classic 0x00C1 = .nop .extendedOnly ∧
  decode .extended 0xF275 = .instr (.saveFlags 2) ∧ decode .classic 0xF275 = .nop .extendedOnly ∧
  decode .extended 0x00FD = .nop .noRow ∧ decode .classic 0x8AB9 = .nop .noRow

/-- R97 (decision D15): the undefined words of each mode, by their digits, are exactly the listed ones. -/
def Obligations.UndefinedWordsAreTheListedOnes : Prop :=
  ∀ (w : Word),
    let h := w.toNat / 0x1000
    let kk := w.toNat % 0x100
    let n := w.toNat % 0x10
    let common := ((h = 5 ∨ h = 9) ∧ n ≠ 0) ∨ (h = 8 ∧ n ∈ [0x8, 0x9, 0xA, 0xB, 0xC, 0xD, 0xF]) ∨
      (h = 0xE ∧ kk ∉ [0x9E, 0xA1])
    let listed := [0x07, 0x0A, 0x15, 0x18, 0x1E, 0x29, 0x33, 0x55, 0x65]
    ((∃ u, decode .classic w = .nop u) ↔
      (h = 0 ∧ w.toNat ∉ [0x0000, 0x00E0, 0x00EE]) ∨ common ∨ (h = 0xF ∧ kk ∉ listed)) ∧
    ((∃ u, decode .extended w = .nop u) ↔
      (h = 0 ∧ w.toNat ∉ [0x0000, 0x00E0, 0x00EE, 0x00FB, 0x00FC, 0x00FE, 0x00FF] ∧
        w.toNat / 0x10 ∉ [0x00B, 0x00C]) ∨ common ∨ (h = 0xF ∧ kk ∉ listed ++ [0x75, 0x85]))

/-! ## The step cycle (spec/40_step_and_control.md R120, spec/60_exceptions.md) -/

/-- R120 (decisions D7, D8): when the step agent is next, the machine has no fault and the two bytes at PC decode to
`i`, the step is `exec i`, on the state with the `Step` event taken off the pending list. -/
def Obligations.StepRunsTheDecodedInstruction : Prop :=
  ∀ (s : State) (i : Instr), s.stepIsNext → s.fault = none → s.pc.toNat ≤ 0xFFE →
    decode s.cfg.mode (BitVec.ofNat 16
      ((Memory.read s.mem s.pc.toNat).toNat * 256 + (Memory.read s.mem (s.pc.toNat + 1)).toNat)) = .instr i →
    step s = exec i s.takeEvent

/-- R120 lines 1 and 2, R97, R122 (decisions D7, D8, D15): a `Step` of a faulted machine changes nothing; one that
cannot fetch sets the latch to cause 1; one on an undefined pattern advances PC by 2; each changes nothing else. -/
def Obligations.StepThatRunsNoInstruction : Prop :=
  ∀ (s : State), s.stepIsNext →
    (s.fault ≠ none → step s = .next s.takeEvent) ∧
    (s.fault = none → 0xFFE < s.pc.toNat →
      step s = .next { s.takeEvent with fault := some .fetchOutOfRange }) ∧
    (∀ u, s.fault = none → s.pc.toNat ≤ 0xFFE → decode s.cfg.mode s.fetchWord = .nop u →
      step s = .next { s.takeEvent with pc := s.pc + 2 })

/-- What the host's placing of a word means (log entry 6): the next step runs the instruction the word decodes to, on
the state in which the word stands at PC. -/
def Obligations.PlacedWordIsTheNextInstruction : Prop :=
  ∀ (s : State) (nbits w : Nat) (i : Instr), decode s.cfg.mode (BitVec.ofNat 16 w) = .instr i →
    step (s.withFetchWord nbits w) = exec i { s.withFetchWord nbits w with pending := s.pending } ∧
    (s.withFetchWord nbits w).cfg = s.cfg ∧ (s.withFetchWord nbits w).fetchWord = BitVec.ofNat 16 w

/-- R3, R13, R287 (decision D27): the events are performed one by one, each whole: the pending ones in the order listed,
then `Step` events alone, or, of a free-running machine, the events of the open turns. The form, a list and a counter in
the state, is the model's choice (log entries 6, 25). -/
def Obligations.PendingEventsArePerformedInOrder : Prop :=
  ∀ (s : State) (es : List Event) (b : List Byte) (n : Nat),
    (step { s with pending := .tick :: es } = .next { s with pending := es }.tickEvent ∧
      step { s with pending := .reset :: es } = .next { s with pending := es }.resetEvent ∧
      step { s with pending := .load b :: es } = .next ({ s with pending := es }.loadEvent b) ∧
      step { s with pending := .step :: es } = { s with pending := es }.stepEvent) ∧
    step { s with pending := [], turns := none } = { s with pending := [], turns := none }.stepEvent ∧
    step { s with pending := [], turns := some n } =
      match Config.freeTurn n with
      | .step => { s with pending := [], turns := some (n + 1) }.stepEvent
      | .tick => .next { s with pending := [], turns := some (n + 1) }.tickEvent

/-- R96, R121: HALT's own effect is nothing at all. -/
def Obligations.HaltChangesNothing : Prop :=
  (∀ m, decode m 0x0000 = .instr .halt) ∧ ∀ s : State, exec .halt s = .next s

/-- R281, R286, R288, R320, R324, R325 (decisions D7, D21, D22; log entries 3, 21): no event but `Reset` takes a machine
out of the faulted state, and `Reset` does; `Tick` and `Load` keep the latch, SP and V, and a `Step` keeps everything. -/
def Obligations.OnlyResetLeavesTheFaultedState : Prop :=
  ∀ (s t : State) (e : Event), s.fault ≠ none → s.perform e = .next t →
    (e = .reset → t.fault = none) ∧ (e ≠ .reset → t.fault = s.fault ∧ t.sp = s.sp ∧ (∀ k, t.reg k = s.reg k)) ∧
    (e = .step → t = s)

/-- R2, R16, R97, R281, R287: every step of the machine answers a next state, under the same configuration; nothing
stops it. So every interleaving of `Step` and `Tick` is a run, however far, and a free-running machine goes through the
one its open turns make, for ever (decisions D1, D7, D15, D27; log entries 1, 3, 25). -/
def Obligations.EveryStepGoesOnInTheSameConfiguration : Prop :=
  (∀ s : State, ∃ t, step s = .next t ∧ t.cfg = s.cfg) ∧
  (∀ (s : State) (f : Nat → Agent) (k : Nat), ∃ t, s.Runs f k t ∧ t.pending = [] ∧ t.turns = s.turns ∧ t.cfg = s.cfg) ∧
  ∀ (s : State) (n k : Nat), ∃ t, s.Runs (fun j => Config.freeTurn (n + j)) k t ∧
    Host.Core.run Sys2Proof.core k { s with pending := [], turns := some n } = .next { t with turns := some (n + k) }

/-- R282, R283 (decisions D7 to D11): at a step that sets the latch nothing else changes, and the cause is the one whose
condition holds. -/
def Obligations.FaultsArePreciseAndHaveTheirCause : Prop :=
  ∀ (s t : State) (c : Fault), s.fault = none → s.stepEvent = .next t → t.fault = some c →
    t = { s with fault := some c } ∧
    (c = .fetchOutOfRange ↔ 0xFFE < s.pc.toNat) ∧
    (c = .stackOverflow → s.sp.val = 16 ∧ ∃ a, decode s.cfg.mode s.fetchWord = .instr (.call a)) ∧
    (c = .stackUnderflow → s.sp.val = 0 ∧ decode s.cfg.mode s.fetchWord = .instr .ret) ∧
    (c = .dataOutOfRange → ∃ i last, decode s.cfg.mode s.fetchWord = .instr i ∧ 0xFFF < s.i.toNat + last ∧
      ((∃ x, i = .ldBcd x ∧ last = 2) ∨ (∃ x, (i = .storeBlock x ∨ i = .loadBlock x) ∧ last = x.toNat) ∨
        (∃ x y n, i = .drw x y n ∧ last = n.toNat - 1) ∨ (∃ x y, i = .drwZeroExtended x y ∧ last = 31))) ∧
    (c = .invalidSpriteHeight → s.cfg.mode = .classic ∧
      ∃ x y, decode s.cfg.mode s.fetchWord = .instr (.drwZeroClassic x y))

/-- R16 (decisions D7, D15): a `Step` has exactly one of the four outcomes, and each leaves the state as the rule says;
an executed step is the effect of the decoded instruction, or the no-op. -/
def Obligations.StepHasOneOfFourOutcomes : Prop :=
  ∀ (s t : State), s.stepEvent = .next t →
    (s.stepKind t = .faulted → s.fault ≠ none ∧ t = s) ∧
    (s.stepKind t = .fault → s.fault = none ∧ t.fault ≠ none ∧ t = { s with fault := t.fault }) ∧
    (s.stepKind t = .halted → s.fetchWord = 0 ∧ t = s) ∧
    (s.stepKind t = .executed → s.fault = none ∧ t.fault = none ∧ s.fetchWord ≠ 0 ∧
      ((∃ i, decode s.cfg.mode s.fetchWord = .instr i ∧ exec i s = .next t) ∨
        ((∃ u, decode s.cfg.mode s.fetchWord = .nop u) ∧ t = { s with pc := s.pc + 2 })))

/-! ## Control transfer (R123 to R131) -/

/-- R123 (decision D10): RET. -/
def Obligations.ReturnPopsTheCallStack : Prop :=
  (∀ m, decode m 0x00EE = .instr .ret) ∧
  ∀ s : State,
    (s.sp.val = 0 → exec .ret s = .next { s with fault := some .stackUnderflow }) ∧
    (0 < s.sp.val → ∃ t a, exec .ret s = .next t ∧ s.stack[s.sp.val - 1]? = some a ∧ t.pc = a + 2 ∧
      t.sp.val = s.sp.val - 1 ∧ t = { s with sp := t.sp, pc := t.pc } ∧ SameMemory s t)

/-- R124: JP nnn. The bias cancels (R131). -/
def Obligations.JumpLandsOnItsTarget : Prop :=
  ∀ (nnn : Addr), (∀ m, decode m (withAddr 0x1 nnn) = .instr (.jp nnn)) ∧
    ∀ s : State, exec (.jp nnn) s = .next { s with pc := BitVec.ofNat 16 nnn.toNat }

/-- R125 (decision D9): CALL nnn. -/
def Obligations.CallPushesItsOwnAddress : Prop :=
  ∀ (nnn : Addr), (∀ m, decode m (withAddr 0x2 nnn) = .instr (.call nnn)) ∧
  ∀ s : State,
    (s.sp.val = 16 → exec (.call nnn) s = .next { s with fault := some .stackOverflow }) ∧
    (s.sp.val ≠ 16 → ∃ t, exec (.call nnn) s = .next t ∧ t.stack[s.sp.val]? = some s.pc ∧
      (∀ k, k ≠ s.sp.val → t.stack[k]? = s.stack[k]?) ∧ t.sp.val = s.sp.val + 1 ∧
      t.pc = BitVec.ofNat 16 nnn.toNat ∧ t = { s with stack := t.stack, sp := t.sp, pc := t.pc } ∧ SameMemory s t)

/-- R126 (decision D30): JP V0 nnn, not reduced to 12 bits. -/
def Obligations.IndexedJumpAddsV0 : Prop :=
  ∀ (nnn : Addr), (∀ m, decode m (withAddr 0xB nnn) = .instr (.jpV0 nnn)) ∧
    ∀ s : State, ∃ t, exec (.jpV0 nnn) s = .next t ∧ t.pc.toNat = nnn.toNat + (s.reg 0).toNat ∧
      t = { s with pc := t.pc } ∧ SameMemory s t

/-- R127 to R130: the four conditional skips. -/
def Obligations.SkipsCompareForEquality : Prop :=
  ∀ (x y : Nibble) (kk : Byte),
    (∀ m, decode m (withByte 0x3 x kk) = .instr (.seByte x kk) ∧ decode m (withByte 0x4 x kk) = .instr (.sneByte x kk) ∧
      decode m (digits 0x5 x y 0x0) = .instr (.seReg x y) ∧
      decode m (digits 0x9 x y 0x0) = .instr (.sneReg x y)) ∧
    ∀ s : State,
      exec (.seByte x kk) s = .next { s with pc := if s.reg x = kk then s.pc + 4 else s.pc + 2 } ∧
      exec (.sneByte x kk) s = .next { s with pc := if s.reg x = kk then s.pc + 2 else s.pc + 4 } ∧
      exec (.seReg x y) s = .next { s with pc := if s.reg x = s.reg y then s.pc + 4 else s.pc + 2 } ∧
      exec (.sneReg x y) s = .next { s with pc := if s.reg x = s.reg y then s.pc + 2 else s.pc + 4 }

/-- R123, R125, R29 (decisions D9, D10): a CALL and the RET that matches it land on the instruction after the CALL, with
SP and every slot but the one pushed as before. -/
def Obligations.ReturnLandsAfterTheCall : Prop :=
  ∀ (nnn : Addr) (s : State), s.sp.val < 16 →
    ∃ t u, exec (.call nnn) s = .next t ∧ exec .ret t = .next u ∧ u.pc = s.pc + 2 ∧ u.sp = s.sp ∧
      (∀ k, k ≠ s.sp.val → u.stack[k]? = s.stack[k]?) ∧ u = { s with stack := u.stack, pc := u.pc }

/-! ## Loads and the ALU (R150 to R163) -/

/-- R150, R152 to R155: register loads and the bitwise operations; VF is written only as Vx. -/
def Obligations.LoadsAndLogicWriteVxOnly : Prop :=
  ∀ (x y : Nibble) (kk : Byte),
    (∀ m, decode m (withByte 0x6 x kk) = .instr (.ldByte x kk) ∧
      decode m (digits 0x8 x y 0x0) = .instr (.ldReg x y) ∧
      decode m (digits 0x8 x y 0x1) = .instr (.orReg x y) ∧
      decode m (digits 0x8 x y 0x2) = .instr (.andReg x y) ∧
      decode m (digits 0x8 x y 0x3) = .instr (.xorReg x y)) ∧
    ∀ s : State,
      WritesReg (.ldByte x kk) s x kk ∧ WritesReg (.ldReg x y) s x (s.reg y) ∧
      WritesReg (.orReg x y) s x (s.reg x ||| s.reg y) ∧ WritesReg (.andReg x y) s x (s.reg x &&& s.reg y) ∧
      WritesReg (.xorReg x y) s x (s.reg x ^^^ s.reg y)

/-- R151: ADD Vx kk, modulo 256, no flag. -/
def Obligations.AddByteWrapsWithoutFlag : Prop :=
  ∀ (x : Nibble) (kk : Byte), (∀ m, decode m (withByte 0x7 x kk) = .instr (.addByte x kk)) ∧
    ∀ s : State, WritesReg (.addByte x kk) s x (BitVec.ofNat 8 (((s.reg x).toNat + kk.toNat) % 256))

/-- R156, R162 (decision D12): ADD Vx Vy; VF is the carry and is written last. -/
def Obligations.AddRegistersSetsCarry : Prop :=
  ∀ (x y : Nibble), (∀ m, decode m (digits 0x8 x y 0x4) = .instr (.addReg x y)) ∧
    ∀ s : State,
      let sum := (s.reg x).toNat + (s.reg y).toNat
      WritesRegAndFlag (.addReg x y) s x (BitVec.ofNat 8 (sum % 256)) (if 255 < sum then 1 else 0)

/-- R157, R159, R162 (decisions D12, D14): SUB and SUBN; VF is NOT borrow and is written last. -/
def Obligations.SubtractionsSetNotBorrow : Prop :=
  ∀ (x y : Nibble),
    (∀ m, decode m (digits 0x8 x y 0x5) = .instr (.subReg x y) ∧
      decode m (digits 0x8 x y 0x7) = .instr (.subn x y)) ∧
    ∀ s : State,
      let a := (s.reg x).toNat
      let b := (s.reg y).toNat
      WritesRegAndFlag (.subReg x y) s x (BitVec.ofNat 8 ((a + 256 - b) % 256)) (if b ≤ a then 1 else 0) ∧
      WritesRegAndFlag (.subn x y) s x (BitVec.ofNat 8 ((b + 256 - a) % 256)) (if a ≤ b then 1 else 0)

/-- R158, R160, R162 (decisions D12, D13): the shifts take the old Vy, write Vx and Vy, and VF last. -/
def Obligations.ShiftsWriteBothRegistersAndFlag : Prop :=
  ∀ (x y : Nibble),
    (∀ m, decode m (digits 0x8 x y 0x6) = .instr (.shr x y) ∧
      decode m (digits 0x8 x y 0xE) = .instr (.shl x y)) ∧
    ∀ (s : State) (left : Bool),
      let b := (s.reg y).toNat
      let i := if left then Instr.shl x y else Instr.shr x y
      let result : Byte := BitVec.ofNat 8 (if left then b * 2 % 256 else b / 2)
      let out : Byte := BitVec.ofNat 8 (if left then b / 128 else b % 2)
      ∃ t, exec i s = .next t ∧ t.reg 0xF = out ∧ (x ≠ 0xF → t.reg x = result) ∧ (y ≠ 0xF → t.reg y = result) ∧
        (∀ k, k ≠ x → k ≠ y → k ≠ 0xF → t.reg k = s.reg k) ∧ t = { s with v := t.v, pc := s.pc + 2 } ∧ SameMemory s t

/-- R161 (decision D5; log entry 5): RND writes `rnd & kk` for whatever byte the host gives, and every value within the
mask can result. -/
def Obligations.RandomByteIsMaskedAndOtherwiseFree : Prop :=
  ∀ (x : Nibble) (kk : Byte), (∀ m, decode m (withByte 0xC x kk) = .instr (.rnd x kk)) ∧
    (∀ s : State, ∃ t, exec (.rnd x kk) s = .next t ∧ t.reg x = s.rnd &&& kk ∧ RndDrawn s t ∧
      (∀ k, k ≠ x → t.reg k = s.reg k) ∧
      t = { s with v := t.v, pc := s.pc + 2, rnds := t.rnds, draws := t.draws } ∧ SameMemory s t) ∧
    ∀ (s : State) (r : Byte), r &&& kk = r →
      ∃ b t, exec (.rnd x kk) { s with rnds := b :: s.rnds } = .next t ∧ t.reg x = r

/-! ## Display (R180 to R192) -/

/-- R187: CLS. -/
def Obligations.ClearScreenZeroesThePlane : Prop :=
  (∀ m, decode m 0x00E0 = .instr .cls) ∧
  ∀ s : State, ∃ t, exec .cls s = .next t ∧ (∀ x y, t.pixel x y = false) ∧
    Plane.shaped s.cfg.width s.cfg.height t.disp ∧ t = { s with disp := t.disp, pc := s.pc + 2 } ∧ SameMemory s t

/-- R182, R183, R185, R188 (decisions D2, D8, D26): DRW Vx Vy n on a plane of any size; when the footprint overlaps
itself the pixels count in row-major order. -/
def Obligations.DrawXorsTheSpriteWithWrap : Prop :=
  ∀ (x y n : Nibble), n ≠ 0 → (∀ m, decode m (digits 0xD x y n) = .instr (.drw x y n)) ∧
    ∀ s : State, s.cfg.wf → Plane.shaped s.cfg.width s.cfg.height s.disp →
      (0xFFF < s.i.toNat + n.toNat - 1 → exec (.drw x y n) s = .next { s with fault := some .dataOutOfRange }) ∧
      (s.i.toNat + n.toNat - 1 ≤ 0xFFF → ∃ t, exec (.drw x y n) s = .next t ∧
        DrawEffect s t x y n.toNat 8 s.spriteBit ∧ (∀ k, k ≠ 0xF → t.reg k = s.reg k) ∧
        t = { s with v := t.v, disp := t.disp, pc := s.pc + 2 } ∧ SameMemory s t)

/-- R186, R190 (decisions D2, D8, D26): the 16×16 draw, HIRES not consulted. -/
def Obligations.ExtendedDrawXorsTheWideSprite : Prop :=
  ∀ (x y : Nibble), decode .extended (digits 0xD x y 0x0) = .instr (.drwZeroExtended x y) ∧
    ∀ s : State, s.cfg.wf → Plane.shaped s.cfg.width s.cfg.height s.disp →
      (0xFFF < s.i.toNat + 31 → exec (.drwZeroExtended x y) s = .next { s with fault := some .dataOutOfRange }) ∧
      (s.i.toNat + 31 ≤ 0xFFF → ∃ t, exec (.drwZeroExtended x y) s = .next t ∧
        DrawEffect s t x y 16 16 s.wideSpriteBit ∧ (∀ k, k ≠ 0xF → t.reg k = s.reg k) ∧
        t = { s with v := t.v, disp := t.disp, pc := s.pc + 2 } ∧ SameMemory s t)

/-- R183's closed form (decisions D2, D8): where the footprint of an 8×n sprite does not overlap itself, each
destination pixel is the old one XOR its one source pixel, every other pixel is unchanged, and VF is 1 exactly when a
set source pixel met a pixel that was set before the draw. -/
def Obligations.DrawClosedFormWithoutOverlap : Prop :=
  ∀ (x y n : Nibble) (s t : State), Plane.shaped s.cfg.width s.cfg.height s.disp → n ≠ 0 → 8 ≤ s.cfg.width →
    n.toNat ≤ s.cfg.height → s.i.toNat + n.toNat - 1 ≤ 0xFFF → exec (.drw x y n) s = .next t →
    let px := fun c => ((s.reg x).toNat + c) % s.cfg.width
    let py := fun r => ((s.reg y).toNat + r) % s.cfg.height
    (∀ r c, r < n.toNat → c < 8 → t.pixel (px c) (py r) = (s.pixel (px c) (py r) ^^ s.spriteBit r c)) ∧
    (∀ a b, (∀ r c, r < n.toNat → c < 8 → ¬ (a = px c ∧ b = py r)) → t.pixel a b = s.pixel a b) ∧
    (t.reg 0xF = 1 ∨ t.reg 0xF = 0) ∧
    (t.reg 0xF = 1 ↔ ∃ r c, r < n.toNat ∧ c < 8 ∧ s.spriteBit r c = true ∧ s.pixel (px c) (py r) = true)

/-- R188, derived from R182 and R183 (decisions D2, D8, D26; log entry 19): drawing the same sprite twice at the same
place restores the plane; on a blank plane the second draw reports a collision exactly when the sprite has a set pixel.
(x and y are not F, whose register the first draw overwrites.) Where the footprint overlaps itself that clause rests on
the row-major order of D26, and reading R188's remark of a blank plane is log entry 19's. -/
def Obligations.DrawingTwiceRestoresThePlane : Prop :=
  ∀ (x y n : Nibble) (s : State), n ≠ 0 → x ≠ 0xF → y ≠ 0xF → s.cfg.wf →
    Plane.shaped s.cfg.width s.cfg.height s.disp → s.i.toNat + n.toNat - 1 ≤ 0xFFF →
    ∃ t u, exec (.drw x y n) s = .next t ∧ exec (.drw x y n) t = .next u ∧ u.disp = s.disp ∧
      ((∀ a b, s.pixel a b = false) →
        (u.reg 0xF = 1 ↔ ∃ r c, r < n.toNat ∧ c < 8 ∧ s.spriteBit r c = true))

/-- R189 (decision D11): DRW Vx Vy 0 in Classic mode always sets the latch to cause 5 and changes nothing else. -/
def Obligations.ClassicDrawOfNoRowsFaults : Prop :=
  ∀ (x y : Nibble), decode .classic (digits 0xD x y 0x0) = .instr (.drwZeroClassic x y) ∧
    ∀ s : State, exec (.drwZeroClassic x y) s = .next { s with fault := some .invalidSpriteHeight }

/-! ## Extended mode (R250 to R258) -/

/-- R250, R98 (decision D1): in Classic mode the word of every Extended-only row but Dxy0 executes as NOP. -/
def Obligations.ExtendedWordsAreNopsInClassicMode : Prop :=
  ∀ (s : State) (i : Instr), s.stepIsNext → s.cfg.mode = .classic → s.fault = none → s.pc.toNat ≤ 0xFFE →
    i.definedIn .classic = false → (∀ x y, i ≠ .drwZeroExtended x y) → s.fetchWord = encode i →
    step s = .next { s.takeEvent with pc := s.pc + 2 }

/-- R184, R251, R252 (decisions D4, D17): the vertical scrolls under both edge policies. -/
def Obligations.VerticalScrollsMoveRows : Prop :=
  ∀ (n : Nibble),
    decode .extended (withLine 0x00C n) = .instr (.scd n) ∧ decode .extended (withLine 0x00B n) = .instr (.scu n) ∧
    ∀ s : State, ∃ t u, exec (.scd n) s = .next t ∧ exec (.scu n) s = .next u ∧
      (∀ x y, x < s.cfg.width → y < s.cfg.height →
        (s.cfg.scrollEdge = .wrap →
          t.pixel x ((y + n.toNat) % s.cfg.height) = s.pixel x y ∧
          u.pixel x y = s.pixel x ((y + n.toNat) % s.cfg.height)) ∧
        (s.cfg.scrollEdge = .clear →
          t.pixel x y = (if n.toNat ≤ y then s.pixel x (y - n.toNat) else false) ∧
          u.pixel x y = (if y + n.toNat < s.cfg.height then s.pixel x (y + n.toNat) else false))) ∧
      Plane.shaped s.cfg.width s.cfg.height t.disp ∧ Plane.shaped s.cfg.width s.cfg.height u.disp ∧
      t = { s with disp := t.disp, pc := s.pc + 2 } ∧ u = { s with disp := u.disp, pc := s.pc + 2 } ∧
      SameMemory s t ∧ SameMemory s u

/-- R184, R253, R254 (decision D4; log entry 10): the horizontal scrolls by 4 columns under both edge policies. -/
def Obligations.HorizontalScrollsMoveColumns : Prop :=
  decode .extended 0x00FB = .instr .scr ∧ decode .extended 0x00FC = .instr .scl ∧
  ∀ s : State, ∃ t u, exec .scr s = .next t ∧ exec .scl s = .next u ∧
    (∀ x y, x < s.cfg.width → y < s.cfg.height →
      (s.cfg.scrollEdge = .wrap →
        t.pixel ((x + 4) % s.cfg.width) y = s.pixel x y ∧ u.pixel x y = s.pixel ((x + 4) % s.cfg.width) y) ∧
      (s.cfg.scrollEdge = .clear →
        t.pixel x y = (if 4 ≤ x then s.pixel (x - 4) y else false) ∧
        u.pixel x y = (if x + 4 < s.cfg.width then s.pixel (x + 4) y else false))) ∧
    Plane.shaped s.cfg.width s.cfg.height t.disp ∧ Plane.shaped s.cfg.width s.cfg.height u.disp ∧
    t = { s with disp := t.disp, pc := s.pc + 2 } ∧ u = { s with disp := u.disp, pc := s.pc + 2 } ∧
    SameMemory s t ∧ SameMemory s u

/-- R255, R256: LOW and HIGH write HIRES only: the plane and its size are as before, and a draw does the same whatever
HIRES holds. -/
def Obligations.ResolutionSwitchesWriteHiresOnly : Prop :=
  decode .extended 0x00FE = .instr .low ∧ decode .extended 0x00FF = .instr .high ∧
  ∀ s : State, exec .low s = .next { s with hires := .low, pc := s.pc + 2 } ∧
    exec .high s = .next { s with hires := .high, pc := s.pc + 2 } ∧
    ∀ (h : Resolution) (x y n : Nibble) (t : State),
      (exec (.drw x y n) s = .next t → exec (.drw x y n) { s with hires := h } = .next { t with hires := h }) ∧
      (exec (.drwZeroExtended x y) s = .next t →
        exec (.drwZeroExtended x y) { s with hires := h } = .next { t with hires := h })

/-- R257, R258 (decision D18): the transfers between V0..V[min(x,7)] and the flag-save bank. -/
def Obligations.FlagBankTransfersAtMostEight : Prop :=
  ∀ (x : Nibble),
    decode .extended (withByte 0xF x 0x75) = .instr (.saveFlags x) ∧
    decode .extended (withByte 0xF x 0x85) = .instr (.restoreFlags x) ∧
    ∀ s : State, ∃ t u, exec (.saveFlags x) s = .next t ∧ exec (.restoreFlags x) s = .next u ∧
      (∀ k : Nibble, k.toNat < 8 →
        t.r[k.toNat]? = if k.toNat ≤ min x.toNat 7 then some (s.reg k) else s.r[k.toNat]?) ∧
      (∀ k : Nibble, some (u.reg k) = if k.toNat ≤ min x.toNat 7 then s.r[k.toNat]? else some (s.reg k)) ∧
      t = { s with r := t.r, pc := s.pc + 2 } ∧ u = { s with v := u.v, pc := s.pc + 2 } ∧
      SameMemory s t ∧ SameMemory s u

/-! ## Keys and timers (R210 to R215) -/

/-- R210, R211 (decision D25; log entry 5): SKP and SKNP on the same answer are complements; V[x] is compared on its
full 8 bits. -/
def Obligations.KeySkipsCompareTheReportedKey : Prop :=
  ∀ (x : Nibble),
    (∀ m, decode m (withByte 0xE x 0x9E) = .instr (.skp x) ∧ decode m (withByte 0xE x 0xA1) = .instr (.sknp x)) ∧
    ∀ s : State, ∃ t u, exec (.skp x) s = .next t ∧ exec (.sknp x) s = .next u ∧ KeyQueried s t ∧ KeyQueried s u ∧
      ((∃ k, s.key = some k ∧ k.toNat = (s.reg x).toNat) → t.pc = s.pc + 4 ∧ u.pc = s.pc + 2) ∧
      ((∀ k, s.key = some k → k.toNat ≠ (s.reg x).toNat) → t.pc = s.pc + 2 ∧ u.pc = s.pc + 4) ∧
      t = { s with pc := t.pc, keys := t.keys, draws := t.draws } ∧
      u = { s with pc := u.pc, keys := u.keys, draws := u.draws } ∧ SameMemory s t ∧ SameMemory s u

/-- R213 (log entry 5): the key-wait. With no key the state is as before but for the answer used up; with key k, Vx = k
and PC + 2. -/
def Obligations.KeyWaitPollsUntilAKey : Prop :=
  ∀ (x : Nibble), (∀ m, decode m (withByte 0xF x 0x0A) = .instr (.ldKey x)) ∧
    ∀ s : State, ∃ t, exec (.ldKey x) s = .next t ∧ KeyQueried s t ∧
      (s.key = none → t = { s with keys := t.keys, draws := t.draws }) ∧
      (∀ k, s.key = some k → (t.reg x).toNat = k.toNat ∧ (∀ j, j ≠ x → t.reg j = s.reg j) ∧
        t = { s with v := t.v, pc := s.pc + 2, keys := t.keys, draws := t.draws }) ∧ SameMemory s t

/-- R212, R214: LD Vx DT and LD DT Vx. -/
def Obligations.DelayTimerIsReadAndSet : Prop :=
  ∀ (x : Nibble),
    (∀ m, decode m (withByte 0xF x 0x07) = .instr (.ldFromDt x) ∧
      decode m (withByte 0xF x 0x15) = .instr (.ldDt x)) ∧
    ∀ s : State, WritesReg (.ldFromDt x) s x s.dt ∧
      exec (.ldDt x) s = .next { s with dt := s.reg x, pc := s.pc + 2 }

/-- R215 (decision D31; log entry 7): LD ST Vx emits `sound_start` exactly when the value written is not 0, and never
`sound_stop`. -/
def Obligations.SoundTimerLoadStartsTheSound : Prop :=
  ∀ (x : Nibble), (∀ m, decode m (withByte 0xF x 0x18) = .instr (.ldSt x)) ∧
    ∀ s : State, exec (.ldSt x) s = .next { s with
      st := s.reg x, pc := s.pc + 2,
      outputs := s.outputs ++ (if s.reg x = 0 then [] else [.soundStart]) }

/-! ## Index register and memory (R230 to R236) -/

/-- R230, R231, R232 (decisions D16, D24): the writes of I; no flag, no mask. -/
def Obligations.IndexRegisterLoadsAndAdds : Prop :=
  ∀ (x : Nibble) (nnn : Addr),
    (∀ m, decode m (withAddr 0xA nnn) = .instr (.ldI nnn) ∧ decode m (withByte 0xF x 0x1E) = .instr (.addI x) ∧
      decode m (withByte 0xF x 0x29) = .instr (.ldFont x)) ∧
    ∀ s : State,
      exec (.ldI nnn) s = .next { s with i := BitVec.ofNat 16 nnn.toNat, pc := s.pc + 2 } ∧
      exec (.addI x) s =
        .next { s with i := BitVec.ofNat 16 ((s.i.toNat + (s.reg x).toNat) % 65536), pc := s.pc + 2 } ∧
      exec (.ldFont x) s = .next { s with i := BitVec.ofNat 16 (5 * (s.reg x).toNat), pc := s.pc + 2 }

/-- R233 (decision D8): LD B Vx. -/
def Obligations.BcdStoresThreeDigits : Prop :=
  ∀ (x : Nibble), (∀ m, decode m (withByte 0xF x 0x33) = .instr (.ldBcd x)) ∧
    ∀ s : State,
      let v := (s.reg x).toNat
      (0xFFF < s.i.toNat + 2 → exec (.ldBcd x) s = .next { s with fault := some .dataOutOfRange }) ∧
      (s.i.toNat + 2 ≤ 0xFFF → ∃ t, exec (.ldBcd x) s = .next t ∧
        (Memory.read t.mem s.i.toNat).toNat = v / 100 ∧ (Memory.read t.mem (s.i.toNat + 1)).toNat = v / 10 % 10 ∧
        (Memory.read t.mem (s.i.toNat + 2)).toNat = v % 10 ∧ SameMemoryOutside s.i.toNat 3 s t ∧
        t = { s with mem := t.mem, pc := s.pc + 2 })

/-- R234 (decision D8): LD [I] Vx. -/
def Obligations.BlockStoreWritesV0ToVx : Prop :=
  ∀ (x : Nibble), (∀ m, decode m (withByte 0xF x 0x55) = .instr (.storeBlock x)) ∧
    ∀ s : State,
      (0xFFF < s.i.toNat + x.toNat → exec (.storeBlock x) s = .next { s with fault := some .dataOutOfRange }) ∧
      (s.i.toNat + x.toNat ≤ 0xFFF → ∃ t, exec (.storeBlock x) s = .next t ∧
        (∀ k : Nibble, k.toNat ≤ x.toNat → Memory.read t.mem (s.i.toNat + k.toNat) = s.reg k) ∧
        SameMemoryOutside s.i.toNat (x.toNat + 1) s t ∧ t.i.toNat = (s.i.toNat + x.toNat + 1) % 65536 ∧
        t = { s with mem := t.mem, i := t.i, pc := s.pc + 2 })

/-- R235 (decision D8): LD Vx [I]. -/
def Obligations.BlockLoadReadsV0ToVx : Prop :=
  ∀ (x : Nibble), (∀ m, decode m (withByte 0xF x 0x65) = .instr (.loadBlock x)) ∧
    ∀ s : State,
      (0xFFF < s.i.toNat + x.toNat → exec (.loadBlock x) s = .next { s with fault := some .dataOutOfRange }) ∧
      (s.i.toNat + x.toNat ≤ 0xFFF → ∃ t, exec (.loadBlock x) s = .next t ∧
        (∀ k : Nibble, t.reg k =
          if k.toNat ≤ x.toNat then Memory.read s.mem (s.i.toNat + k.toNat) else s.reg k) ∧
        t.i.toNat = (s.i.toNat + x.toNat + 1) % 65536 ∧
        t = { s with v := t.v, i := t.i, pc := s.pc + 2 } ∧ SameMemory s t)

/-- R74, R338 (decisions D23, D28): a block store over the two bytes of the next instruction is what the very next step
fetches, with no fence. -/
def Obligations.StoredCodeIsFetchedByTheNextStep : Prop :=
  ∀ (s t : State) (x : Nibble) (i : Instr), 1 ≤ x.toNat → s.stepIsNext → s.fault = none → s.pc.toNat ≤ 0xFFC →
    s.i = s.pc + 2 → s.i.toNat + x.toNat ≤ 0xFFF → exec (.storeBlock x) s = .next t →
    decode s.cfg.mode (BitVec.ofNat 16 ((s.reg 0).toNat * 256 + (s.reg 1).toNat)) = .instr i →
    step t = exec i t.takeEvent

/-! ## The tick agent and the host (R286, R320 to R327) -/

/-- R286 (decision D31; log entry 7): one `Tick`. -/
def Obligations.TickCountsBothTimersDown : Prop :=
  ∀ (s : State), ∃ t, s.perform .tick = .next t ∧ t.dt.toNat = s.dt.toNat - 1 ∧ t.st.toNat = s.st.toNat - 1 ∧
    t.outputs = s.outputs ++ (if s.st = 1 then [.soundStop] else []) ++ [.frame] ∧
    t = { s with dt := t.dt, st := t.st, outputs := t.outputs } ∧ SameMemory s t

/-- R286, R287 (decisions D27, D31) and ZC8's example S7: after `n` ticks each timer is down by `n`, never below 0, and
`n` frames were emitted. In an interleaving in which ticks keep coming, a halted or faulted machine comes to have both
timers at 0; in one in which steps keep coming, a decoded instruction comes to be run, after some number of ticks. -/
def Obligations.ManyTicksStopAtZero : Prop :=
  (∀ (n : Nat) (s : State),
    (State.tickEvent^[n] s).dt.toNat = s.dt.toNat - n ∧ (State.tickEvent^[n] s).st.toNat = s.st.toNat - n ∧
    (State.tickEvent^[n] s).outputs.count .frame = s.outputs.count .frame + n ∧
    (State.tickEvent^[n] s).outputs.count .soundStop =
      s.outputs.count .soundStop + (if 0 < s.st.toNat ∧ s.st.toNat ≤ n then 1 else 0)) ∧
  (∀ (f : Nat → Agent) (s : State), KeepsComing .tick f → s.halted ∨ s.faulted →
    ∃ k t, s.Runs f k t ∧ t.dt = 0 ∧ t.st = 0) ∧
  ∀ (f : Nat → Agent) (s : State) (i : Instr), KeepsComing .step f → s.fault = none → s.pc.toNat ≤ 0xFFE →
    decode s.cfg.mode s.fetchWord = .instr i →
    ∃ m t, s.Runs f (m + 1) t ∧ exec i { State.tickEvent^[m] s with pending := [] } = .next t

/-- R320 (decision D19): `Reset`. -/
def Obligations.ResetRestoresPowerOnValues : Prop :=
  ∀ (s : State), ∃ t, s.perform .reset = .next t ∧
    (∀ k, t.reg k = 0) ∧ t.i = 0 ∧ t.dt = 0 ∧ t.st = 0 ∧ t.pc = 0x200 ∧ t.sp = 0 ∧
    (∀ k, k < 16 → t.stack[k]? = some 0) ∧ (∀ x y, t.pixel x y = false) ∧
    Plane.shaped s.cfg.width s.cfg.height t.disp ∧ t.hires = .low ∧ (∀ k, k < 8 → t.r[k]? = some 0) ∧
    t.fault = none ∧ SameMemory s t ∧ t.cfg = s.cfg ∧ t.outputs = s.outputs

/-- R324, R325 (decisions D21, D22; log entry 7): `Load`. -/
def Obligations.LoadReplacesTheProgramOnly : Prop :=
  ∀ (s : State) (bytes : List Byte),
    (3584 < bytes.length →
      s.perform (.load bytes) = .next { s with outputs := s.outputs ++ [.loadRefused] }) ∧
    (bytes.length ≤ 3584 → ∃ t, s.perform (.load bytes) = .next t ∧
      (∀ k, k < bytes.length → some (Memory.read t.mem (0x200 + k)) = bytes[k]?) ∧
      (∀ a, 0x200 + bytes.length ≤ a → a ≤ 0xFFF → Memory.read t.mem a = 0) ∧
      (∀ a, a < 0x200 → Memory.read t.mem a = Memory.read s.mem a) ∧
      t = { s with mem := t.mem, pc := 0x200 })

/-- R327 (decisions D19, D22): after `Reset` and `Load`, in either order, the next step runs the instruction the first
two bytes decode to. -/
def Obligations.LoadedProgramRunsFromItsFirstWord : Prop :=
  ∀ (s : State) (a b : Byte) (bs : List Byte) (i : Instr), s.stepIsNext → bs.length ≤ 3582 →
    decode s.cfg.mode (BitVec.ofNat 16 (a.toNat * 256 + b.toNat)) = .instr i →
    s.resetEvent.loadEvent (a :: b :: bs) = (s.loadEvent (a :: b :: bs)).resetEvent ∧
    step (s.resetEvent.loadEvent (a :: b :: bs)) = exec i (s.resetEvent.loadEvent (a :: b :: bs)).takeEvent

/-- R323, R63 (decisions D3, D20; log entries 4, 9): at power-on memory reads FONT, LOWMEM and zeros, for every font and
every low memory; the rest of the state is that of R320. -/
def Obligations.PowerOnMemoryHoldsFontLowmemZeros : Prop :=
  ∀ (c : Config) (f : Vector Byte 80) (l : Vector Byte 432),
    let s := State.powerOnWith c f l
    (∀ a, a < 0x50 → some (Memory.read s.mem a) = f[a]?) ∧
    (∀ a, 0x50 ≤ a → a < 0x200 → some (Memory.read s.mem a) = l[a - 0x50]?) ∧
    (∀ a, 0x200 ≤ a → a ≤ 0xFFF → Memory.read s.mem a = 0) ∧
    s = { State.powerOn c with mem := s.mem } ∧ (c.wf → s.Inv)

/-- R38 (decisions D3, D19, D20; log entry 9): the state right after reset. `MODE` is not among the values: it is open
(R8), and what reset takes for it is the model's choice (log entry 2). -/
def Obligations.ResetStateHasTheSpecifiedValues : Prop :=
  let s := State.reset
  (∀ k, s.reg k = 0) ∧ s.i = 0 ∧ s.dt = 0 ∧ s.st = 0 ∧ s.pc = 0x200 ∧ s.sp = 0 ∧
  (∀ k, k < 16 → s.stack[k]? = some 0) ∧ (∀ x y, s.pixel x y = false) ∧ s.hires = .low ∧
  (∀ k, k < 8 → s.r[k]? = some 0) ∧ s.fault = none ∧ s.faultCode = 0 ∧
  (∀ a, a < 0x50 → some (Memory.read s.mem a) = font[a]?) ∧
  (∀ a, 0x200 ≤ a → a ≤ 0xFFF → Memory.read s.mem a = 0)

/-! ## Whole-machine rules (R2, R21, R28, R39) -/

/-- R33, R60, R192 (decision D2): every step keeps memory canonical and inside the 4096 addresses, and the plane of its
size. -/
def Obligations.EveryStepKeepsMemoryAndPlaneWellFormed : Prop :=
  ∀ (s t : State), s.Inv → step s = .next t → t.Inv

/-- The same at reset. -/
def Obligations.ResetMemoryAndPlaneAreWellFormed : Prop := State.reset.Inv

/-- R39, R64: only LD B and LD [I] Vx write memory. -/
def Obligations.OnlyBcdAndBlockStoreWriteMemory : Prop :=
  ∀ (i : Instr) (s t : State), exec i s = .next t → (∀ x, i ≠ .ldBcd x) → (∀ x, i ≠ .storeBlock x) →
    SameMemory s t ∧ t.mem = s.mem

/-- R21, R39, R258 (decisions D12, D13, D18; log entry 18): which registers an instruction can write. V[k] changes only
as the x field of an instruction that writes Vx, as the y field of a shift, within a block load, within a restore at k ≤
7 (D18), or as VF of the six flag-writing instructions. -/
def Obligations.RegistersWrittenOnlyAsDestinations : Prop :=
  ∀ (i : Instr) (s t : State) (k : Nibble), exec i s = .next t → t.reg k ≠ s.reg k →
    (∃ kk, i = .ldByte k kk ∨ i = .addByte k kk ∨ i = .rnd k kk) ∨
    (∃ y, i = .ldReg k y ∨ i = .orReg k y ∨ i = .andReg k y ∨ i = .xorReg k y) ∨
    i = .ldFromDt k ∨ i = .ldKey k ∨
    (∃ x, k.toNat ≤ x.toNat ∧ (i = .loadBlock x ∨ (k.toNat ≤ 7 ∧ i = .restoreFlags x))) ∨
    (∃ x y, (k = x ∨ k = 0xF) ∧ (i = .addReg x y ∨ i = .subReg x y ∨ i = .subn x y)) ∨
    (∃ x y, (k = x ∨ k = y ∨ k = 0xF) ∧ (i = .shr x y ∨ i = .shl x y)) ∨
    (k = 0xF ∧ ∃ x y, i = .drwZeroExtended x y ∨ ∃ n, i = .drw x y n)

/-- R28, R29, R31, R39 (decisions D7, D9, D10): SP is written only by CALL and RET and the stack only by CALL; an
instruction leaves the latch as it is, or sets it to a cause and changes nothing else. -/
def Obligations.StackWrittenOnlyByCallAndReturn : Prop :=
  ∀ (i : Instr) (s t : State), exec i s = .next t →
    (i ≠ .ret → (∀ a, i ≠ .call a) → t.sp = s.sp) ∧ ((∀ a, i ≠ .call a) → t.stack = s.stack) ∧
    (t.fault = s.fault ∨ ∃ c, t = { s with fault := some c })

/-- R25, R26, R27, R30, R32, R33, R36, R39: the writers of I, DT, ST, HIRES, the bank, the plane and the outputs. -/
def Obligations.SpecialStateHasOnlyItsWriters : Prop :=
  ∀ (i : Instr) (s t : State), exec i s = .next t →
    (t.i ≠ s.i → (∃ a, i = .ldI a) ∨ ∃ x, i = .addI x ∨ i = .ldFont x ∨ i = .storeBlock x ∨ i = .loadBlock x) ∧
    (t.dt ≠ s.dt → ∃ x, i = .ldDt x) ∧
    (t.st ≠ s.st ∨ t.outputs ≠ s.outputs → ∃ x, i = .ldSt x) ∧
    (t.hires ≠ s.hires → i = .low ∨ i = .high) ∧
    (t.r ≠ s.r → ∃ x, i = .saveFlags x) ∧
    (t.disp ≠ s.disp → i = .cls ∨ i = .scr ∨ i = .scl ∨ (∃ n, i = .scd n ∨ i = .scu n) ∨
      ∃ x y, i = .drwZeroExtended x y ∨ ∃ n, i = .drw x y n)

/-- R12, R37, R120: `key` is consulted only by SKP, SKNP and LD Vx K, `rnd` only by RND. With other inputs every other
instruction does the same and leaves the inputs as they are. -/
def Obligations.InputsAreReadOnlyByTheirInstructions : Prop :=
  ∀ (i : Instr) (s t : State) (ks : List (Option Nibble)) (rs : List Byte) (d : Nat), exec i s = .next t →
    (∀ x, i ≠ .skp x ∧ i ≠ .sknp x ∧ i ≠ .ldKey x) → (∀ x kk, i ≠ .rnd x kk) →
    exec i { s with keys := ks, rnds := rs, draws := d } = .next { t with keys := ks, rnds := rs, draws := d }

/-- R27, R30, R36: HIRES, ST and the outputs are read by no instruction. With other values of them every instruction but
LOW, HIGH and LD ST Vx does the same and leaves them as they are. -/
def Obligations.HiresSoundTimerAndOutputsAreReadByNoInstruction : Prop :=
  ∀ (i : Instr) (s t : State) (h : Resolution) (b : Byte) (o : List Output), exec i s = .next t →
    i ≠ .low → i ≠ .high → (∀ x, i ≠ .ldSt x) →
    exec i { s with hires := h, st := b, outputs := o } = .next { t with hires := h, st := b, outputs := o }
end

