-- ==== Sys2Proof/Laws/Decode.lean ====
section
/-! SUPPORT. The fields of a word written digit by digit, and the word put together again from its fields. -/

namespace Sys2Proof

/-! ## The bits of the formats of R92 -/

theorem getLsbD_digits (a b c d : Nibble) (j : Nat) :
    (digits a b c d).getLsbD j = if j < 4 then d.getLsbD j else if j - 4 < 4 then c.getLsbD (j - 4)
      else if j - 4 - 4 < 4 then b.getLsbD (j - 4 - 4) else a.getLsbD (j - 4 - 4 - 4) := by
  refine (BitVec.getLsbD_append (x := a ++ b ++ c) (y := d) (i := j)).trans ?_
  rw [BitVec.getLsbD_append, BitVec.getLsbD_append]

theorem getLsbD_withByte (h x : Nibble) (kk : Byte) (j : Nat) :
    (withByte h x kk).getLsbD j = if j < 8 then kk.getLsbD j else if j - 8 < 4 then x.getLsbD (j - 8)
      else h.getLsbD (j - 8 - 4) := by
  refine (BitVec.getLsbD_append (x := h ++ x) (y := kk) (i := j)).trans ?_
  rw [BitVec.getLsbD_append]

theorem getLsbD_withAddr (h : Nibble) (nnn : Addr) (j : Nat) :
    (withAddr h nnn).getLsbD j = if j < 12 then nnn.getLsbD j else h.getLsbD (j - 12) :=
  BitVec.getLsbD_append (x := h) (y := nnn) (i := j)

theorem getLsbD_withLine (p : BitVec 12) (n : Nibble) (j : Nat) :
    (withLine p n).getLsbD j = if j < 4 then n.getLsbD j else p.getLsbD (j - 4) :=
  BitVec.getLsbD_append (x := p) (y := n) (i := j)

/-! ## The fields of the formats of R92 -/

@[simp] theorem fieldH_digits (a b c d : Nibble) : fieldH (digits a b c d) = a := by
  apply BitVec.eq_of_getLsbD_eq; intro i hi
  rw [fieldH, BitVec.getLsbD_extractLsb', getLsbD_digits]
  simp only [hi, decide_true, Bool.true_and]
  rw [if_neg (by omega), if_neg (by omega), if_neg (by omega)]
  congr 1; omega

@[simp] theorem fieldX_digits (a b c d : Nibble) : fieldX (digits a b c d) = b := by
  apply BitVec.eq_of_getLsbD_eq; intro i hi
  rw [fieldX, BitVec.getLsbD_extractLsb', getLsbD_digits]
  simp only [hi, decide_true, Bool.true_and]
  rw [if_neg (by omega), if_neg (by omega), if_pos (by omega)]
  congr 1; omega

@[simp] theorem fieldY_digits (a b c d : Nibble) : fieldY (digits a b c d) = c := by
  apply BitVec.eq_of_getLsbD_eq; intro i hi
  rw [fieldY, BitVec.getLsbD_extractLsb', getLsbD_digits]
  simp only [hi, decide_true, Bool.true_and]
  rw [if_neg (by omega), if_pos (by omega)]
  congr 1; omega

@[simp] theorem fieldN_digits (a b c d : Nibble) : fieldN (digits a b c d) = d := by
  apply BitVec.eq_of_getLsbD_eq; intro i hi
  rw [fieldN, BitVec.getLsbD_extractLsb', getLsbD_digits]
  simp only [hi, decide_true, Bool.true_and]
  rw [if_pos (by omega)]
  congr 1; omega

@[simp] theorem fieldH_withByte (h x : Nibble) (kk : Byte) : fieldH (withByte h x kk) = h := by
  apply BitVec.eq_of_getLsbD_eq; intro i hi
  rw [fieldH, BitVec.getLsbD_extractLsb', getLsbD_withByte]
  simp only [hi, decide_true, Bool.true_and]
  rw [if_neg (by omega), if_neg (by omega)]
  congr 1; omega

@[simp] theorem fieldX_withByte (h x : Nibble) (kk : Byte) : fieldX (withByte h x kk) = x := by
  apply BitVec.eq_of_getLsbD_eq; intro i hi
  rw [fieldX, BitVec.getLsbD_extractLsb', getLsbD_withByte]
  simp only [hi, decide_true, Bool.true_and]
  rw [if_neg (by omega), if_pos (by omega)]
  congr 1; omega

@[simp] theorem fieldKK_withByte (h x : Nibble) (kk : Byte) : fieldKK (withByte h x kk) = kk := by
  apply BitVec.eq_of_getLsbD_eq; intro i hi
  rw [fieldKK, BitVec.getLsbD_extractLsb', getLsbD_withByte]
  simp only [hi, decide_true, Bool.true_and]
  rw [if_pos (by omega)]
  congr 1; omega

@[simp] theorem fieldH_withAddr (h : Nibble) (nnn : Addr) : fieldH (withAddr h nnn) = h := by
  apply BitVec.eq_of_getLsbD_eq; intro i hi
  rw [fieldH, BitVec.getLsbD_extractLsb', getLsbD_withAddr]
  simp only [hi, decide_true, Bool.true_and]
  rw [if_neg (by omega)]
  congr 1; omega

@[simp] theorem fieldNNN_withAddr (h : Nibble) (nnn : Addr) : fieldNNN (withAddr h nnn) = nnn := by
  apply BitVec.eq_of_getLsbD_eq; intro i hi
  rw [fieldNNN, BitVec.getLsbD_extractLsb', getLsbD_withAddr]
  simp only [hi, decide_true, Bool.true_and]
  rw [if_pos (by omega)]
  congr 1; omega

@[simp] theorem fieldN_withLine (p : BitVec 12) (n : Nibble) : fieldN (withLine p n) = n := by
  apply BitVec.eq_of_getLsbD_eq; intro i hi
  rw [fieldN, BitVec.getLsbD_extractLsb', getLsbD_withLine]
  simp only [hi, decide_true, Bool.true_and]
  rw [if_pos (by omega)]
  congr 1; omega

@[simp] theorem prefix_withLine (p : BitVec 12) (n : Nibble) : (withLine p n).extractLsb' 4 12 = p := by
  apply BitVec.eq_of_getLsbD_eq; intro i hi
  rw [BitVec.getLsbD_extractLsb', getLsbD_withLine]
  simp only [hi, decide_true, Bool.true_and]
  rw [if_neg (by omega)]
  congr 1; omega

/-! ## A word is the word of its fields -/

theorem digits_of_fields (w : Word) : digits (fieldH w) (fieldX w) (fieldY w) (fieldN w) = w := by
  apply BitVec.eq_of_getLsbD_eq; intro i hi
  simp only [getLsbD_digits, fieldH, fieldX, fieldY, fieldN, BitVec.getLsbD_extractLsb']
  split
  · simp [*]
  · split
    · next h1 h2 => simp [h2, show 4 + (i - 4) = i by omega]
    · split
      · next h1 h2 h3 => simp [h3, show 8 + (i - 4 - 4) = i by omega]
      · next h1 h2 h3 =>
        simp [show i - 4 - 4 - 4 < 4 by omega, show 12 + (i - 4 - 4 - 4) = i by omega]

theorem withByte_of_fields (w : Word) : withByte (fieldH w) (fieldX w) (fieldKK w) = w := by
  apply BitVec.eq_of_getLsbD_eq; intro i hi
  simp only [getLsbD_withByte, fieldH, fieldX, fieldKK, BitVec.getLsbD_extractLsb']
  split
  · simp [*]
  · split
    · next h1 h2 => simp [h2, show 8 + (i - 8) = i by omega]
    · next h1 h2 => simp [show i - 8 - 4 < 4 by omega, show 12 + (i - 8 - 4) = i by omega]

theorem withAddr_of_fields (w : Word) : withAddr (fieldH w) (fieldNNN w) = w := by
  apply BitVec.eq_of_getLsbD_eq; intro i hi
  simp only [getLsbD_withAddr, fieldH, fieldNNN, BitVec.getLsbD_extractLsb']
  split
  · simp [*]
  · next h1 => simp [show i - 12 < 4 by omega, show 12 + (i - 12) = i by omega]

theorem withLine_of_fields (w : Word) : withLine (w.extractLsb' 4 12) (fieldN w) = w := by
  apply BitVec.eq_of_getLsbD_eq; intro i hi
  simp only [getLsbD_withLine, fieldN, BitVec.getLsbD_extractLsb']
  split
  · simp [*]
  · next h1 => simp [show i - 4 < 12 by omega, show 4 + (i - 4) = i by omega]

/-! ## Fields as the digits of the word's number -/

theorem fieldH_toNat (w : Word) : (fieldH w).toNat = w.toNat / 0x1000 := by
  have := w.isLt
  simp only [fieldH, BitVec.extractLsb'_toNat, Nat.shiftRight_eq_div_pow]; omega

theorem fieldKK_toNat (w : Word) : (fieldKK w).toNat = w.toNat % 0x100 := by
  simp only [fieldKK, BitVec.extractLsb'_toNat, Nat.shiftRight_eq_div_pow]; omega

theorem fieldN_toNat (w : Word) : (fieldN w).toNat = w.toNat % 0x10 := by
  simp only [fieldN, BitVec.extractLsb'_toNat, Nat.shiftRight_eq_div_pow]; omega

theorem prefix_toNat (w : Word) : (w.extractLsb' 4 12).toNat = w.toNat / 0x10 := by
  have := w.isLt
  simp only [BitVec.extractLsb'_toNat, Nat.shiftRight_eq_div_pow]; omega

/-! ## Bytes and words (R65) -/

theorem wordOfBytes_toNat (hi lo : Byte) : (wordOfBytes hi lo).toNat = hi.toNat * 256 + lo.toNat := by
  have := lo.isLt
  simp only [wordOfBytes, BitVec.toNat_append]
  rw [← Nat.shiftLeft_add_eq_or_of_lt this, Nat.shiftLeft_eq]

theorem wordOfBytes_eq (hi lo : Byte) : wordOfBytes hi lo = BitVec.ofNat 16 (hi.toNat * 256 + lo.toNat) := by
  apply BitVec.eq_of_toNat_eq
  have := hi.isLt
  have := lo.isLt
  rw [wordOfBytes_toNat, BitVec.toNat_ofNat, Nat.mod_eq_of_lt (by omega)]

@[simp] theorem wordOfBytes_bytesOfWord (w : Word) : wordOfBytes (bytesOfWord w).1 (bytesOfWord w).2 = w := by
  apply BitVec.eq_of_getLsbD_eq; intro i hi
  simp only [wordOfBytes, bytesOfWord, BitVec.getLsbD_append, BitVec.getLsbD_extractLsb']
  split
  · simp [*]
  · next h1 => simp [show i - 8 < 8 by omega, show 8 + (i - 8) = i by omega]

/-! ## What each part of the decoder answers -/

/-- A statement about the class digit, digit by digit. -/
theorem class_cases (P : Nibble → Prop) (h : P 0 ∧ P 1 ∧ P 2 ∧ P 3 ∧ P 4 ∧ P 5 ∧ P 6 ∧ P 7 ∧ P 8 ∧ P 9 ∧ P 10 ∧ P 11 ∧
    P 12 ∧ P 13 ∧ P 14 ∧ P 15) : ∀ n, P n := by
  intro n
  have : ∀ n : Nibble, n = 0 ∨ n = 1 ∨ n = 2 ∨ n = 3 ∨ n = 4 ∨ n = 5 ∨ n = 6 ∨ n = 7 ∨ n = 8 ∨ n = 9 ∨ n = 10 ∨
      n = 11 ∨ n = 12 ∨ n = 13 ∨ n = 14 ∨ n = 15 := by decide
  rcases this n with h | h | h | h | h | h | h | h | h | h | h | h | h | h | h | h <;> subst h <;> tauto

/-- The two rows of format N. -/
theorem decode_withLine (m : Mode) (n : Nibble) : decode m (withLine 0x00C n) = extRow m (.scd n) ∧
    decode m (withLine scuPrefix n) = extRow m (.scu n) := by
  have : ∀ n : Nibble, ∀ m ∈ [Mode.classic, .extended], decode m (withLine 0x00C n) = extRow m (.scd n) ∧
      decode m (withLine scuPrefix n) = extRow m (.scu n) := by decide
  exact this n m (by cases m <;> simp)

/-- Whatever instruction `d` is, it is well formed, defined in the mode, and its word is `w`. -/
def DecodesAs (m : Mode) (d : Decoded) (w : Word) : Prop :=
  ∀ i, d = .instr i → i.wellFormed = true ∧ i.definedIn m = true ∧ encode i = w

theorem DecodesAs.instr {m : Mode} {w : Word} {i : Instr} (h1 : i.wellFormed = true) (h2 : i.definedIn m = true)
    (h3 : encode i = w) : DecodesAs m (.instr i) w := fun _ h => by cases h; exact ⟨h1, h2, h3⟩

theorem DecodesAs.nop {m : Mode} {w : Word} {u : Undefined} : DecodesAs m (.nop u) w := fun _ h => by cases h

theorem DecodesAs.ext {m : Mode} {w : Word} {i : Instr} (h1 : i.wellFormed = true)
    (h2 : i.definedIn .extended = true) (h3 : encode i = w) : DecodesAs m (extRow m i) w := by
  cases m
  · exact .nop
  · exact .instr h1 h2 h3

theorem DecodesAs.ite {m : Mode} {w : Word} {p : Prop} {d e : Decoded} [Decidable p] (h1 : p → DecodesAs m d w)
    (h2 : ¬ p → DecodesAs m e w) : DecodesAs m (if p then d else e) w := by
  split
  · exact h1 ‹_›
  · exact h2 ‹_›

theorem decode0_as (m : Mode) (w : Word) : DecodesAs m (decode0 m w) w := by
  unfold decode0
  iterate 3 refine .ite (fun e => .instr rfl rfl e.symm) fun _ => ?_
  iterate 4 refine .ite (fun e => .ext rfl rfl e.symm) fun _ => ?_
  iterate 2 refine .ite (fun e => .ext rfl rfl (by rw [encode, ← e, withLine_of_fields])) fun _ => ?_
  exact .nop

theorem decode8_as (m : Mode) (x y n : Nibble) : DecodesAs m (decode8 x y n) (digits 0x8 x y n) := by
  unfold decode8
  iterate 9 refine .ite (fun e => .instr rfl rfl (by rw [e]; rfl)) fun _ => ?_
  exact .nop

theorem decodeD_as (m : Mode) (x y n : Nibble) : DecodesAs m (decodeD m x y n) (digits 0xD x y n) := by
  unfold decodeD
  refine .ite (fun e => ?_) fun e => ?_
  · cases m <;> exact .instr rfl rfl (by rw [e]; rfl)
  · exact .instr (by simpa [Instr.wellFormed] using e) rfl rfl

theorem decodeE_as (m : Mode) (x : Nibble) (kk : Byte) : DecodesAs m (decodeE x kk) (withByte 0xE x kk) := by
  unfold decodeE
  iterate 2 refine .ite (fun e => .instr rfl rfl (by rw [e]; rfl)) fun _ => ?_
  exact .nop

theorem decodeF_as (m : Mode) (x : Nibble) (kk : Byte) : DecodesAs m (decodeF m x kk) (withByte 0xF x kk) := by
  unfold decodeF
  iterate 9 refine .ite (fun e => .instr rfl rfl (by rw [e]; rfl)) fun _ => ?_
  iterate 2 refine .ite (fun e => .ext rfl rfl (by rw [e]; rfl)) fun _ => ?_
  exact .nop

/-! ## The undefined patterns of each class (R97) -/

/-- `d` is an undefined pattern. -/
def IsNop (d : Decoded) : Prop := ∃ u, d = .nop u

@[simp] theorem isNop_instr (i : Instr) : ¬ IsNop (.instr i) := by rintro ⟨u, h⟩; cases h

@[simp] theorem isNop_nop (u : Undefined) : IsNop (.nop u) := ⟨u, rfl⟩

@[simp] theorem isNop_extRow (m : Mode) (i : Instr) : IsNop (extRow m i) ↔ m = .classic := by cases m <;> simp [extRow]

theorem isNop_ite (p : Prop) [Decidable p] (d e : Decoded) :
    IsNop (if p then d else e) ↔ (p ∧ IsNop d) ∨ (¬ p ∧ IsNop e) := by split <;> simp_all

theorem isNop_decode0 (m : Mode) (w : Word) : IsNop (decode0 m w) ↔ w.toNat ∉ [0x0000, 0x00E0, 0x00EE] ∧
    (m = .classic ∨ (w.toNat ∉ [0xFB, 0xFC, 0xFE, 0xFF] ∧ w.toNat / 0x10 ∉ [0xB, 0xC])) := by
  have hp := prefix_toNat w
  have e : ∀ a b : Word, a = b ↔ a.toNat = b.toNat := fun a b => BitVec.toNat_inj.symm
  have e' : ∀ a b : BitVec 12, a = b ↔ a.toNat = b.toNat := fun a b => BitVec.toNat_inj.symm
  simp only [decode0, isNop_ite, isNop_instr, isNop_nop, isNop_extRow, scuPrefix, e, e', hp]
  simp only [List.mem_cons, List.not_mem_nil, or_false, not_or]
  cases m <;> simp <;> omega

theorem isNop_decode8 (x y n : Nibble) : IsNop (decode8 x y n) ↔ n.toNat ∈ [0x8, 0x9, 0xA, 0xB, 0xC, 0xD, 0xF] := by
  simp only [decode8, isNop_ite, isNop_instr, isNop_nop, and_false, false_or]
  revert n; decide

theorem not_isNop_decodeD (m : Mode) (x y n : Nibble) : ¬ IsNop (decodeD m x y n) := by
  simp only [decodeD, isNop_ite, isNop_instr]
  cases m <;> simp

theorem isNop_decodeE (x : Nibble) (kk : Byte) : IsNop (decodeE x kk) ↔ kk.toNat ∉ [0x9E, 0xA1] := by
  simp only [decodeE, isNop_ite, isNop_instr, isNop_nop, and_false, false_or]
  revert kk; decide

theorem isNop_decodeF (m : Mode) (x : Nibble) (kk : Byte) : IsNop (decodeF m x kk) ↔
    kk.toNat ∉ [0x07, 0x0A, 0x15, 0x18, 0x1E, 0x29, 0x33, 0x55, 0x65] ∧ (m = .classic ∨ kk.toNat ∉ [0x75, 0x85]) := by
  simp only [decodeF, isNop_ite, isNop_instr, isNop_nop, isNop_extRow, and_false, false_or]
  revert kk
  cases m <;> simp only [reduceCtorEq, true_or, false_or, and_true, and_false] <;> decide

end Sys2Proof
end

