-- ==== Sys2Proof/Laws/State.lean ====
section
/-! SUPPORT. One lemma per field per update, each true by `rfl`: no later proof unfolds a record update. -/

namespace Sys2Proof.Machine

section setReg
variable (s : State) (x : Nibble) (b : Byte)
@[simp] theorem State.setReg_cfg : (s.setReg x b).cfg = s.cfg := rfl
@[simp] theorem State.setReg_v : (s.setReg x b).v = s.v.set x.toNat b x.isLt := rfl
@[simp] theorem State.setReg_i : (s.setReg x b).i = s.i := rfl
@[simp] theorem State.setReg_pc : (s.setReg x b).pc = s.pc := rfl
@[simp] theorem State.setReg_dt : (s.setReg x b).dt = s.dt := rfl
@[simp] theorem State.setReg_st : (s.setReg x b).st = s.st := rfl
@[simp] theorem State.setReg_sp : (s.setReg x b).sp = s.sp := rfl
@[simp] theorem State.setReg_stack : (s.setReg x b).stack = s.stack := rfl
@[simp] theorem State.setReg_hires : (s.setReg x b).hires = s.hires := rfl
@[simp] theorem State.setReg_fault : (s.setReg x b).fault = s.fault := rfl
@[simp] theorem State.setReg_r : (s.setReg x b).r = s.r := rfl
@[simp] theorem State.setReg_disp : (s.setReg x b).disp = s.disp := rfl
@[simp] theorem State.setReg_mem : (s.setReg x b).mem = s.mem := rfl
@[simp] theorem State.setReg_pending : (s.setReg x b).pending = s.pending := rfl
@[simp] theorem State.setReg_turns : (s.setReg x b).turns = s.turns := rfl
@[simp] theorem State.setReg_keys : (s.setReg x b).keys = s.keys := rfl
@[simp] theorem State.setReg_rnds : (s.setReg x b).rnds = s.rnds := rfl
@[simp] theorem State.setReg_draws : (s.setReg x b).draws = s.draws := rfl
@[simp] theorem State.setReg_outputs : (s.setReg x b).outputs = s.outputs := rfl
end setReg

section setV
variable (s : State) (w : Vector Byte 16)
@[simp] theorem State.setV_cfg : (s.setV w).cfg = s.cfg := rfl
@[simp] theorem State.setV_v : (s.setV w).v = w := rfl
@[simp] theorem State.setV_i : (s.setV w).i = s.i := rfl
@[simp] theorem State.setV_pc : (s.setV w).pc = s.pc := rfl
@[simp] theorem State.setV_dt : (s.setV w).dt = s.dt := rfl
@[simp] theorem State.setV_st : (s.setV w).st = s.st := rfl
@[simp] theorem State.setV_sp : (s.setV w).sp = s.sp := rfl
@[simp] theorem State.setV_stack : (s.setV w).stack = s.stack := rfl
@[simp] theorem State.setV_hires : (s.setV w).hires = s.hires := rfl
@[simp] theorem State.setV_fault : (s.setV w).fault = s.fault := rfl
@[simp] theorem State.setV_r : (s.setV w).r = s.r := rfl
@[simp] theorem State.setV_disp : (s.setV w).disp = s.disp := rfl
@[simp] theorem State.setV_mem : (s.setV w).mem = s.mem := rfl
@[simp] theorem State.setV_pending : (s.setV w).pending = s.pending := rfl
@[simp] theorem State.setV_turns : (s.setV w).turns = s.turns := rfl
@[simp] theorem State.setV_keys : (s.setV w).keys = s.keys := rfl
@[simp] theorem State.setV_rnds : (s.setV w).rnds = s.rnds := rfl
@[simp] theorem State.setV_draws : (s.setV w).draws = s.draws := rfl
@[simp] theorem State.setV_outputs : (s.setV w).outputs = s.outputs := rfl
end setV

section setVF
variable (s : State) (f : Byte)
@[simp] theorem State.setVF_cfg : (s.setVF f).cfg = s.cfg := rfl
@[simp] theorem State.setVF_v : (s.setVF f).v = s.v.set 15 f (by decide) := rfl
@[simp] theorem State.setVF_i : (s.setVF f).i = s.i := rfl
@[simp] theorem State.setVF_pc : (s.setVF f).pc = s.pc := rfl
@[simp] theorem State.setVF_dt : (s.setVF f).dt = s.dt := rfl
@[simp] theorem State.setVF_st : (s.setVF f).st = s.st := rfl
@[simp] theorem State.setVF_sp : (s.setVF f).sp = s.sp := rfl
@[simp] theorem State.setVF_stack : (s.setVF f).stack = s.stack := rfl
@[simp] theorem State.setVF_hires : (s.setVF f).hires = s.hires := rfl
@[simp] theorem State.setVF_fault : (s.setVF f).fault = s.fault := rfl
@[simp] theorem State.setVF_r : (s.setVF f).r = s.r := rfl
@[simp] theorem State.setVF_disp : (s.setVF f).disp = s.disp := rfl
@[simp] theorem State.setVF_mem : (s.setVF f).mem = s.mem := rfl
@[simp] theorem State.setVF_pending : (s.setVF f).pending = s.pending := rfl
@[simp] theorem State.setVF_turns : (s.setVF f).turns = s.turns := rfl
@[simp] theorem State.setVF_keys : (s.setVF f).keys = s.keys := rfl
@[simp] theorem State.setVF_rnds : (s.setVF f).rnds = s.rnds := rfl
@[simp] theorem State.setVF_draws : (s.setVF f).draws = s.draws := rfl
@[simp] theorem State.setVF_outputs : (s.setVF f).outputs = s.outputs := rfl
end setVF

section setI
variable (s : State) (w : Word)
@[simp] theorem State.setI_cfg : (s.setI w).cfg = s.cfg := rfl
@[simp] theorem State.setI_v : (s.setI w).v = s.v := rfl
@[simp] theorem State.setI_i : (s.setI w).i = w := rfl
@[simp] theorem State.setI_pc : (s.setI w).pc = s.pc := rfl
@[simp] theorem State.setI_dt : (s.setI w).dt = s.dt := rfl
@[simp] theorem State.setI_st : (s.setI w).st = s.st := rfl
@[simp] theorem State.setI_sp : (s.setI w).sp = s.sp := rfl
@[simp] theorem State.setI_stack : (s.setI w).stack = s.stack := rfl
@[simp] theorem State.setI_hires : (s.setI w).hires = s.hires := rfl
@[simp] theorem State.setI_fault : (s.setI w).fault = s.fault := rfl
@[simp] theorem State.setI_r : (s.setI w).r = s.r := rfl
@[simp] theorem State.setI_disp : (s.setI w).disp = s.disp := rfl
@[simp] theorem State.setI_mem : (s.setI w).mem = s.mem := rfl
@[simp] theorem State.setI_pending : (s.setI w).pending = s.pending := rfl
@[simp] theorem State.setI_turns : (s.setI w).turns = s.turns := rfl
@[simp] theorem State.setI_keys : (s.setI w).keys = s.keys := rfl
@[simp] theorem State.setI_rnds : (s.setI w).rnds = s.rnds := rfl
@[simp] theorem State.setI_draws : (s.setI w).draws = s.draws := rfl
@[simp] theorem State.setI_outputs : (s.setI w).outputs = s.outputs := rfl
end setI

section setPc
variable (s : State) (w : Word)
@[simp] theorem State.setPc_cfg : (s.setPc w).cfg = s.cfg := rfl
@[simp] theorem State.setPc_v : (s.setPc w).v = s.v := rfl
@[simp] theorem State.setPc_i : (s.setPc w).i = s.i := rfl
@[simp] theorem State.setPc_pc : (s.setPc w).pc = w := rfl
@[simp] theorem State.setPc_dt : (s.setPc w).dt = s.dt := rfl
@[simp] theorem State.setPc_st : (s.setPc w).st = s.st := rfl
@[simp] theorem State.setPc_sp : (s.setPc w).sp = s.sp := rfl
@[simp] theorem State.setPc_stack : (s.setPc w).stack = s.stack := rfl
@[simp] theorem State.setPc_hires : (s.setPc w).hires = s.hires := rfl
@[simp] theorem State.setPc_fault : (s.setPc w).fault = s.fault := rfl
@[simp] theorem State.setPc_r : (s.setPc w).r = s.r := rfl
@[simp] theorem State.setPc_disp : (s.setPc w).disp = s.disp := rfl
@[simp] theorem State.setPc_mem : (s.setPc w).mem = s.mem := rfl
@[simp] theorem State.setPc_pending : (s.setPc w).pending = s.pending := rfl
@[simp] theorem State.setPc_turns : (s.setPc w).turns = s.turns := rfl
@[simp] theorem State.setPc_keys : (s.setPc w).keys = s.keys := rfl
@[simp] theorem State.setPc_rnds : (s.setPc w).rnds = s.rnds := rfl
@[simp] theorem State.setPc_draws : (s.setPc w).draws = s.draws := rfl
@[simp] theorem State.setPc_outputs : (s.setPc w).outputs = s.outputs := rfl
end setPc

section setDt
variable (s : State) (b : Byte)
@[simp] theorem State.setDt_cfg : (s.setDt b).cfg = s.cfg := rfl
@[simp] theorem State.setDt_v : (s.setDt b).v = s.v := rfl
@[simp] theorem State.setDt_i : (s.setDt b).i = s.i := rfl
@[simp] theorem State.setDt_pc : (s.setDt b).pc = s.pc := rfl
@[simp] theorem State.setDt_dt : (s.setDt b).dt = b := rfl
@[simp] theorem State.setDt_st : (s.setDt b).st = s.st := rfl
@[simp] theorem State.setDt_sp : (s.setDt b).sp = s.sp := rfl
@[simp] theorem State.setDt_stack : (s.setDt b).stack = s.stack := rfl
@[simp] theorem State.setDt_hires : (s.setDt b).hires = s.hires := rfl
@[simp] theorem State.setDt_fault : (s.setDt b).fault = s.fault := rfl
@[simp] theorem State.setDt_r : (s.setDt b).r = s.r := rfl
@[simp] theorem State.setDt_disp : (s.setDt b).disp = s.disp := rfl
@[simp] theorem State.setDt_mem : (s.setDt b).mem = s.mem := rfl
@[simp] theorem State.setDt_pending : (s.setDt b).pending = s.pending := rfl
@[simp] theorem State.setDt_turns : (s.setDt b).turns = s.turns := rfl
@[simp] theorem State.setDt_keys : (s.setDt b).keys = s.keys := rfl
@[simp] theorem State.setDt_rnds : (s.setDt b).rnds = s.rnds := rfl
@[simp] theorem State.setDt_draws : (s.setDt b).draws = s.draws := rfl
@[simp] theorem State.setDt_outputs : (s.setDt b).outputs = s.outputs := rfl
end setDt

section setSt
variable (s : State) (b : Byte)
@[simp] theorem State.setSt_cfg : (s.setSt b).cfg = s.cfg := rfl
@[simp] theorem State.setSt_v : (s.setSt b).v = s.v := rfl
@[simp] theorem State.setSt_i : (s.setSt b).i = s.i := rfl
@[simp] theorem State.setSt_pc : (s.setSt b).pc = s.pc := rfl
@[simp] theorem State.setSt_dt : (s.setSt b).dt = s.dt := rfl
@[simp] theorem State.setSt_st : (s.setSt b).st = b := rfl
@[simp] theorem State.setSt_sp : (s.setSt b).sp = s.sp := rfl
@[simp] theorem State.setSt_stack : (s.setSt b).stack = s.stack := rfl
@[simp] theorem State.setSt_hires : (s.setSt b).hires = s.hires := rfl
@[simp] theorem State.setSt_fault : (s.setSt b).fault = s.fault := rfl
@[simp] theorem State.setSt_r : (s.setSt b).r = s.r := rfl
@[simp] theorem State.setSt_disp : (s.setSt b).disp = s.disp := rfl
@[simp] theorem State.setSt_mem : (s.setSt b).mem = s.mem := rfl
@[simp] theorem State.setSt_pending : (s.setSt b).pending = s.pending := rfl
@[simp] theorem State.setSt_turns : (s.setSt b).turns = s.turns := rfl
@[simp] theorem State.setSt_keys : (s.setSt b).keys = s.keys := rfl
@[simp] theorem State.setSt_rnds : (s.setSt b).rnds = s.rnds := rfl
@[simp] theorem State.setSt_draws : (s.setSt b).draws = s.draws := rfl
@[simp] theorem State.setSt_outputs : (s.setSt b).outputs = s.outputs := rfl
end setSt

section setHires
variable (s : State) (h : Resolution)
@[simp] theorem State.setHires_cfg : (s.setHires h).cfg = s.cfg := rfl
@[simp] theorem State.setHires_v : (s.setHires h).v = s.v := rfl
@[simp] theorem State.setHires_i : (s.setHires h).i = s.i := rfl
@[simp] theorem State.setHires_pc : (s.setHires h).pc = s.pc := rfl
@[simp] theorem State.setHires_dt : (s.setHires h).dt = s.dt := rfl
@[simp] theorem State.setHires_st : (s.setHires h).st = s.st := rfl
@[simp] theorem State.setHires_sp : (s.setHires h).sp = s.sp := rfl
@[simp] theorem State.setHires_stack : (s.setHires h).stack = s.stack := rfl
@[simp] theorem State.setHires_hires : (s.setHires h).hires = h := rfl
@[simp] theorem State.setHires_fault : (s.setHires h).fault = s.fault := rfl
@[simp] theorem State.setHires_r : (s.setHires h).r = s.r := rfl
@[simp] theorem State.setHires_disp : (s.setHires h).disp = s.disp := rfl
@[simp] theorem State.setHires_mem : (s.setHires h).mem = s.mem := rfl
@[simp] theorem State.setHires_pending : (s.setHires h).pending = s.pending := rfl
@[simp] theorem State.setHires_turns : (s.setHires h).turns = s.turns := rfl
@[simp] theorem State.setHires_keys : (s.setHires h).keys = s.keys := rfl
@[simp] theorem State.setHires_rnds : (s.setHires h).rnds = s.rnds := rfl
@[simp] theorem State.setHires_draws : (s.setHires h).draws = s.draws := rfl
@[simp] theorem State.setHires_outputs : (s.setHires h).outputs = s.outputs := rfl
end setHires

section setBank
variable (s : State) (r : Vector Byte 8)
@[simp] theorem State.setBank_cfg : (s.setBank r).cfg = s.cfg := rfl
@[simp] theorem State.setBank_v : (s.setBank r).v = s.v := rfl
@[simp] theorem State.setBank_i : (s.setBank r).i = s.i := rfl
@[simp] theorem State.setBank_pc : (s.setBank r).pc = s.pc := rfl
@[simp] theorem State.setBank_dt : (s.setBank r).dt = s.dt := rfl
@[simp] theorem State.setBank_st : (s.setBank r).st = s.st := rfl
@[simp] theorem State.setBank_sp : (s.setBank r).sp = s.sp := rfl
@[simp] theorem State.setBank_stack : (s.setBank r).stack = s.stack := rfl
@[simp] theorem State.setBank_hires : (s.setBank r).hires = s.hires := rfl
@[simp] theorem State.setBank_fault : (s.setBank r).fault = s.fault := rfl
@[simp] theorem State.setBank_r : (s.setBank r).r = r := rfl
@[simp] theorem State.setBank_disp : (s.setBank r).disp = s.disp := rfl
@[simp] theorem State.setBank_mem : (s.setBank r).mem = s.mem := rfl
@[simp] theorem State.setBank_pending : (s.setBank r).pending = s.pending := rfl
@[simp] theorem State.setBank_turns : (s.setBank r).turns = s.turns := rfl
@[simp] theorem State.setBank_keys : (s.setBank r).keys = s.keys := rfl
@[simp] theorem State.setBank_rnds : (s.setBank r).rnds = s.rnds := rfl
@[simp] theorem State.setBank_draws : (s.setBank r).draws = s.draws := rfl
@[simp] theorem State.setBank_outputs : (s.setBank r).outputs = s.outputs := rfl
end setBank

section setDisp
variable (s : State) (d : Plane)
@[simp] theorem State.setDisp_cfg : (s.setDisp d).cfg = s.cfg := rfl
@[simp] theorem State.setDisp_v : (s.setDisp d).v = s.v := rfl
@[simp] theorem State.setDisp_i : (s.setDisp d).i = s.i := rfl
@[simp] theorem State.setDisp_pc : (s.setDisp d).pc = s.pc := rfl
@[simp] theorem State.setDisp_dt : (s.setDisp d).dt = s.dt := rfl
@[simp] theorem State.setDisp_st : (s.setDisp d).st = s.st := rfl
@[simp] theorem State.setDisp_sp : (s.setDisp d).sp = s.sp := rfl
@[simp] theorem State.setDisp_stack : (s.setDisp d).stack = s.stack := rfl
@[simp] theorem State.setDisp_hires : (s.setDisp d).hires = s.hires := rfl
@[simp] theorem State.setDisp_fault : (s.setDisp d).fault = s.fault := rfl
@[simp] theorem State.setDisp_r : (s.setDisp d).r = s.r := rfl
@[simp] theorem State.setDisp_disp : (s.setDisp d).disp = d := rfl
@[simp] theorem State.setDisp_mem : (s.setDisp d).mem = s.mem := rfl
@[simp] theorem State.setDisp_pending : (s.setDisp d).pending = s.pending := rfl
@[simp] theorem State.setDisp_turns : (s.setDisp d).turns = s.turns := rfl
@[simp] theorem State.setDisp_keys : (s.setDisp d).keys = s.keys := rfl
@[simp] theorem State.setDisp_rnds : (s.setDisp d).rnds = s.rnds := rfl
@[simp] theorem State.setDisp_draws : (s.setDisp d).draws = s.draws := rfl
@[simp] theorem State.setDisp_outputs : (s.setDisp d).outputs = s.outputs := rfl
end setDisp

section setMem
variable (s : State) (m : Memory)
@[simp] theorem State.setMem_cfg : (s.setMem m).cfg = s.cfg := rfl
@[simp] theorem State.setMem_v : (s.setMem m).v = s.v := rfl
@[simp] theorem State.setMem_i : (s.setMem m).i = s.i := rfl
@[simp] theorem State.setMem_pc : (s.setMem m).pc = s.pc := rfl
@[simp] theorem State.setMem_dt : (s.setMem m).dt = s.dt := rfl
@[simp] theorem State.setMem_st : (s.setMem m).st = s.st := rfl
@[simp] theorem State.setMem_sp : (s.setMem m).sp = s.sp := rfl
@[simp] theorem State.setMem_stack : (s.setMem m).stack = s.stack := rfl
@[simp] theorem State.setMem_hires : (s.setMem m).hires = s.hires := rfl
@[simp] theorem State.setMem_fault : (s.setMem m).fault = s.fault := rfl
@[simp] theorem State.setMem_r : (s.setMem m).r = s.r := rfl
@[simp] theorem State.setMem_disp : (s.setMem m).disp = s.disp := rfl
@[simp] theorem State.setMem_mem : (s.setMem m).mem = m := rfl
@[simp] theorem State.setMem_pending : (s.setMem m).pending = s.pending := rfl
@[simp] theorem State.setMem_turns : (s.setMem m).turns = s.turns := rfl
@[simp] theorem State.setMem_keys : (s.setMem m).keys = s.keys := rfl
@[simp] theorem State.setMem_rnds : (s.setMem m).rnds = s.rnds := rfl
@[simp] theorem State.setMem_draws : (s.setMem m).draws = s.draws := rfl
@[simp] theorem State.setMem_outputs : (s.setMem m).outputs = s.outputs := rfl
end setMem

section push
variable (s : State) (w : Word) (h : s.sp.val < 16)
@[simp] theorem State.push_cfg : (s.push w h).cfg = s.cfg := rfl
@[simp] theorem State.push_v : (s.push w h).v = s.v := rfl
@[simp] theorem State.push_i : (s.push w h).i = s.i := rfl
@[simp] theorem State.push_pc : (s.push w h).pc = s.pc := rfl
@[simp] theorem State.push_dt : (s.push w h).dt = s.dt := rfl
@[simp] theorem State.push_st : (s.push w h).st = s.st := rfl
@[simp] theorem State.push_sp : (s.push w h).sp = ⟨s.sp.val + 1, Nat.succ_lt_succ h⟩ := rfl
@[simp] theorem State.push_stack : (s.push w h).stack = s.stack.set s.sp.val w h := rfl
@[simp] theorem State.push_hires : (s.push w h).hires = s.hires := rfl
@[simp] theorem State.push_fault : (s.push w h).fault = s.fault := rfl
@[simp] theorem State.push_r : (s.push w h).r = s.r := rfl
@[simp] theorem State.push_disp : (s.push w h).disp = s.disp := rfl
@[simp] theorem State.push_mem : (s.push w h).mem = s.mem := rfl
@[simp] theorem State.push_pending : (s.push w h).pending = s.pending := rfl
@[simp] theorem State.push_turns : (s.push w h).turns = s.turns := rfl
@[simp] theorem State.push_keys : (s.push w h).keys = s.keys := rfl
@[simp] theorem State.push_rnds : (s.push w h).rnds = s.rnds := rfl
@[simp] theorem State.push_draws : (s.push w h).draws = s.draws := rfl
@[simp] theorem State.push_outputs : (s.push w h).outputs = s.outputs := rfl
end push

section pop
variable (s : State)
@[simp] theorem State.pop_cfg : s.pop.cfg = s.cfg := rfl
@[simp] theorem State.pop_v : s.pop.v = s.v := rfl
@[simp] theorem State.pop_i : s.pop.i = s.i := rfl
@[simp] theorem State.pop_pc : s.pop.pc = s.pc := rfl
@[simp] theorem State.pop_dt : s.pop.dt = s.dt := rfl
@[simp] theorem State.pop_st : s.pop.st = s.st := rfl
@[simp] theorem State.pop_stack : s.pop.stack = s.stack := rfl
@[simp] theorem State.pop_hires : s.pop.hires = s.hires := rfl
@[simp] theorem State.pop_fault : s.pop.fault = s.fault := rfl
@[simp] theorem State.pop_r : s.pop.r = s.r := rfl
@[simp] theorem State.pop_disp : s.pop.disp = s.disp := rfl
@[simp] theorem State.pop_mem : s.pop.mem = s.mem := rfl
@[simp] theorem State.pop_pending : s.pop.pending = s.pending := rfl
@[simp] theorem State.pop_turns : s.pop.turns = s.turns := rfl
@[simp] theorem State.pop_keys : s.pop.keys = s.keys := rfl
@[simp] theorem State.pop_rnds : s.pop.rnds = s.rnds := rfl
@[simp] theorem State.pop_draws : s.pop.draws = s.draws := rfl
@[simp] theorem State.pop_outputs : s.pop.outputs = s.outputs := rfl
end pop

section advance
variable (s : State)
@[simp] theorem State.advance_cfg : s.advance.cfg = s.cfg := rfl
@[simp] theorem State.advance_v : s.advance.v = s.v := rfl
@[simp] theorem State.advance_i : s.advance.i = s.i := rfl
@[simp] theorem State.advance_pc : s.advance.pc = s.pc + 2 := rfl
@[simp] theorem State.advance_dt : s.advance.dt = s.dt := rfl
@[simp] theorem State.advance_st : s.advance.st = s.st := rfl
@[simp] theorem State.advance_sp : s.advance.sp = s.sp := rfl
@[simp] theorem State.advance_stack : s.advance.stack = s.stack := rfl
@[simp] theorem State.advance_hires : s.advance.hires = s.hires := rfl
@[simp] theorem State.advance_fault : s.advance.fault = s.fault := rfl
@[simp] theorem State.advance_r : s.advance.r = s.r := rfl
@[simp] theorem State.advance_disp : s.advance.disp = s.disp := rfl
@[simp] theorem State.advance_mem : s.advance.mem = s.mem := rfl
@[simp] theorem State.advance_pending : s.advance.pending = s.pending := rfl
@[simp] theorem State.advance_turns : s.advance.turns = s.turns := rfl
@[simp] theorem State.advance_keys : s.advance.keys = s.keys := rfl
@[simp] theorem State.advance_rnds : s.advance.rnds = s.rnds := rfl
@[simp] theorem State.advance_draws : s.advance.draws = s.draws := rfl
@[simp] theorem State.advance_outputs : s.advance.outputs = s.outputs := rfl
end advance

section emit
variable (s : State) (e : Output)
@[simp] theorem State.emit_cfg : (s.emit e).cfg = s.cfg := rfl
@[simp] theorem State.emit_v : (s.emit e).v = s.v := rfl
@[simp] theorem State.emit_i : (s.emit e).i = s.i := rfl
@[simp] theorem State.emit_pc : (s.emit e).pc = s.pc := rfl
@[simp] theorem State.emit_dt : (s.emit e).dt = s.dt := rfl
@[simp] theorem State.emit_st : (s.emit e).st = s.st := rfl
@[simp] theorem State.emit_sp : (s.emit e).sp = s.sp := rfl
@[simp] theorem State.emit_stack : (s.emit e).stack = s.stack := rfl
@[simp] theorem State.emit_hires : (s.emit e).hires = s.hires := rfl
@[simp] theorem State.emit_fault : (s.emit e).fault = s.fault := rfl
@[simp] theorem State.emit_r : (s.emit e).r = s.r := rfl
@[simp] theorem State.emit_disp : (s.emit e).disp = s.disp := rfl
@[simp] theorem State.emit_mem : (s.emit e).mem = s.mem := rfl
@[simp] theorem State.emit_pending : (s.emit e).pending = s.pending := rfl
@[simp] theorem State.emit_turns : (s.emit e).turns = s.turns := rfl
@[simp] theorem State.emit_keys : (s.emit e).keys = s.keys := rfl
@[simp] theorem State.emit_rnds : (s.emit e).rnds = s.rnds := rfl
@[simp] theorem State.emit_draws : (s.emit e).draws = s.draws := rfl
@[simp] theorem State.emit_outputs : (s.emit e).outputs = s.outputs ++ [e] := rfl
end emit

section raiseFault
variable (s : State) (c : Fault)
@[simp] theorem State.raiseFault_cfg : (s.raiseFault c).cfg = s.cfg := rfl
@[simp] theorem State.raiseFault_v : (s.raiseFault c).v = s.v := rfl
@[simp] theorem State.raiseFault_i : (s.raiseFault c).i = s.i := rfl
@[simp] theorem State.raiseFault_pc : (s.raiseFault c).pc = s.pc := rfl
@[simp] theorem State.raiseFault_dt : (s.raiseFault c).dt = s.dt := rfl
@[simp] theorem State.raiseFault_st : (s.raiseFault c).st = s.st := rfl
@[simp] theorem State.raiseFault_sp : (s.raiseFault c).sp = s.sp := rfl
@[simp] theorem State.raiseFault_stack : (s.raiseFault c).stack = s.stack := rfl
@[simp] theorem State.raiseFault_hires : (s.raiseFault c).hires = s.hires := rfl
@[simp] theorem State.raiseFault_fault : (s.raiseFault c).fault = some c := rfl
@[simp] theorem State.raiseFault_r : (s.raiseFault c).r = s.r := rfl
@[simp] theorem State.raiseFault_disp : (s.raiseFault c).disp = s.disp := rfl
@[simp] theorem State.raiseFault_mem : (s.raiseFault c).mem = s.mem := rfl
@[simp] theorem State.raiseFault_pending : (s.raiseFault c).pending = s.pending := rfl
@[simp] theorem State.raiseFault_turns : (s.raiseFault c).turns = s.turns := rfl
@[simp] theorem State.raiseFault_keys : (s.raiseFault c).keys = s.keys := rfl
@[simp] theorem State.raiseFault_rnds : (s.raiseFault c).rnds = s.rnds := rfl
@[simp] theorem State.raiseFault_draws : (s.raiseFault c).draws = s.draws := rfl
@[simp] theorem State.raiseFault_outputs : (s.raiseFault c).outputs = s.outputs := rfl
end raiseFault

section resetEvent
variable (s : State)
@[simp] theorem State.resetEvent_cfg : s.resetEvent.cfg = s.cfg := rfl
@[simp] theorem State.resetEvent_v : s.resetEvent.v = Vector.replicate 16 0 := rfl
@[simp] theorem State.resetEvent_i : s.resetEvent.i = 0 := rfl
@[simp] theorem State.resetEvent_pc : s.resetEvent.pc = 0x200 := rfl
@[simp] theorem State.resetEvent_dt : s.resetEvent.dt = 0 := rfl
@[simp] theorem State.resetEvent_st : s.resetEvent.st = 0 := rfl
@[simp] theorem State.resetEvent_sp : s.resetEvent.sp = 0 := rfl
@[simp] theorem State.resetEvent_stack : s.resetEvent.stack = Vector.replicate 16 0 := rfl
@[simp] theorem State.resetEvent_hires : s.resetEvent.hires = .low := rfl
@[simp] theorem State.resetEvent_fault : s.resetEvent.fault = none := rfl
@[simp] theorem State.resetEvent_r : s.resetEvent.r = Vector.replicate 8 0 := rfl
@[simp] theorem State.resetEvent_disp : s.resetEvent.disp = blankPlane s.cfg := rfl
@[simp] theorem State.resetEvent_mem : s.resetEvent.mem = s.mem := rfl
@[simp] theorem State.resetEvent_pending : s.resetEvent.pending = s.pending := rfl
@[simp] theorem State.resetEvent_turns : s.resetEvent.turns = s.turns := rfl
@[simp] theorem State.resetEvent_keys : s.resetEvent.keys = s.keys := rfl
@[simp] theorem State.resetEvent_rnds : s.resetEvent.rnds = s.rnds := rfl
@[simp] theorem State.resetEvent_draws : s.resetEvent.draws = s.draws := rfl
@[simp] theorem State.resetEvent_outputs : s.resetEvent.outputs = s.outputs := rfl
end resetEvent

section bumpI
variable (s : State) (x : Nibble)
@[simp] theorem State.bumpI_cfg : (s.bumpI x).cfg = s.cfg := rfl
@[simp] theorem State.bumpI_v : (s.bumpI x).v = s.v := rfl
@[simp] theorem State.bumpI_i : (s.bumpI x).i = s.i + BitVec.ofNat 16 (x.toNat + 1) := rfl
@[simp] theorem State.bumpI_pc : (s.bumpI x).pc = s.pc := rfl
@[simp] theorem State.bumpI_dt : (s.bumpI x).dt = s.dt := rfl
@[simp] theorem State.bumpI_st : (s.bumpI x).st = s.st := rfl
@[simp] theorem State.bumpI_sp : (s.bumpI x).sp = s.sp := rfl
@[simp] theorem State.bumpI_stack : (s.bumpI x).stack = s.stack := rfl
@[simp] theorem State.bumpI_hires : (s.bumpI x).hires = s.hires := rfl
@[simp] theorem State.bumpI_fault : (s.bumpI x).fault = s.fault := rfl
@[simp] theorem State.bumpI_r : (s.bumpI x).r = s.r := rfl
@[simp] theorem State.bumpI_disp : (s.bumpI x).disp = s.disp := rfl
@[simp] theorem State.bumpI_mem : (s.bumpI x).mem = s.mem := rfl
@[simp] theorem State.bumpI_pending : (s.bumpI x).pending = s.pending := rfl
@[simp] theorem State.bumpI_turns : (s.bumpI x).turns = s.turns := rfl
@[simp] theorem State.bumpI_keys : (s.bumpI x).keys = s.keys := rfl
@[simp] theorem State.bumpI_rnds : (s.bumpI x).rnds = s.rnds := rfl
@[simp] theorem State.bumpI_draws : (s.bumpI x).draws = s.draws := rfl
@[simp] theorem State.bumpI_outputs : (s.bumpI x).outputs = s.outputs := rfl
end bumpI

section putShift
variable (s : State) (x y : Nibble) (a b : Byte)
@[simp] theorem State.putShift_cfg : (s.putShift x y a b).cfg = s.cfg := rfl
@[simp] theorem State.putShift_i : (s.putShift x y a b).i = s.i := rfl
@[simp] theorem State.putShift_pc : (s.putShift x y a b).pc = s.pc := rfl
@[simp] theorem State.putShift_dt : (s.putShift x y a b).dt = s.dt := rfl
@[simp] theorem State.putShift_st : (s.putShift x y a b).st = s.st := rfl
@[simp] theorem State.putShift_sp : (s.putShift x y a b).sp = s.sp := rfl
@[simp] theorem State.putShift_stack : (s.putShift x y a b).stack = s.stack := rfl
@[simp] theorem State.putShift_hires : (s.putShift x y a b).hires = s.hires := rfl
@[simp] theorem State.putShift_fault : (s.putShift x y a b).fault = s.fault := rfl
@[simp] theorem State.putShift_r : (s.putShift x y a b).r = s.r := rfl
@[simp] theorem State.putShift_disp : (s.putShift x y a b).disp = s.disp := rfl
@[simp] theorem State.putShift_mem : (s.putShift x y a b).mem = s.mem := rfl
@[simp] theorem State.putShift_pending : (s.putShift x y a b).pending = s.pending := rfl
@[simp] theorem State.putShift_turns : (s.putShift x y a b).turns = s.turns := rfl
@[simp] theorem State.putShift_keys : (s.putShift x y a b).keys = s.keys := rfl
@[simp] theorem State.putShift_rnds : (s.putShift x y a b).rnds = s.rnds := rfl
@[simp] theorem State.putShift_draws : (s.putShift x y a b).draws = s.draws := rfl
@[simp] theorem State.putShift_outputs : (s.putShift x y a b).outputs = s.outputs := rfl
end putShift

section scrolled
variable (s : State) (dx dy : Int)
@[simp] theorem State.scrolled_cfg : (s.scrolled dx dy).cfg = s.cfg := rfl
@[simp] theorem State.scrolled_v : (s.scrolled dx dy).v = s.v := rfl
@[simp] theorem State.scrolled_i : (s.scrolled dx dy).i = s.i := rfl
@[simp] theorem State.scrolled_pc : (s.scrolled dx dy).pc = s.pc := rfl
@[simp] theorem State.scrolled_dt : (s.scrolled dx dy).dt = s.dt := rfl
@[simp] theorem State.scrolled_st : (s.scrolled dx dy).st = s.st := rfl
@[simp] theorem State.scrolled_sp : (s.scrolled dx dy).sp = s.sp := rfl
@[simp] theorem State.scrolled_stack : (s.scrolled dx dy).stack = s.stack := rfl
@[simp] theorem State.scrolled_hires : (s.scrolled dx dy).hires = s.hires := rfl
@[simp] theorem State.scrolled_fault : (s.scrolled dx dy).fault = s.fault := rfl
@[simp] theorem State.scrolled_r : (s.scrolled dx dy).r = s.r := rfl
@[simp] theorem State.scrolled_disp : (s.scrolled dx dy).disp = scroll s.cfg.scrollEdge s.cfg.width s.cfg.height dx dy s.disp := rfl
@[simp] theorem State.scrolled_mem : (s.scrolled dx dy).mem = s.mem := rfl
@[simp] theorem State.scrolled_pending : (s.scrolled dx dy).pending = s.pending := rfl
@[simp] theorem State.scrolled_turns : (s.scrolled dx dy).turns = s.turns := rfl
@[simp] theorem State.scrolled_keys : (s.scrolled dx dy).keys = s.keys := rfl
@[simp] theorem State.scrolled_rnds : (s.scrolled dx dy).rnds = s.rnds := rfl
@[simp] theorem State.scrolled_draws : (s.scrolled dx dy).draws = s.draws := rfl
@[simp] theorem State.scrolled_outputs : (s.scrolled dx dy).outputs = s.outputs := rfl
end scrolled

@[simp] theorem State.takeKey_cfg (s : State) : (s.takeKey).cfg = s.cfg := by unfold State.takeKey; split <;> rfl
@[simp] theorem State.takeKey_v (s : State) : (s.takeKey).v = s.v := by unfold State.takeKey; split <;> rfl
@[simp] theorem State.takeKey_i (s : State) : (s.takeKey).i = s.i := by unfold State.takeKey; split <;> rfl
@[simp] theorem State.takeKey_pc (s : State) : (s.takeKey).pc = s.pc := by unfold State.takeKey; split <;> rfl
@[simp] theorem State.takeKey_dt (s : State) : (s.takeKey).dt = s.dt := by unfold State.takeKey; split <;> rfl
@[simp] theorem State.takeKey_st (s : State) : (s.takeKey).st = s.st := by unfold State.takeKey; split <;> rfl
@[simp] theorem State.takeKey_sp (s : State) : (s.takeKey).sp = s.sp := by unfold State.takeKey; split <;> rfl
@[simp] theorem State.takeKey_stack (s : State) : (s.takeKey).stack = s.stack := by unfold State.takeKey; split <;> rfl
@[simp] theorem State.takeKey_hires (s : State) : (s.takeKey).hires = s.hires := by unfold State.takeKey; split <;> rfl
@[simp] theorem State.takeKey_fault (s : State) : (s.takeKey).fault = s.fault := by unfold State.takeKey; split <;> rfl
@[simp] theorem State.takeKey_r (s : State) : (s.takeKey).r = s.r := by unfold State.takeKey; split <;> rfl
@[simp] theorem State.takeKey_disp (s : State) : (s.takeKey).disp = s.disp := by unfold State.takeKey; split <;> rfl
@[simp] theorem State.takeKey_mem (s : State) : (s.takeKey).mem = s.mem := by unfold State.takeKey; split <;> rfl
@[simp] theorem State.takeKey_pending (s : State) : (s.takeKey).pending = s.pending := by unfold State.takeKey; split <;> rfl
@[simp] theorem State.takeKey_turns (s : State) : (s.takeKey).turns = s.turns := by unfold State.takeKey; split <;> rfl
@[simp] theorem State.takeKey_rnds (s : State) : (s.takeKey).rnds = s.rnds := by unfold State.takeKey; split <;> rfl
@[simp] theorem State.takeKey_outputs (s : State) : (s.takeKey).outputs = s.outputs := by unfold State.takeKey; split <;> rfl

@[simp] theorem State.takeRnd_cfg (s : State) : (s.takeRnd).cfg = s.cfg := by unfold State.takeRnd; split <;> rfl
@[simp] theorem State.takeRnd_v (s : State) : (s.takeRnd).v = s.v := by unfold State.takeRnd; split <;> rfl
@[simp] theorem State.takeRnd_i (s : State) : (s.takeRnd).i = s.i := by unfold State.takeRnd; split <;> rfl
@[simp] theorem State.takeRnd_pc (s : State) : (s.takeRnd).pc = s.pc := by unfold State.takeRnd; split <;> rfl
@[simp] theorem State.takeRnd_dt (s : State) : (s.takeRnd).dt = s.dt := by unfold State.takeRnd; split <;> rfl
@[simp] theorem State.takeRnd_st (s : State) : (s.takeRnd).st = s.st := by unfold State.takeRnd; split <;> rfl
@[simp] theorem State.takeRnd_sp (s : State) : (s.takeRnd).sp = s.sp := by unfold State.takeRnd; split <;> rfl
@[simp] theorem State.takeRnd_stack (s : State) : (s.takeRnd).stack = s.stack := by unfold State.takeRnd; split <;> rfl
@[simp] theorem State.takeRnd_hires (s : State) : (s.takeRnd).hires = s.hires := by unfold State.takeRnd; split <;> rfl
@[simp] theorem State.takeRnd_fault (s : State) : (s.takeRnd).fault = s.fault := by unfold State.takeRnd; split <;> rfl
@[simp] theorem State.takeRnd_r (s : State) : (s.takeRnd).r = s.r := by unfold State.takeRnd; split <;> rfl
@[simp] theorem State.takeRnd_disp (s : State) : (s.takeRnd).disp = s.disp := by unfold State.takeRnd; split <;> rfl
@[simp] theorem State.takeRnd_mem (s : State) : (s.takeRnd).mem = s.mem := by unfold State.takeRnd; split <;> rfl
@[simp] theorem State.takeRnd_pending (s : State) : (s.takeRnd).pending = s.pending := by unfold State.takeRnd; split <;> rfl
@[simp] theorem State.takeRnd_turns (s : State) : (s.takeRnd).turns = s.turns := by unfold State.takeRnd; split <;> rfl
@[simp] theorem State.takeRnd_keys (s : State) : (s.takeRnd).keys = s.keys := by unfold State.takeRnd; split <;> rfl
@[simp] theorem State.takeRnd_outputs (s : State) : (s.takeRnd).outputs = s.outputs := by unfold State.takeRnd; split <;> rfl

@[simp] theorem State.skipIf_cfg (s : State) (c : Bool) : (s.skipIf c).cfg = s.cfg := by unfold State.skipIf; split <;> rfl
@[simp] theorem State.skipIf_v (s : State) (c : Bool) : (s.skipIf c).v = s.v := by unfold State.skipIf; split <;> rfl
@[simp] theorem State.skipIf_i (s : State) (c : Bool) : (s.skipIf c).i = s.i := by unfold State.skipIf; split <;> rfl
@[simp] theorem State.skipIf_dt (s : State) (c : Bool) : (s.skipIf c).dt = s.dt := by unfold State.skipIf; split <;> rfl
@[simp] theorem State.skipIf_st (s : State) (c : Bool) : (s.skipIf c).st = s.st := by unfold State.skipIf; split <;> rfl
@[simp] theorem State.skipIf_sp (s : State) (c : Bool) : (s.skipIf c).sp = s.sp := by unfold State.skipIf; split <;> rfl
@[simp] theorem State.skipIf_stack (s : State) (c : Bool) : (s.skipIf c).stack = s.stack := by unfold State.skipIf; split <;> rfl
@[simp] theorem State.skipIf_hires (s : State) (c : Bool) : (s.skipIf c).hires = s.hires := by unfold State.skipIf; split <;> rfl
@[simp] theorem State.skipIf_fault (s : State) (c : Bool) : (s.skipIf c).fault = s.fault := by unfold State.skipIf; split <;> rfl
@[simp] theorem State.skipIf_r (s : State) (c : Bool) : (s.skipIf c).r = s.r := by unfold State.skipIf; split <;> rfl
@[simp] theorem State.skipIf_disp (s : State) (c : Bool) : (s.skipIf c).disp = s.disp := by unfold State.skipIf; split <;> rfl
@[simp] theorem State.skipIf_mem (s : State) (c : Bool) : (s.skipIf c).mem = s.mem := by unfold State.skipIf; split <;> rfl
@[simp] theorem State.skipIf_pending (s : State) (c : Bool) : (s.skipIf c).pending = s.pending := by unfold State.skipIf; split <;> rfl
@[simp] theorem State.skipIf_turns (s : State) (c : Bool) : (s.skipIf c).turns = s.turns := by unfold State.skipIf; split <;> rfl
@[simp] theorem State.skipIf_keys (s : State) (c : Bool) : (s.skipIf c).keys = s.keys := by unfold State.skipIf; split <;> rfl
@[simp] theorem State.skipIf_rnds (s : State) (c : Bool) : (s.skipIf c).rnds = s.rnds := by unfold State.skipIf; split <;> rfl
@[simp] theorem State.skipIf_draws (s : State) (c : Bool) : (s.skipIf c).draws = s.draws := by unfold State.skipIf; split <;> rfl
@[simp] theorem State.skipIf_outputs (s : State) (c : Bool) : (s.skipIf c).outputs = s.outputs := by unfold State.skipIf; split <;> rfl

@[simp] theorem State.tickDelay_cfg (s : State) : (s.tickDelay).cfg = s.cfg := by unfold State.tickDelay; split <;> rfl
@[simp] theorem State.tickDelay_v (s : State) : (s.tickDelay).v = s.v := by unfold State.tickDelay; split <;> rfl
@[simp] theorem State.tickDelay_i (s : State) : (s.tickDelay).i = s.i := by unfold State.tickDelay; split <;> rfl
@[simp] theorem State.tickDelay_pc (s : State) : (s.tickDelay).pc = s.pc := by unfold State.tickDelay; split <;> rfl
@[simp] theorem State.tickDelay_st (s : State) : (s.tickDelay).st = s.st := by unfold State.tickDelay; split <;> rfl
@[simp] theorem State.tickDelay_sp (s : State) : (s.tickDelay).sp = s.sp := by unfold State.tickDelay; split <;> rfl
@[simp] theorem State.tickDelay_stack (s : State) : (s.tickDelay).stack = s.stack := by unfold State.tickDelay; split <;> rfl
@[simp] theorem State.tickDelay_hires (s : State) : (s.tickDelay).hires = s.hires := by unfold State.tickDelay; split <;> rfl
@[simp] theorem State.tickDelay_fault (s : State) : (s.tickDelay).fault = s.fault := by unfold State.tickDelay; split <;> rfl
@[simp] theorem State.tickDelay_r (s : State) : (s.tickDelay).r = s.r := by unfold State.tickDelay; split <;> rfl
@[simp] theorem State.tickDelay_disp (s : State) : (s.tickDelay).disp = s.disp := by unfold State.tickDelay; split <;> rfl
@[simp] theorem State.tickDelay_mem (s : State) : (s.tickDelay).mem = s.mem := by unfold State.tickDelay; split <;> rfl
@[simp] theorem State.tickDelay_pending (s : State) : (s.tickDelay).pending = s.pending := by unfold State.tickDelay; split <;> rfl
@[simp] theorem State.tickDelay_turns (s : State) : (s.tickDelay).turns = s.turns := by unfold State.tickDelay; split <;> rfl
@[simp] theorem State.tickDelay_keys (s : State) : (s.tickDelay).keys = s.keys := by unfold State.tickDelay; split <;> rfl
@[simp] theorem State.tickDelay_rnds (s : State) : (s.tickDelay).rnds = s.rnds := by unfold State.tickDelay; split <;> rfl
@[simp] theorem State.tickDelay_draws (s : State) : (s.tickDelay).draws = s.draws := by unfold State.tickDelay; split <;> rfl
@[simp] theorem State.tickDelay_outputs (s : State) : (s.tickDelay).outputs = s.outputs := by unfold State.tickDelay; split <;> rfl

@[simp] theorem State.tickSound_cfg (s : State) : (s.tickSound).cfg = s.cfg := by unfold State.tickSound; split <;> [split <;> rfl; rfl]
@[simp] theorem State.tickSound_v (s : State) : (s.tickSound).v = s.v := by unfold State.tickSound; split <;> [split <;> rfl; rfl]
@[simp] theorem State.tickSound_i (s : State) : (s.tickSound).i = s.i := by unfold State.tickSound; split <;> [split <;> rfl; rfl]
@[simp] theorem State.tickSound_pc (s : State) : (s.tickSound).pc = s.pc := by unfold State.tickSound; split <;> [split <;> rfl; rfl]
@[simp] theorem State.tickSound_dt (s : State) : (s.tickSound).dt = s.dt := by unfold State.tickSound; split <;> [split <;> rfl; rfl]
@[simp] theorem State.tickSound_sp (s : State) : (s.tickSound).sp = s.sp := by unfold State.tickSound; split <;> [split <;> rfl; rfl]
@[simp] theorem State.tickSound_stack (s : State) : (s.tickSound).stack = s.stack := by unfold State.tickSound; split <;> [split <;> rfl; rfl]
@[simp] theorem State.tickSound_hires (s : State) : (s.tickSound).hires = s.hires := by unfold State.tickSound; split <;> [split <;> rfl; rfl]
@[simp] theorem State.tickSound_fault (s : State) : (s.tickSound).fault = s.fault := by unfold State.tickSound; split <;> [split <;> rfl; rfl]
@[simp] theorem State.tickSound_r (s : State) : (s.tickSound).r = s.r := by unfold State.tickSound; split <;> [split <;> rfl; rfl]
@[simp] theorem State.tickSound_disp (s : State) : (s.tickSound).disp = s.disp := by unfold State.tickSound; split <;> [split <;> rfl; rfl]
@[simp] theorem State.tickSound_mem (s : State) : (s.tickSound).mem = s.mem := by unfold State.tickSound; split <;> [split <;> rfl; rfl]
@[simp] theorem State.tickSound_pending (s : State) : (s.tickSound).pending = s.pending := by unfold State.tickSound; split <;> [split <;> rfl; rfl]
@[simp] theorem State.tickSound_turns (s : State) : (s.tickSound).turns = s.turns := by unfold State.tickSound; split <;> [split <;> rfl; rfl]
@[simp] theorem State.tickSound_keys (s : State) : (s.tickSound).keys = s.keys := by unfold State.tickSound; split <;> [split <;> rfl; rfl]
@[simp] theorem State.tickSound_rnds (s : State) : (s.tickSound).rnds = s.rnds := by unfold State.tickSound; split <;> [split <;> rfl; rfl]
@[simp] theorem State.tickSound_draws (s : State) : (s.tickSound).draws = s.draws := by unfold State.tickSound; split <;> [split <;> rfl; rfl]

@[simp] theorem State.loadEvent_cfg (s : State) (b : List Byte) : (s.loadEvent b).cfg = s.cfg := by unfold State.loadEvent; split <;> rfl
@[simp] theorem State.loadEvent_v (s : State) (b : List Byte) : (s.loadEvent b).v = s.v := by unfold State.loadEvent; split <;> rfl
@[simp] theorem State.loadEvent_i (s : State) (b : List Byte) : (s.loadEvent b).i = s.i := by unfold State.loadEvent; split <;> rfl
@[simp] theorem State.loadEvent_dt (s : State) (b : List Byte) : (s.loadEvent b).dt = s.dt := by unfold State.loadEvent; split <;> rfl
@[simp] theorem State.loadEvent_st (s : State) (b : List Byte) : (s.loadEvent b).st = s.st := by unfold State.loadEvent; split <;> rfl
@[simp] theorem State.loadEvent_sp (s : State) (b : List Byte) : (s.loadEvent b).sp = s.sp := by unfold State.loadEvent; split <;> rfl
@[simp] theorem State.loadEvent_stack (s : State) (b : List Byte) : (s.loadEvent b).stack = s.stack := by unfold State.loadEvent; split <;> rfl
@[simp] theorem State.loadEvent_hires (s : State) (b : List Byte) : (s.loadEvent b).hires = s.hires := by unfold State.loadEvent; split <;> rfl
@[simp] theorem State.loadEvent_fault (s : State) (b : List Byte) : (s.loadEvent b).fault = s.fault := by unfold State.loadEvent; split <;> rfl
@[simp] theorem State.loadEvent_r (s : State) (b : List Byte) : (s.loadEvent b).r = s.r := by unfold State.loadEvent; split <;> rfl
@[simp] theorem State.loadEvent_disp (s : State) (b : List Byte) : (s.loadEvent b).disp = s.disp := by unfold State.loadEvent; split <;> rfl
@[simp] theorem State.loadEvent_pending (s : State) (b : List Byte) : (s.loadEvent b).pending = s.pending := by unfold State.loadEvent; split <;> rfl
@[simp] theorem State.loadEvent_turns (s : State) (b : List Byte) : (s.loadEvent b).turns = s.turns := by unfold State.loadEvent; split <;> rfl
@[simp] theorem State.loadEvent_keys (s : State) (b : List Byte) : (s.loadEvent b).keys = s.keys := by unfold State.loadEvent; split <;> rfl
@[simp] theorem State.loadEvent_rnds (s : State) (b : List Byte) : (s.loadEvent b).rnds = s.rnds := by unfold State.loadEvent; split <;> rfl
@[simp] theorem State.loadEvent_draws (s : State) (b : List Byte) : (s.loadEvent b).draws = s.draws := by unfold State.loadEvent; split <;> rfl

@[simp] theorem State.drawSprite_cfg (s : State) (x y : Nibble) (p : List (List Bool)) : (s.drawSprite x y p).cfg = s.cfg := rfl
@[simp] theorem State.drawSprite_i (s : State) (x y : Nibble) (p : List (List Bool)) : (s.drawSprite x y p).i = s.i := rfl
@[simp] theorem State.drawSprite_pc (s : State) (x y : Nibble) (p : List (List Bool)) : (s.drawSprite x y p).pc = s.pc := rfl
@[simp] theorem State.drawSprite_dt (s : State) (x y : Nibble) (p : List (List Bool)) : (s.drawSprite x y p).dt = s.dt := rfl
@[simp] theorem State.drawSprite_st (s : State) (x y : Nibble) (p : List (List Bool)) : (s.drawSprite x y p).st = s.st := rfl
@[simp] theorem State.drawSprite_sp (s : State) (x y : Nibble) (p : List (List Bool)) : (s.drawSprite x y p).sp = s.sp := rfl
@[simp] theorem State.drawSprite_stack (s : State) (x y : Nibble) (p : List (List Bool)) : (s.drawSprite x y p).stack = s.stack := rfl
@[simp] theorem State.drawSprite_hires (s : State) (x y : Nibble) (p : List (List Bool)) : (s.drawSprite x y p).hires = s.hires := rfl
@[simp] theorem State.drawSprite_fault (s : State) (x y : Nibble) (p : List (List Bool)) : (s.drawSprite x y p).fault = s.fault := rfl
@[simp] theorem State.drawSprite_r (s : State) (x y : Nibble) (p : List (List Bool)) : (s.drawSprite x y p).r = s.r := rfl
@[simp] theorem State.drawSprite_mem (s : State) (x y : Nibble) (p : List (List Bool)) : (s.drawSprite x y p).mem = s.mem := rfl
@[simp] theorem State.drawSprite_pending (s : State) (x y : Nibble) (p : List (List Bool)) : (s.drawSprite x y p).pending = s.pending := rfl
@[simp] theorem State.drawSprite_turns (s : State) (x y : Nibble) (p : List (List Bool)) : (s.drawSprite x y p).turns = s.turns := rfl
@[simp] theorem State.drawSprite_keys (s : State) (x y : Nibble) (p : List (List Bool)) : (s.drawSprite x y p).keys = s.keys := rfl
@[simp] theorem State.drawSprite_rnds (s : State) (x y : Nibble) (p : List (List Bool)) : (s.drawSprite x y p).rnds = s.rnds := rfl
@[simp] theorem State.drawSprite_draws (s : State) (x y : Nibble) (p : List (List Bool)) : (s.drawSprite x y p).draws = s.draws := rfl
@[simp] theorem State.drawSprite_outputs (s : State) (x y : Nibble) (p : List (List Bool)) : (s.drawSprite x y p).outputs = s.outputs := rfl

@[simp] theorem State.skipIf_pc (s : State) (c : Bool) :
    (s.skipIf c).pc = if c = true then s.pc + 4 else s.pc + 2 := by
  cases c
  · rfl
  · show s.pc + 2 + 2 = s.pc + 4
    rw [BitVec.add_assoc]; rfl

/-! The registers read through `reg`. -/

@[simp] theorem State.reg_setReg_same (s : State) (x : Nibble) (b : Byte) : (s.setReg x b).reg x = b := by
  simp [State.reg]

theorem State.reg_setReg_ne (s : State) (x k : Nibble) (b : Byte) (h : k ≠ x) : (s.setReg x b).reg k = s.reg k := by
  have : x.toNat ≠ k.toNat := fun e => h (BitVec.eq_of_toNat_eq e.symm)
  simp [State.reg, Vector.getElem_set_ne, this]

theorem State.reg_setReg (s : State) (x k : Nibble) (b : Byte) :
    (s.setReg x b).reg k = if k = x then b else s.reg k := by
  split
  · next h => subst h; simp
  · next h => exact s.reg_setReg_ne x k b h

theorem State.setVF_eq (s : State) (f : Byte) : s.setVF f = s.setReg 0xF f := rfl

theorem State.reg_of_v_eq {s t : State} (h : t.v = s.v) (k : Nibble) : t.reg k = s.reg k := by
  simp [State.reg, h]

theorem State.reg_eq_getElem? (s : State) (k : Nibble) : some (s.reg k) = s.v[k.toNat]? := by
  have := k.isLt
  simp [State.reg]

/-! Updates of other fields leave the registers. -/

@[simp] theorem State.reg_setI (s : State) (w : Word) (k : Nibble) : (s.setI w).reg k = s.reg k := rfl
@[simp] theorem State.reg_setPc (s : State) (w : Word) (k : Nibble) : (s.setPc w).reg k = s.reg k := rfl
@[simp] theorem State.reg_setDt (s : State) (b : Byte) (k : Nibble) : (s.setDt b).reg k = s.reg k := rfl
@[simp] theorem State.reg_setSt (s : State) (b : Byte) (k : Nibble) : (s.setSt b).reg k = s.reg k := rfl
@[simp] theorem State.reg_setHires (s : State) (h : Resolution) (k : Nibble) : (s.setHires h).reg k = s.reg k := rfl
@[simp] theorem State.reg_setBank (s : State) (r : Vector Byte 8) (k : Nibble) : (s.setBank r).reg k = s.reg k := rfl
@[simp] theorem State.reg_setDisp (s : State) (d : Plane) (k : Nibble) : (s.setDisp d).reg k = s.reg k := rfl
@[simp] theorem State.reg_setMem (s : State) (m : Memory) (k : Nibble) : (s.setMem m).reg k = s.reg k := rfl
@[simp] theorem State.reg_push (s : State) (w : Word) (h : s.sp.val < 16) (k : Nibble) : (s.push w h).reg k = s.reg k := rfl
@[simp] theorem State.reg_pop (s : State) (k : Nibble) : s.pop.reg k = s.reg k := rfl
@[simp] theorem State.reg_advance (s : State) (k : Nibble) : s.advance.reg k = s.reg k := rfl
@[simp] theorem State.reg_emit (s : State) (e : Output) (k : Nibble) : (s.emit e).reg k = s.reg k := rfl
@[simp] theorem State.reg_raiseFault (s : State) (c : Fault) (k : Nibble) : (s.raiseFault c).reg k = s.reg k := rfl
@[simp] theorem State.reg_bumpI (s : State) (x : Nibble) (k : Nibble) : (s.bumpI x).reg k = s.reg k := rfl
@[simp] theorem State.reg_scrolled (s : State) (dx dy : Int) (k : Nibble) : (s.scrolled dx dy).reg k = s.reg k := rfl
@[simp] theorem State.reg_takeKey (s : State) (k : Nibble) : s.takeKey.reg k = s.reg k := State.reg_of_v_eq (by simp) k
@[simp] theorem State.reg_takeRnd (s : State) (k : Nibble) : s.takeRnd.reg k = s.reg k := State.reg_of_v_eq (by simp) k
@[simp] theorem State.reg_skipIf (s : State) (c : Bool) (k : Nibble) : (s.skipIf c).reg k = s.reg k := State.reg_of_v_eq (by simp) k

/-! The flag write, the jumps, the skips and the shifts, each as one equation. -/

theorem State.reg_setVF (s : State) (f : Byte) (k : Nibble) :
    (s.setVF f).reg k = if k = 0xF then f else s.reg k := s.reg_setReg 0xF k f

theorem State.reg_putShift (s : State) (x y : Nibble) (b f : Byte) (k : Nibble) :
    (s.putShift x y b f).reg k = if k = 0xF then f else if k = x ∨ k = y then b else s.reg k := by
  rw [State.putShift, State.reg_setVF, State.reg_setReg, State.reg_setReg]
  by_cases h1 : k = y <;> by_cases h2 : k = x <;> simp [h1, h2]

/-- A jump lands on its target: the bias and the step's + 2 cancel (R131). -/
theorem State.advance_setPc_biased (s : State) (w : Word) : (s.setPc (biased w)).advance = s.setPc w := by
  show s.setPc (w - 2 + 2) = s.setPc w
  rw [BitVec.sub_add_cancel]

theorem State.skipIf_eq (s : State) (c : Bool) :
    s.skipIf c = { s with pc := if c = true then s.pc + 4 else s.pc + 2 } := by
  rw [← s.skipIf_pc c]; cases c <;> rfl

end Sys2Proof.Machine
end

