-- ==== Sys2Proof/Laws/Memory.lean ====
section
/-! SUPPORT. What memory reads as after each operation, and that each keeps the canonical form (`Memory.wf`). -/

namespace Sys2Proof.Machine

/-! ## Reads -/

theorem Memory.lookup_insert (m : Memory) (a : Nat) (v : Byte) (b : Nat) :
    Memory.lookup (Memory.insert m a v) b = if b = a then some v else Memory.lookup m b := by
  induction m with
  | nil => simp [Memory.insert, Memory.lookup]
  | cons c m ih =>
    obtain ⟨d, w⟩ := c
    simp only [Memory.insert]
    split
    · simp [Memory.lookup]
    · split
      · next h => subst h; simp only [Memory.lookup]; split <;> simp_all
      · simp only [Memory.lookup, ih]
        split
        · next h => subst h; simp_all [eq_comm]
        · rfl

theorem Memory.lookup_erase (m : Memory) (a b : Nat) :
    Memory.lookup (Memory.erase m a) b = if b = a then none else Memory.lookup m b := by
  induction m with
  | nil => simp [Memory.erase, Memory.lookup]
  | cons c m ih =>
    obtain ⟨d, w⟩ := c
    by_cases h : d = a
    · subst h
      simp only [Memory.erase, List.filter_cons, Memory.lookup] at ih ⊢
      simp only [ne_eq, not_true_eq_false, decide_false, Bool.false_eq_true, if_false]
      rw [ih]; split <;> rfl
    · simp only [Memory.erase, List.filter_cons, Memory.lookup] at ih ⊢
      simp only [ne_eq, h, not_false_eq_true, decide_true, if_true, Memory.lookup]
      rw [ih]
      split
      · next e => subst e; simp [h]
      · rfl

/-- A read after a write: the written byte at its address, the old byte everywhere else. -/
theorem Memory.read_write (m : Memory) (a : Nat) (v : Byte) (b : Nat) :
    Memory.read (Memory.write m a v) b = if b = a then v else Memory.read m b := by
  unfold Memory.write Memory.read
  split
  · next h => rw [Memory.lookup_erase]; split <;> simp_all
  · rw [Memory.lookup_insert]; split <;> simp_all

/-- A read after a run of writes. -/
theorem Memory.read_storeBytes (m : Memory) (base : Nat) (bs : List Byte) (a : Nat) :
    Memory.read (Memory.storeBytes m base bs) a =
      if base ≤ a then (bs[a - base]?).getD (Memory.read m a) else Memory.read m a := by
  induction bs generalizing m base with
  | nil => simp [Memory.storeBytes]
  | cons b bs ih =>
    rw [Memory.storeBytes, ih, Memory.read_write]
    by_cases h : base + 1 ≤ a
    · have h1 : a - base = (a - (base + 1)) + 1 := by omega
      have h2 : a ≠ base := by omega
      simp [h, h1, h2, show base ≤ a by omega]
    · by_cases h2 : a = base
      · subst h2; simp
      · simp [h, h2, show ¬ base ≤ a by omega]

theorem Memory.read_storeBytes_inside (m : Memory) (base : Nat) (bs : List Byte) (k : Nat) (h : k < bs.length) :
    Memory.read (Memory.storeBytes m base bs) (base + k) = bs[k] := by
  simp [Memory.read_storeBytes, h]

theorem Memory.read_storeBytes_outside (m : Memory) (base : Nat) (bs : List Byte) (a : Nat)
    (h : a < base ∨ base + bs.length ≤ a) :
    Memory.read (Memory.storeBytes m base bs) a = Memory.read m a := by
  rw [Memory.read_storeBytes]
  split
  · rw [List.getElem?_eq_none (by omega)]; rfl
  · rfl

theorem Memory.lookup_clearProgram (m : Memory) (a : Nat) :
    Memory.lookup (Memory.clearProgram m) a = if a < 0x200 then Memory.lookup m a else none := by
  induction m with
  | nil => simp [Memory.clearProgram, Memory.lookup]
  | cons c m ih =>
    obtain ⟨d, w⟩ := c
    simp only [Memory.clearProgram, List.filter_cons] at ih ⊢
    by_cases h : d < 0x200
    · simp only [h, decide_true, if_true, Memory.lookup, ih]
      split
      · next e => subst e; simp [h]
      · rfl
    · simp only [h, decide_false, Bool.false_eq_true, if_false, Memory.lookup, ih]
      by_cases e : a = d
      · subst e; simp [h]
      · simp [e]

theorem Memory.unlisted_program {a : Nat} (h : 0x200 ≤ a) : Memory.unlisted a = 0 := by
  simp [Memory.unlisted, show ¬ a < 0x50 by omega, show ¬ a < 0x200 by omega]

/-- `Mem[a] <- 0` from 0x200 on, nothing below. -/
theorem Memory.read_clearProgram (m : Memory) (a : Nat) :
    Memory.read (Memory.clearProgram m) a = if a < 0x200 then Memory.read m a else 0 := by
  unfold Memory.read
  rw [Memory.lookup_clearProgram]
  split
  · rfl
  · next h => simpa using Memory.unlisted_program (Nat.le_of_not_lt h)

@[simp] theorem Memory.length_loadBytes (m : Memory) (base k : Nat) : (Memory.loadBytes m base k).length = k := by
  simp [Memory.loadBytes]

theorem Memory.getElem?_loadBytes (m : Memory) (base k j : Nat) (h : j < k) :
    (Memory.loadBytes m base k)[j]? = some (Memory.read m (base + j)) := by
  simp [Memory.loadBytes, h]

/-! ## The canonical form -/

theorem Memory.mem_insert {m : Memory} {a : Nat} {v : Byte} {c : Host.Cell} (h : c ∈ Memory.insert m a v) :
    c = (a, v) ∨ c ∈ m := by
  induction m with
  | nil => simpa [Memory.insert] using h
  | cons d m ih =>
    obtain ⟨b, w⟩ := d
    simp only [Memory.insert] at h
    split at h
    · simpa using h
    · split at h
      · rcases List.mem_cons.1 h with h | h
        · exact .inl h
        · exact .inr (List.mem_cons_of_mem _ h)
      · rcases List.mem_cons.1 h with h | h
        · exact .inr (h ▸ List.mem_cons_self)
        · exact (ih h).imp_right (List.mem_cons_of_mem _)

theorem Memory.pairwise_insert {m : Memory} (hm : m.Pairwise fun c d => c.1 < d.1) (a : Nat) (v : Byte) :
    (Memory.insert m a v).Pairwise fun c d => c.1 < d.1 := by
  induction m with
  | nil => simp [Memory.insert]
  | cons d m ih =>
    obtain ⟨b, w⟩ := d
    obtain ⟨hb, hm'⟩ := List.pairwise_cons.1 hm
    simp only [Memory.insert]
    split
    · next h =>
      refine List.pairwise_cons.2 ⟨fun c hc => ?_, hm⟩
      rcases List.mem_cons.1 hc with rfl | hc
      · exact h
      · exact Nat.lt_trans h (hb c hc)
    · split
      · next h => subst h; exact List.pairwise_cons.2 ⟨hb, hm'⟩
      · next h1 h2 =>
        refine List.pairwise_cons.2 ⟨fun c hc => ?_, ih hm'⟩
        rcases Memory.mem_insert hc with rfl | hc
        · exact Nat.lt_of_le_of_ne (Nat.le_of_not_lt h1) (Ne.symm h2)
        · exact hb c hc

/-- A write inside the 4096 addresses keeps the canonical form. -/
theorem Memory.wf_write {m : Memory} (hm : Memory.wf m) {a : Nat} (ha : a < 0x1000) (v : Byte) :
    Memory.wf (Memory.write m a v) := by
  unfold Memory.write
  split
  · exact ⟨hm.1.filter _, fun c hc => hm.2 c (List.mem_filter.1 hc).1⟩
  · next h =>
    refine ⟨Memory.pairwise_insert hm.1 a v, fun c hc => ?_⟩
    rcases Memory.mem_insert hc with rfl | hc
    · exact ⟨ha, h⟩
    · exact hm.2 c hc

theorem Memory.wf_storeBytes {m : Memory} (hm : Memory.wf m) {base : Nat} {bs : List Byte}
    (h : base + bs.length ≤ 0x1000) : Memory.wf (Memory.storeBytes m base bs) := by
  induction bs generalizing m base with
  | nil => exact hm
  | cons b bs ih =>
    have hl : base + (bs.length + 1) ≤ 0x1000 := h
    exact ih (Memory.wf_write hm (by omega) b) (by omega)

theorem Memory.wf_clearProgram {m : Memory} (hm : Memory.wf m) : Memory.wf (Memory.clearProgram m) :=
  ⟨hm.1.filter _, fun c hc => hm.2 c (List.mem_filter.1 hc).1⟩

theorem Memory.wf_nil : Memory.wf [] := ⟨List.Pairwise.nil, by simp⟩

theorem Memory.lookup_of_mem {m : Memory} (hm : m.Pairwise fun c d => c.1 < d.1) {c : Host.Cell} (h : c ∈ m) :
    Memory.lookup m c.1 = some c.2 := by
  induction m with
  | nil => cases h
  | cons d m ih =>
    obtain ⟨hd, hm'⟩ := List.pairwise_cons.1 hm
    rcases List.mem_cons.1 h with rfl | h
    · simp [Memory.lookup]
    · have : c.1 ≠ d.1 := Nat.ne_of_gt (hd c h)
      simp [Memory.lookup, this, ih hm' h]

theorem Memory.mem_of_lookup {m : Memory} {a : Nat} {v : Byte} (h : Memory.lookup m a = some v) : (a, v) ∈ m := by
  induction m with
  | nil => simp [Memory.lookup] at h
  | cons d m ih =>
    simp only [Memory.lookup] at h
    split at h
    · next e => cases e; cases h; exact List.mem_cons_self
    · exact List.mem_cons_of_mem _ (ih h)

/-- Canonical memories that read alike are the same list: equal memories are equal data. -/
theorem Memory.eq_of_read_eq {m n : Memory} (hm : Memory.wf m) (hn : Memory.wf n)
    (h : ∀ a, Memory.read m a = Memory.read n a) : m = n := by
  have sub : ∀ {m n : Memory}, Memory.wf m → (∀ a, Memory.read m a = Memory.read n a) → ∀ c ∈ m, c ∈ n := by
    intro m n hm h c hc
    have hr : Memory.read m c.1 = c.2 := by simp [Memory.read, Memory.lookup_of_mem hm.1 hc]
    have hne := (hm.2 c hc).2
    rw [h, Memory.read] at hr
    cases hl : Memory.lookup n c.1 with
    | none => rw [hl] at hr; exact absurd hr.symm hne
    | some v =>
      rw [hl] at hr
      have : v = c.2 := hr
      subst this
      exact Memory.mem_of_lookup hl
  have nodup : ∀ {m : Memory}, m.Pairwise (fun c d => c.1 < d.1) → m.Nodup := fun hp =>
    hp.imp fun h e => absurd (congrArg Prod.fst e) (Nat.ne_of_lt h)
  have hp : m.Perm n := (List.perm_ext_iff_of_nodup (nodup hm.1) (nodup hn.1)).2 fun c =>
    ⟨sub hm h c, sub hn (fun a => (h a).symm) c⟩
  exact hp.eq_of_pairwise (fun c d _ _ h1 h2 => absurd h1 (Nat.lt_asymm h2)) hm.1 hn.1

end Sys2Proof.Machine
end

