-- ==== Sys2Proof/Laws/Ops.lean ====
section
/-! SUPPORT. What each shared operation does, once: the copies between register files, the biased jumps, the ranges, the
digits, the flag computations, and the fetch. The meanings' proofs cite these and unfold no operation. -/

namespace Sys2Proof.Machine

/-! ## Copies between register files -/

theorem getElem?_loadRegs (m : Memory) (base : Nat) (v : Vector Byte 16) (k j : Nat) (hj : j < 16) :
    (loadRegs m base v k)[j]? = if j < k then some (Memory.read m (base + j)) else v[j]? := by
  induction k with
  | zero => simp [loadRegs]
  | succ k ih =>
    rw [loadRegs, Vector.getElem?_setIfInBounds, ih]
    by_cases h1 : k = j
    · subst h1; simp [hj]
    · by_cases h2 : j < k
      · simp [h1, h2, show j < k + 1 by omega]
      · simp [h1, h2, show ¬ j < k + 1 by omega]

theorem getElem?_copyPrefix {a b : Nat} (src : Vector Byte a) (dst : Vector Byte b) (k j : Nat) (hk : k ≤ a) (hj : j < b) :
    (copyPrefix src dst k)[j]? = if j < k then src[j]? else dst[j]? := by
  induction k with
  | zero => simp [copyPrefix]
  | succ k ih =>
    rw [copyPrefix, Vector.getElem?_setIfInBounds, ih (by omega)]
    by_cases h1 : k = j
    · subst h1; simp [hj, show k < a by omega]
    · by_cases h2 : j < k
      · simp [h1, h2, show j < k + 1 by omega]
      · simp [h1, h2, show ¬ j < k + 1 by omega]

theorem State.reg_setV_loadRegs (s : State) (m : Memory) (base : Nat) (k : Nat) (j : Nibble) :
    (s.setV (loadRegs m base s.v k)).reg j = if j.toNat < k then Memory.read m (base + j.toNat) else s.reg j := by
  have h := (s.setV (loadRegs m base s.v k)).reg_eq_getElem? j
  rw [State.setV_v, getElem?_loadRegs m base s.v k j.toNat j.isLt] at h
  split at h
  · next h1 => rw [if_pos h1]; exact Option.some.inj h
  · next h1 => rw [if_neg h1]; exact Option.some.inj (h.trans (s.reg_eq_getElem? j).symm)

theorem State.reg_setV_copyPrefix (s : State) (src : Vector Byte 8) (k : Nat) (hk : k ≤ 8) (j : Nibble) :
    some ((s.setV (copyPrefix src s.v k)).reg j) = if j.toNat < k then src[j.toNat]? else some (s.reg j) := by
  rw [State.reg_eq_getElem?, State.setV_v, getElem?_copyPrefix _ _ _ _ hk j.isLt, s.reg_eq_getElem? j]

theorem bankCount_le (x : Nibble) : bankCount x ≤ 8 := by unfold bankCount; omega

theorem State.getElem?_block (s : State) (x k : Nibble) :
    (s.block x)[k.toNat]? = if k.toNat ≤ x.toNat then some (s.reg k) else none := by
  have := k.isLt
  simp only [State.block, List.getElem?_take, Nat.lt_succ_iff]
  split
  · simp [State.reg]
  · rfl

@[simp] theorem State.length_block (s : State) (x : Nibble) : (s.block x).length = x.toNat + 1 := by
  have := x.isLt
  simp [State.block]; omega

/-! ## Jumps and ranges -/

/-- The bias of a jump and the step's + 2 cancel (R131). -/
@[simp] theorem biased_add_two (w : Word) : biased w + 2 = w := BitVec.sub_add_cancel w 2

theorem zext16_eq (nnn : Addr) : zext16 nnn = BitVec.ofNat 16 nnn.toNat := by
  apply BitVec.eq_of_toNat_eq
  simp [zext16]

theorem indexedTarget_toNat (s : State) (nnn : Addr) : (indexedTarget s nnn).toNat = nnn.toNat + (s.reg 0).toNat := by
  have := nnn.isLt
  have := (s.reg 0).isLt
  simp only [indexedTarget, zext16, BitVec.toNat_add, BitVec.toNat_setWidth]; omega

theorem State.inRange_iff (s : State) (last : Nat) : s.inRange last = true ↔ s.i.toNat + last ≤ 0xFFF :=
  decide_eq_true_iff

theorem State.canFetch_iff (s : State) : s.canFetch = true ↔ s.pc.toNat ≤ 0xFFE := by simp [State.canFetch]

theorem State.bumpI_i_toNat (s : State) (x : Nibble) : (s.bumpI x).i.toNat = (s.i.toNat + x.toNat + 1) % 65536 := by
  simp [State.bumpI, Nat.add_assoc]

theorem State.fetchWord_eq (s : State) : s.fetchWord = BitVec.ofNat 16
    ((Memory.read s.mem s.pc.toNat).toNat * 256 + (Memory.read s.mem (s.pc.toNat + 1)).toNat) :=
  wordOfBytes_eq _ _

/-! ## Arithmetic, digits, flags -/

theorem add_eq (a b : Byte) : a + b = BitVec.ofNat 8 ((a.toNat + b.toNat) % 256) := by
  apply BitVec.eq_of_toNat_eq; simp

theorem sub_eq (a b : Byte) : a - b = BitVec.ofNat 8 ((a.toNat + 256 - b.toNat) % 256) := by
  have := a.isLt
  have := b.isLt
  apply BitVec.eq_of_toNat_eq
  simp only [BitVec.toNat_sub, BitVec.toNat_ofNat]; omega

theorem shiftRight_eq (b : Byte) : b >>> 1 = BitVec.ofNat 8 (b.toNat / 2) := by
  have := b.isLt
  apply BitVec.eq_of_toNat_eq
  simp only [BitVec.toNat_ushiftRight, Nat.shiftRight_eq_div_pow, BitVec.toNat_ofNat]; omega

theorem shiftLeft_eq (b : Byte) : b <<< 1 = BitVec.ofNat 8 (b.toNat * 2 % 256) := by
  apply BitVec.eq_of_toNat_eq
  simp [Nat.shiftLeft_eq]

theorem shiftedOutRight_eq (b : Byte) : shiftedOutRight b = BitVec.ofNat 8 (b.toNat % 2) := by
  revert b; decide

theorem shiftedOutLeft_eq (b : Byte) : shiftedOutLeft b = BitVec.ofNat 8 (b.toNat / 128) := by
  revert b; decide

theorem hundreds_toNat (b : Byte) : (hundreds b).toNat = b.toNat / 100 := by
  have := b.isLt
  simp only [hundreds, BitVec.toNat_ofNat]; omega

theorem tens_toNat (b : Byte) : (tens b).toNat = b.toNat / 10 % 10 := by
  simp only [tens, BitVec.toNat_ofNat]; omega

theorem units_toNat (b : Byte) : (units b).toNat = b.toNat % 10 := by
  simp only [units, BitVec.toNat_ofNat]; omega

theorem glyphAddress_eq (b : Byte) : glyphAddress b = BitVec.ofNat 16 (5 * b.toNat) := by simp [glyphAddress]

/-! ## The inputs -/

/-- A key query takes the next queued answer, or one open value. -/
theorem State.key_cases (s : State) :
    (∃ k ks, s.keys = k :: ks ∧ s.key = k ∧ s.takeKey = { s with keys := ks }) ∨
    (s.keys = [] ∧ s.key = Config.freeKey s.draws ∧ s.takeKey = { s with draws := s.draws + 1 }) := by
  cases h : s.keys with
  | nil => exact .inr ⟨rfl, by simp [State.key, h], by simp [State.takeKey, h]⟩
  | cons k ks => exact .inl ⟨k, ks, rfl, by simp [State.key, h], by simp [State.takeKey, h]⟩

/-- A draw of a random byte takes the next queued byte, or one open value. -/
theorem State.rnd_cases (s : State) :
    (∃ b bs, s.rnds = b :: bs ∧ s.rnd = b ∧ s.takeRnd = { s with rnds := bs }) ∨
    (s.rnds = [] ∧ s.rnd = Config.freeByte s.draws ∧ s.takeRnd = { s with draws := s.draws + 1 }) := by
  cases h : s.rnds with
  | nil => exact .inr ⟨rfl, by simp [State.rnd, h], by simp [State.takeRnd, h]⟩
  | cons b bs => exact .inl ⟨b, bs, rfl, by simp [State.rnd, h], by simp [State.takeRnd, h]⟩

/-- A key query changes the queue or the count of open values, nothing else. -/
theorem State.takeKey_eq (s : State) : s.takeKey = { s with keys := s.takeKey.keys, draws := s.takeKey.draws } := by
  rcases s.key_cases with ⟨k, ks, -, -, e⟩ | ⟨-, -, e⟩ <;> rw [e]

theorem State.takeRnd_eq (s : State) : s.takeRnd = { s with rnds := s.takeRnd.rnds, draws := s.takeRnd.draws } := by
  rcases s.rnd_cases with ⟨b, bs, -, -, e⟩ | ⟨-, -, e⟩ <;> rw [e]

theorem sub_one_toNat (b : Byte) (h : 0 < b.toNat) : (b - 1).toNat = b.toNat - 1 := by
  have := b.isLt
  simp [BitVec.toNat_sub]; omega

/-! ## The halves of `Tick` (R286) -/

theorem State.tickDelay_eq (s : State) :
    s.tickDelay = { s with dt := s.tickDelay.dt } ∧ s.tickDelay.dt.toNat = s.dt.toNat - 1 := by
  unfold State.tickDelay
  split
  · exact ⟨rfl, sub_one_toNat _ ‹_›⟩
  · exact ⟨rfl, by omega⟩

theorem State.tickSound_eq (s : State) :
    s.tickSound = { s with st := s.tickSound.st, outputs := s.tickSound.outputs } ∧
    s.tickSound.st.toNat = s.st.toNat - 1 ∧
    s.tickSound.outputs = s.outputs ++ (if s.st = 1 then [.soundStop] else []) := by
  have e : s.st - 1 = 0 ↔ s.st = 1 := by
    constructor
    · intro h; rw [← BitVec.sub_add_cancel s.st 1, h]; rfl
    · intro h; rw [h]; rfl
  unfold State.tickSound
  split
  · have hs := sub_one_toNat s.st ‹_›
    split
    · exact ⟨rfl, hs, by rw [if_pos (e.1 ‹_›)]; rfl⟩
    · exact ⟨rfl, hs, by rw [if_neg (mt e.2 ‹_›)]; simp⟩
  · next h =>
    refine ⟨rfl, by omega, ?_⟩
    rw [if_neg fun h1 => h (by rw [h1]; decide)]; simp

end Sys2Proof.Machine
end

