-- ==== Sys2Proof/Laws/PerInstr.lean ====
section
/-! SUPPORT. Statements made for every instruction, one lemma per constructor of `Instr`.
`MatchesRow`: the instruction's word matches its row of the opcode table, `(op & mask) == match` (R92).
`FixedDigits`: the instruction's word has the class digit `h` of its row's match value (R91, R95). -/

namespace Sys2Proof.Laws

def MatchesRow.Statement (i : Instr) : Prop := encode i &&& rowMask i = rowMatch i

def FixedDigits.Statement (i : Instr) : Prop := fieldH (encode i) = fieldH (rowMatch i)

theorem and_digits (a b c d e f g h : Nibble) :
    digits a b c d &&& digits e f g h = digits (a &&& e) (b &&& f) (c &&& g) (d &&& h) := by
  apply BitVec.eq_of_getLsbD_eq; intro i _
  simp only [BitVec.getLsbD_and, getLsbD_digits]
  split
  · rfl
  · split
    · rfl
    · split <;> rfl

theorem withByte_eq_digits (h x : Nibble) (kk : Byte) :
    withByte h x kk = digits h x (kk.extractLsb' 4 4) (kk.extractLsb' 0 4) := by
  apply BitVec.eq_of_getLsbD_eq; intro i hi
  simp only [getLsbD_withByte, getLsbD_digits, BitVec.getLsbD_extractLsb']
  by_cases h1 : i < 4
  · simp [h1, show i < 8 by omega]
  · by_cases h2 : i < 8
    · simp [h1, h2, show i - 4 < 4 by omega, show 4 + (i - 4) = i by omega]
    · simp [h1, h2, show ¬ (i - 4 < 4) by omega, show i - 4 - 4 = i - 8 by omega]

theorem withAddr_eq_digits (h : Nibble) (a : Addr) :
    withAddr h a = digits h (a.extractLsb' 8 4) (a.extractLsb' 4 4) (a.extractLsb' 0 4) := by
  apply BitVec.eq_of_getLsbD_eq; intro i hi
  simp only [getLsbD_withAddr, getLsbD_digits, BitVec.getLsbD_extractLsb']
  by_cases h1 : i < 4
  · simp [h1, show i < 12 by omega]
  · by_cases h2 : i < 8
    · simp [h1, show i < 12 by omega, show i - 4 < 4 by omega, show 4 + (i - 4) = i by omega]
    · by_cases h3 : i < 12
      · simp [h1, h3, show ¬ (i - 4 < 4) by omega, show i - 4 - 4 < 4 by omega, show 8 + (i - 4 - 4) = i by omega]
      · simp [h1, h3, show ¬ (i - 4 < 4) by omega, show ¬ (i - 4 - 4 < 4) by omega,
          show i - 4 - 4 - 4 = i - 12 by omega]

theorem withLine_eq_digits (p : BitVec 12) (n : Nibble) :
    withLine p n = digits (p.extractLsb' 8 4) (p.extractLsb' 4 4) (p.extractLsb' 0 4) n := by
  apply BitVec.eq_of_getLsbD_eq; intro i hi
  simp only [getLsbD_withLine, getLsbD_digits, BitVec.getLsbD_extractLsb']
  by_cases h1 : i < 4
  · simp [h1]
  · by_cases h2 : i < 8
    · simp [h1, show i - 4 < 4 by omega]
    · by_cases h3 : i < 12
      · simp [h1, show ¬ (i - 4 < 4) by omega, show i - 4 - 4 < 4 by omega, show 4 + (i - 4 - 4) = i - 4 by omega]
      · simp [h1, show ¬ (i - 4 < 4) by omega, show ¬ (i - 4 - 4 < 4) by omega,
          show i - 4 - 4 - 4 < 4 by omega, show 8 + (i - 4 - 4 - 4) = i - 4 by omega]

theorem nibble_and_ones (n : Nibble) : n &&& 15#4 = n := by revert n; decide

/-- The rows of the formats of R92: the mask keeps the fixed digits and clears the operand digits. -/
theorem row_nnn (h : Nibble) (a : Addr) : withAddr h a &&& 0xF000 = digits h 0 0 0 := by
  rw [withAddr_eq_digits, show (0xF000 : Word) = digits 0xF 0 0 0 from rfl, and_digits]; simp [nibble_and_ones]

theorem row_xkk (h x : Nibble) (kk : Byte) : withByte h x kk &&& 0xF000 = digits h 0 0 0 := by
  rw [withByte_eq_digits, show (0xF000 : Word) = digits 0xF 0 0 0 from rfl, and_digits]; simp [nibble_and_ones]

theorem row_x (h x : Nibble) (kk : Byte) : withByte h x kk &&& 0xF0FF = withByte h 0 kk := by
  rw [withByte_eq_digits, withByte_eq_digits, show (0xF0FF : Word) = digits 0xF 0 0xF 0xF from rfl, and_digits]; simp [nibble_and_ones]

theorem row_xy (h x y n : Nibble) : digits h x y n &&& 0xF00F = digits h 0 0 n := by
  rw [show (0xF00F : Word) = digits 0xF 0 0 0xF from rfl, and_digits]; simp [nibble_and_ones]

theorem row_xyn (h x y n : Nibble) : digits h x y n &&& 0xF000 = digits h 0 0 0 := by
  rw [show (0xF000 : Word) = digits 0xF 0 0 0 from rfl, and_digits]; simp [nibble_and_ones]

theorem row_n (p : BitVec 12) (n : Nibble) : withLine p n &&& 0xFFF0 = withLine p 0 := by
  rw [withLine_eq_digits, withLine_eq_digits, show (0xFFF0 : Word) = digits 0xF 0xF 0xF 0 from rfl, and_digits]; simp [nibble_and_ones]

namespace MatchesRow

theorem halt : Statement .halt := rfl
theorem scu (n : Nibble) : Statement (.scu n) := (row_n scuPrefix n).trans rfl
theorem scd (n : Nibble) : Statement (.scd n) := (row_n 0x00C n).trans rfl
theorem cls : Statement .cls := rfl
theorem ret : Statement .ret := rfl
theorem scr : Statement .scr := rfl
theorem scl : Statement .scl := rfl
theorem low : Statement .low := rfl
theorem high : Statement .high := rfl
theorem jp (nnn : Addr) : Statement (.jp nnn) := (row_nnn 0x1 nnn).trans rfl
theorem call (nnn : Addr) : Statement (.call nnn) := (row_nnn 0x2 nnn).trans rfl
theorem seByte (x : Nibble) (kk : Byte) : Statement (.seByte x kk) := (row_xkk 0x3 x kk).trans rfl
theorem sneByte (x : Nibble) (kk : Byte) : Statement (.sneByte x kk) := (row_xkk 0x4 x kk).trans rfl
theorem seReg (x y : Nibble) : Statement (.seReg x y) := (row_xy 0x5 x y 0x0).trans rfl
theorem ldByte (x : Nibble) (kk : Byte) : Statement (.ldByte x kk) := (row_xkk 0x6 x kk).trans rfl
theorem addByte (x : Nibble) (kk : Byte) : Statement (.addByte x kk) := (row_xkk 0x7 x kk).trans rfl
theorem ldReg (x y : Nibble) : Statement (.ldReg x y) := (row_xy 0x8 x y 0x0).trans rfl
theorem orReg (x y : Nibble) : Statement (.orReg x y) := (row_xy 0x8 x y 0x1).trans rfl
theorem andReg (x y : Nibble) : Statement (.andReg x y) := (row_xy 0x8 x y 0x2).trans rfl
theorem xorReg (x y : Nibble) : Statement (.xorReg x y) := (row_xy 0x8 x y 0x3).trans rfl
theorem addReg (x y : Nibble) : Statement (.addReg x y) := (row_xy 0x8 x y 0x4).trans rfl
theorem subReg (x y : Nibble) : Statement (.subReg x y) := (row_xy 0x8 x y 0x5).trans rfl
theorem shr (x y : Nibble) : Statement (.shr x y) := (row_xy 0x8 x y 0x6).trans rfl
theorem subn (x y : Nibble) : Statement (.subn x y) := (row_xy 0x8 x y 0x7).trans rfl
theorem shl (x y : Nibble) : Statement (.shl x y) := (row_xy 0x8 x y 0xE).trans rfl
theorem sneReg (x y : Nibble) : Statement (.sneReg x y) := (row_xy 0x9 x y 0x0).trans rfl
theorem ldI (nnn : Addr) : Statement (.ldI nnn) := (row_nnn 0xA nnn).trans rfl
theorem jpV0 (nnn : Addr) : Statement (.jpV0 nnn) := (row_nnn 0xB nnn).trans rfl
theorem rnd (x : Nibble) (kk : Byte) : Statement (.rnd x kk) := (row_xkk 0xC x kk).trans rfl
theorem drwZeroClassic (x y : Nibble) : Statement (.drwZeroClassic x y) := (row_xy 0xD x y 0x0).trans rfl
theorem drwZeroExtended (x y : Nibble) : Statement (.drwZeroExtended x y) := (row_xy 0xD x y 0x0).trans rfl
theorem drw (x y n : Nibble) : Statement (.drw x y n) := (row_xyn 0xD x y n).trans rfl
theorem skp (x : Nibble) : Statement (.skp x) := (row_x 0xE x 0x9E).trans rfl
theorem sknp (x : Nibble) : Statement (.sknp x) := (row_x 0xE x 0xA1).trans rfl
theorem ldFromDt (x : Nibble) : Statement (.ldFromDt x) := (row_x 0xF x 0x07).trans rfl
theorem ldKey (x : Nibble) : Statement (.ldKey x) := (row_x 0xF x 0x0A).trans rfl
theorem ldDt (x : Nibble) : Statement (.ldDt x) := (row_x 0xF x 0x15).trans rfl
theorem ldSt (x : Nibble) : Statement (.ldSt x) := (row_x 0xF x 0x18).trans rfl
theorem addI (x : Nibble) : Statement (.addI x) := (row_x 0xF x 0x1E).trans rfl
theorem ldFont (x : Nibble) : Statement (.ldFont x) := (row_x 0xF x 0x29).trans rfl
theorem ldBcd (x : Nibble) : Statement (.ldBcd x) := (row_x 0xF x 0x33).trans rfl
theorem storeBlock (x : Nibble) : Statement (.storeBlock x) := (row_x 0xF x 0x55).trans rfl
theorem loadBlock (x : Nibble) : Statement (.loadBlock x) := (row_x 0xF x 0x65).trans rfl
theorem saveFlags (x : Nibble) : Statement (.saveFlags x) := (row_x 0xF x 0x75).trans rfl
theorem restoreFlags (x : Nibble) : Statement (.restoreFlags x) := (row_x 0xF x 0x85).trans rfl

end MatchesRow

namespace FixedDigits

theorem fieldH_withLine (p : BitVec 12) (n : Nibble) : fieldH (withLine p n) = p.extractLsb' 8 4 := by
  rw [withLine_eq_digits, fieldH_digits]

theorem halt : Statement .halt := rfl
theorem scu (n : Nibble) : Statement (.scu n) := (fieldH_withLine scuPrefix n).trans (by decide : (scuPrefix.extractLsb' 8 4 : Nibble) = fieldH 0x00B0)
theorem scd (n : Nibble) : Statement (.scd n) := (fieldH_withLine 0x00C n).trans (by decide : ((0x00C : BitVec 12).extractLsb' 8 4 : Nibble) = fieldH 0x00C0)
theorem cls : Statement .cls := rfl
theorem ret : Statement .ret := rfl
theorem scr : Statement .scr := rfl
theorem scl : Statement .scl := rfl
theorem low : Statement .low := rfl
theorem high : Statement .high := rfl
theorem jp (nnn : Addr) : Statement (.jp nnn) := (fieldH_withAddr 0x1 nnn).trans (by decide : (0x1 : Nibble) = fieldH 0x1000)
theorem call (nnn : Addr) : Statement (.call nnn) := (fieldH_withAddr 0x2 nnn).trans (by decide : (0x2 : Nibble) = fieldH 0x2000)
theorem seByte (x : Nibble) (kk : Byte) : Statement (.seByte x kk) := (fieldH_withByte 0x3 x kk).trans (by decide : (0x3 : Nibble) = fieldH 0x3000)
theorem sneByte (x : Nibble) (kk : Byte) : Statement (.sneByte x kk) := (fieldH_withByte 0x4 x kk).trans (by decide : (0x4 : Nibble) = fieldH 0x4000)
theorem seReg (x y : Nibble) : Statement (.seReg x y) := (fieldH_digits 0x5 x y 0x0).trans (by decide : (0x5 : Nibble) = fieldH 0x5000)
theorem ldByte (x : Nibble) (kk : Byte) : Statement (.ldByte x kk) := (fieldH_withByte 0x6 x kk).trans (by decide : (0x6 : Nibble) = fieldH 0x6000)
theorem addByte (x : Nibble) (kk : Byte) : Statement (.addByte x kk) := (fieldH_withByte 0x7 x kk).trans (by decide : (0x7 : Nibble) = fieldH 0x7000)
theorem ldReg (x y : Nibble) : Statement (.ldReg x y) := (fieldH_digits 0x8 x y 0x0).trans (by decide : (0x8 : Nibble) = fieldH 0x8000)
theorem orReg (x y : Nibble) : Statement (.orReg x y) := (fieldH_digits 0x8 x y 0x1).trans (by decide : (0x8 : Nibble) = fieldH 0x8001)
theorem andReg (x y : Nibble) : Statement (.andReg x y) := (fieldH_digits 0x8 x y 0x2).trans (by decide : (0x8 : Nibble) = fieldH 0x8002)
theorem xorReg (x y : Nibble) : Statement (.xorReg x y) := (fieldH_digits 0x8 x y 0x3).trans (by decide : (0x8 : Nibble) = fieldH 0x8003)
theorem addReg (x y : Nibble) : Statement (.addReg x y) := (fieldH_digits 0x8 x y 0x4).trans (by decide : (0x8 : Nibble) = fieldH 0x8004)
theorem subReg (x y : Nibble) : Statement (.subReg x y) := (fieldH_digits 0x8 x y 0x5).trans (by decide : (0x8 : Nibble) = fieldH 0x8005)
theorem shr (x y : Nibble) : Statement (.shr x y) := (fieldH_digits 0x8 x y 0x6).trans (by decide : (0x8 : Nibble) = fieldH 0x8006)
theorem subn (x y : Nibble) : Statement (.subn x y) := (fieldH_digits 0x8 x y 0x7).trans (by decide : (0x8 : Nibble) = fieldH 0x8007)
theorem shl (x y : Nibble) : Statement (.shl x y) := (fieldH_digits 0x8 x y 0xE).trans (by decide : (0x8 : Nibble) = fieldH 0x800E)
theorem sneReg (x y : Nibble) : Statement (.sneReg x y) := (fieldH_digits 0x9 x y 0x0).trans (by decide : (0x9 : Nibble) = fieldH 0x9000)
theorem ldI (nnn : Addr) : Statement (.ldI nnn) := (fieldH_withAddr 0xA nnn).trans (by decide : (0xA : Nibble) = fieldH 0xA000)
theorem jpV0 (nnn : Addr) : Statement (.jpV0 nnn) := (fieldH_withAddr 0xB nnn).trans (by decide : (0xB : Nibble) = fieldH 0xB000)
theorem rnd (x : Nibble) (kk : Byte) : Statement (.rnd x kk) := (fieldH_withByte 0xC x kk).trans (by decide : (0xC : Nibble) = fieldH 0xC000)
theorem drwZeroClassic (x y : Nibble) : Statement (.drwZeroClassic x y) := (fieldH_digits 0xD x y 0x0).trans (by decide : (0xD : Nibble) = fieldH 0xD000)
theorem drwZeroExtended (x y : Nibble) : Statement (.drwZeroExtended x y) := (fieldH_digits 0xD x y 0x0).trans (by decide : (0xD : Nibble) = fieldH 0xD000)
theorem drw (x y n : Nibble) : Statement (.drw x y n) := (fieldH_digits 0xD x y n).trans (by decide : (0xD : Nibble) = fieldH 0xD000)
theorem skp (x : Nibble) : Statement (.skp x) := (fieldH_withByte 0xE x 0x9E).trans (by decide : (0xE : Nibble) = fieldH 0xE09E)
theorem sknp (x : Nibble) : Statement (.sknp x) := (fieldH_withByte 0xE x 0xA1).trans (by decide : (0xE : Nibble) = fieldH 0xE0A1)
theorem ldFromDt (x : Nibble) : Statement (.ldFromDt x) := (fieldH_withByte 0xF x 0x07).trans (by decide : (0xF : Nibble) = fieldH 0xF007)
theorem ldKey (x : Nibble) : Statement (.ldKey x) := (fieldH_withByte 0xF x 0x0A).trans (by decide : (0xF : Nibble) = fieldH 0xF00A)
theorem ldDt (x : Nibble) : Statement (.ldDt x) := (fieldH_withByte 0xF x 0x15).trans (by decide : (0xF : Nibble) = fieldH 0xF015)
theorem ldSt (x : Nibble) : Statement (.ldSt x) := (fieldH_withByte 0xF x 0x18).trans (by decide : (0xF : Nibble) = fieldH 0xF018)
theorem addI (x : Nibble) : Statement (.addI x) := (fieldH_withByte 0xF x 0x1E).trans (by decide : (0xF : Nibble) = fieldH 0xF01E)
theorem ldFont (x : Nibble) : Statement (.ldFont x) := (fieldH_withByte 0xF x 0x29).trans (by decide : (0xF : Nibble) = fieldH 0xF029)
theorem ldBcd (x : Nibble) : Statement (.ldBcd x) := (fieldH_withByte 0xF x 0x33).trans (by decide : (0xF : Nibble) = fieldH 0xF033)
theorem storeBlock (x : Nibble) : Statement (.storeBlock x) := (fieldH_withByte 0xF x 0x55).trans (by decide : (0xF : Nibble) = fieldH 0xF055)
theorem loadBlock (x : Nibble) : Statement (.loadBlock x) := (fieldH_withByte 0xF x 0x65).trans (by decide : (0xF : Nibble) = fieldH 0xF065)
theorem saveFlags (x : Nibble) : Statement (.saveFlags x) := (fieldH_withByte 0xF x 0x75).trans (by decide : (0xF : Nibble) = fieldH 0xF075)
theorem restoreFlags (x : Nibble) : Statement (.restoreFlags x) := (fieldH_withByte 0xF x 0x85).trans (by decide : (0xF : Nibble) = fieldH 0xF085)

end FixedDigits

end Sys2Proof.Laws
end

