-- ==== Sys2Proof/Laws/Surface.lean ====
section
/-! SUPPORT. What the surface primitives do to one pixel, that each keeps the plane's shape, and a draw as the sequence
of the pixels it toggles. -/

namespace Sys2Proof.Machine

/-! ## Cells, shape, tabulation -/

theorem Plane.cell_tabulate (w h : Nat) (f : Nat → Nat → Bool) (x y : Nat) :
    Plane.cell (Plane.tabulate w h f) x y = if x < w ∧ y < h then f x y else false := by
  unfold Plane.cell Plane.tabulate
  by_cases hy : y < h
  · by_cases hx : x < w
    · simp [List.getD, hx, hy]
    · simp [List.getD, hx, hy]
  · simp [List.getD, hy]

theorem Plane.shaped_tabulate (w h : Nat) (f : Nat → Nat → Bool) : Plane.shaped w h (Plane.tabulate w h f) := by
  refine ⟨by simp [Plane.tabulate], fun row hr => ?_⟩
  obtain ⟨y, -, rfl⟩ := List.mem_map.1 hr
  simp

theorem Plane.shaped_blank (c : Config) : Plane.shaped c.width c.height (blankPlane c) := by
  refine ⟨by simp [blankPlane], fun row hr => ?_⟩
  rw [List.eq_of_mem_replicate hr]; simp

theorem Plane.cell_blank (c : Config) (x y : Nat) : Plane.cell (blankPlane c) x y = false := by
  unfold Plane.cell blankPlane
  by_cases hy : y < c.height
  · by_cases hx : x < c.width
    · simp [List.getD, hx, hy]
    · simp [List.getD, hx, hy]
  · simp [List.getD, hy]

theorem Plane.cell_outside {w h : Nat} {d : Plane} (hd : Plane.shaped w h d) {x y : Nat} (ho : ¬ (x < w ∧ y < h)) :
    Plane.cell d x y = false := by
  unfold Plane.cell
  by_cases hy : y < d.length
  · have hr := hd.2 d[y] (List.getElem_mem hy)
    have hx : ¬ x < w := fun hx => ho ⟨hx, hd.1 ▸ hy⟩
    simp [List.getD, hy, List.getElem?_eq_none (by omega : d[y].length ≤ x)]
  · simp [List.getD, List.getElem?_eq_none (by omega : d.length ≤ y)]

/-- Planes of one shape with the same pixels are the same plane. -/
theorem Plane.ext_of_cell {w h : Nat} {d e : Plane} (hd : Plane.shaped w h d) (he : Plane.shaped w h e)
    (hc : ∀ x y, Plane.cell d x y = Plane.cell e x y) : d = e := by
  refine List.ext_getElem (hd.1.trans he.1.symm) fun y h1 h2 => ?_
  have hl := (hd.2 _ (List.getElem_mem h1)).trans (he.2 _ (List.getElem_mem h2)).symm
  refine List.ext_getElem hl fun x h3 h4 => ?_
  have := hc x y
  simpa [Plane.cell, List.getD, h1, h2, h3, h4] using this

theorem Plane.shaped_toggle {w h : Nat} {d : Plane} (hd : Plane.shaped w h d) (x y : Nat) :
    Plane.shaped w h (Plane.toggle d x y) := by
  refine ⟨by simp [Plane.toggle, hd.1], fun row hr => ?_⟩
  obtain ⟨k, hk, rfl⟩ := List.getElem_of_mem hr
  simp only [Plane.toggle, List.length_modify] at hk
  have := hd.2 d[k] (List.getElem_mem hk)
  simp only [Plane.toggle, List.getElem_modify]
  split <;> simpa using this

theorem Plane.cell_toggle {w h : Nat} {d : Plane} (hd : Plane.shaped w h d) {x y : Nat} (hx : x < w) (hy : y < h)
    (a b : Nat) : Plane.cell (Plane.toggle d x y) a b = (Plane.cell d a b ^^ decide ((a, b) = (x, y))) := by
  by_cases hin : a < w ∧ b < h
  · have hb : b < d.length := hd.1 ▸ hin.2
    have ha : a < d[b].length := (hd.2 _ (List.getElem_mem hb)).symm ▸ hin.1
    by_cases e1 : y = b
    · subst e1
      by_cases e2 : x = a
      · subst e2
        simp [Plane.cell, Plane.toggle, List.getD, hb, ha]
      · simp [Plane.cell, Plane.toggle, List.getD, hb, ha, e2, Ne.symm e2]
    · simp [Plane.cell, Plane.toggle, List.getD, hb, ha, e1, Ne.symm e1]
  · rw [Plane.cell_outside (Plane.shaped_toggle hd x y) hin, Plane.cell_outside hd hin]
    have : ¬ ((a, b) = (x, y)) := fun e => by cases e; exact hin ⟨hx, hy⟩
    simp [this]

/-! ## A draw as the sequence of pixels it toggles -/

/-- The toggles of `ps` in order, each tested before it is made. -/
def drawSeq : List (Nat × Nat) → Plane × Bool → Plane × Bool
  | [], acc => acc
  | p :: ps, acc => drawSeq ps (Plane.toggle acc.1 p.1 p.2, acc.2 || Plane.cell acc.1 p.1 p.2)

/-- The wrapped destinations of the set source pixels of row `r`, columns 0 to `cols` - 1. -/
def rowDests (w h x0 y0 : Nat) (p : Nat → Nat → Bool) (r cols : Nat) : List (Nat × Nat) :=
  (List.range cols).flatMap fun c => if p r c then [((x0 + c) % w, (y0 + r) % h)] else []

/-- The wrapped destinations of the set source pixels of the first `rows` rows, in row-major order. -/
def dests (w h x0 y0 : Nat) (p : Nat → Nat → Bool) (rows cols : Nat) : List (Nat × Nat) :=
  (List.range rows).flatMap fun r => rowDests w h x0 y0 p r cols

theorem drawSeq_append (ps qs : List (Nat × Nat)) (acc : Plane × Bool) :
    drawSeq (ps ++ qs) acc = drawSeq qs (drawSeq ps acc) := by
  induction ps generalizing acc with
  | nil => rfl
  | cons p ps ih => exact ih _

theorem drawRow_append (w h x y : Nat) (bs cs : List Bool) (acc : Plane × Bool) :
    drawRow w h x y (bs ++ cs) acc = drawRow w h (x + bs.length) y cs (drawRow w h x y bs acc) := by
  induction bs generalizing x acc with
  | nil => rfl
  | cons b bs ih => simp [drawRow, ih, Nat.add_comm, Nat.add_left_comm]

theorem drawRows_append (w h x y : Nat) (ps qs : List (List Bool)) (acc : Plane × Bool) :
    drawRows w h x y (ps ++ qs) acc = drawRows w h x (y + ps.length) qs (drawRows w h x y ps acc) := by
  induction ps generalizing y acc with
  | nil => rfl
  | cons p ps ih => simp [drawRows, ih, Nat.add_comm, Nat.add_left_comm]

theorem drawRow_range (w h x0 y0 : Nat) (p : Nat → Nat → Bool) (r cols : Nat) (acc : Plane × Bool) :
    drawRow w h x0 (y0 + r) ((List.range cols).map (p r)) acc = drawSeq (rowDests w h x0 y0 p r cols) acc := by
  induction cols with
  | zero => rfl
  | succ k ih =>
    rw [rowDests, List.range_succ, List.map_append, drawRow_append, ih, List.flatMap_append, drawSeq_append]
    simp only [List.length_map, List.length_range, List.map_cons, List.map_nil, drawRow, List.flatMap_singleton,
      drawPixel, rowDests]
    split <;> rfl

theorem drawRows_range (w h x0 y0 : Nat) (p : Nat → Nat → Bool) (rows cols : Nat) (acc : Plane × Bool) :
    drawRows w h x0 y0 ((List.range rows).map fun r => (List.range cols).map (p r)) acc =
      drawSeq (dests w h x0 y0 p rows cols) acc := by
  induction rows with
  | zero => rfl
  | succ k ih =>
    rw [dests, List.range_succ, List.map_append, drawRows_append, ih, List.flatMap_append, drawSeq_append]
    simp [drawRows, drawRow_range, dests]

/-- A draw of the matrix `p` toggles its set pixels' destinations in row-major order. -/
theorem draw_range (w h x0 y0 : Nat) (p : Nat → Nat → Bool) (rows cols : Nat) (d : Plane) :
    draw w h x0 y0 ((List.range rows).map fun r => (List.range cols).map (p r)) d =
      drawSeq (dests w h x0 y0 p rows cols) (d, false) := drawRows_range ..

theorem mem_dests {w h x0 y0 : Nat} {p : Nat → Nat → Bool} {rows cols : Nat} {q : Nat × Nat} :
    q ∈ dests w h x0 y0 p rows cols ↔
      ∃ r c, r < rows ∧ c < cols ∧ p r c = true ∧ q = ((x0 + c) % w, (y0 + r) % h) := by
  simp only [dests, rowDests, List.mem_flatMap, List.mem_range]
  constructor
  · rintro ⟨r, hr, c, hc, hq⟩
    split at hq
    · next hp => exact ⟨r, c, hr, hc, hp, List.mem_singleton.1 hq⟩
    · cases hq
  · rintro ⟨r, c, hr, hc, hp, rfl⟩
    exact ⟨r, hr, c, hc, by simp [hp]⟩

theorem dests_inside {w h x0 y0 : Nat} (hw : 1 ≤ w) (hh : 1 ≤ h) {p : Nat → Nat → Bool} {rows cols : Nat}
    {q : Nat × Nat} (hq : q ∈ dests w h x0 y0 p rows cols) : q.1 < w ∧ q.2 < h := by
  obtain ⟨r, c, -, -, -, rfl⟩ := mem_dests.1 hq
  exact ⟨Nat.mod_lt _ hw, Nat.mod_lt _ hh⟩

theorem count_flatMap_ite {α : Type} (l : List α) (f : α → Bool) (g : α → Nat × Nat) (q : Nat × Nat) :
    (l.flatMap fun a => if f a then [g a] else []).count q = l.countP fun a => f a && decide (g a = q) := by
  induction l with
  | nil => rfl
  | cons a l ih =>
    rw [List.flatMap_cons, List.count_append, ih, List.countP_cons]
    cases f a <;> by_cases hg : g a = q <;> simp [hg, Nat.add_comm]

theorem count_rowDests (w h x0 y0 : Nat) (p : Nat → Nat → Bool) (r cols x y : Nat) :
    (rowDests w h x0 y0 p r cols).count (x, y) = hitsOfRow w h x0 y0 cols p r x y := by
  rw [rowDests, count_flatMap_ite, hitsOfRow]
  refine List.countP_congr fun c _ => ?_
  simp [Prod.ext_iff, and_assoc]

theorem count_dests (w h x0 y0 : Nat) (p : Nat → Nat → Bool) (rows cols x y : Nat) :
    (dests w h x0 y0 p rows cols).count (x, y) = hits w h x0 y0 rows cols p x y := by
  rw [dests, List.count_flatMap, hits]
  congr 1
  exact List.map_congr_left fun r _ => count_rowDests w h x0 y0 p r cols x y

theorem shaped_drawSeq {w h : Nat} (ps : List (Nat × Nat)) {d : Plane} (c : Bool) (hd : Plane.shaped w h d) :
    Plane.shaped w h (drawSeq ps (d, c)).1 := by
  induction ps generalizing d c with
  | nil => exact hd
  | cons p ps ih => exact ih _ (Plane.shaped_toggle hd p.1 p.2)

/-- Each pixel is toggled as often as it is among the destinations. -/
theorem cell_drawSeq {w h : Nat} (ps : List (Nat × Nat)) {d : Plane} (c : Bool) (hd : Plane.shaped w h d)
    (hps : ∀ q ∈ ps, q.1 < w ∧ q.2 < h) (a b : Nat) :
    Plane.cell (drawSeq ps (d, c)).1 a b = (Plane.cell d a b ^^ decide (ps.count (a, b) % 2 = 1)) := by
  induction ps generalizing d c with
  | nil => simp [drawSeq]
  | cons p ps ih =>
    have hp := hps p List.mem_cons_self
    rw [drawSeq, ih _ (Plane.shaped_toggle hd p.1 p.2) fun q hq => hps q (List.mem_cons_of_mem _ hq),
      Plane.cell_toggle hd hp.1 hp.2, List.count_cons]
    by_cases e : (a, b) = p
    · subst e
      rcases Nat.mod_two_eq_zero_or_one (ps.count (a, b)) with h | h <;> simp [Nat.add_mod, h]
    · have e' : (p == (a, b)) = false := by simpa using Ne.symm e
      simp [e, e']

/-- The collision of a draw: some destination was 1 when its turn came, that is, before the draw and toggled by the
destinations before it. -/
theorem collision_drawSeq {w h : Nat} (ps : List (Nat × Nat)) {d : Plane} (c : Bool) (hd : Plane.shaped w h d)
    (hps : ∀ q ∈ ps, q.1 < w ∧ q.2 < h) :
    (drawSeq ps (d, c)).2 = true ↔
      c = true ∨ ∃ l q r, ps = l ++ q :: r ∧ (Plane.cell d q.1 q.2 ^^ decide (l.count q % 2 = 1)) = true := by
  induction ps generalizing d c with
  | nil => simp [drawSeq]
  | cons p ps ih =>
    have hp := hps p List.mem_cons_self
    rw [drawSeq, ih _ (Plane.shaped_toggle hd p.1 p.2) fun q hq => hps q (List.mem_cons_of_mem _ hq)]
    have key : ∀ (l : List (Nat × Nat)) (q : Nat × Nat),
        (Plane.cell (Plane.toggle d p.1 p.2) q.1 q.2 ^^ decide (l.count q % 2 = 1)) =
          (Plane.cell d q.1 q.2 ^^ decide ((p :: l).count q % 2 = 1)) := by
      intro l q
      rw [Plane.cell_toggle hd hp.1 hp.2, List.count_cons]
      by_cases e : q = p
      · subst e
        rcases Nat.mod_two_eq_zero_or_one (l.count q) with h | h <;> simp [Nat.add_mod, h]
      · have e' : (p == q) = false := by simpa using Ne.symm e
        have e2 : ¬ ((q.1, q.2) = (p.1, p.2)) := e
        simp [e', e2]
    constructor
    · rintro (h | ⟨l, q, r, rfl, h⟩)
      · rcases Bool.or_eq_true_iff.1 h with h | h
        · exact .inl h
        · exact .inr ⟨[], p, ps, rfl, by simpa using h⟩
      · exact .inr ⟨p :: l, q, r, rfl, by rw [← key]; exact h⟩
    · rintro (h | ⟨l, q, r, e, h⟩)
      · exact .inl (by simp [h])
      · cases l with
        | nil =>
          cases e
          exact .inl (by simpa using .inr (by simpa using h))
        | cons p' l =>
          cases e
          exact .inr ⟨l, q, r, rfl, by rw [key]; exact h⟩

/-- Where a member of a list made block by block stands: in one of the blocks, after all blocks before it. -/
theorem exists_split_flatMap_range {α : Type} (g : Nat → List α) (F : List α → α → Prop) (n : Nat) :
    (∃ l q r, (List.range n).flatMap g = l ++ q :: r ∧ F l q) ↔
      ∃ k < n, ∃ l q r, g k = l ++ q :: r ∧ F ((List.range k).flatMap g ++ l) q := by
  induction n with
  | zero => simp
  | succ n ih =>
    rw [List.range_succ, List.flatMap_append, List.flatMap_singleton]
    constructor
    · rintro ⟨l, q, r, e, hF⟩
      rcases List.append_eq_append_iff.1 e with ⟨a, rfl, e2⟩ | ⟨b, e1, e2⟩
      · exact ⟨n, Nat.lt_succ_self n, a, q, r, e2, hF⟩
      · cases b with
        | nil =>
          simp only [List.append_nil] at e1
          simp only [List.nil_append] at e2
          exact ⟨n, Nat.lt_succ_self n, [], q, r, e2.symm, by rw [e1]; simpa using hF⟩
        | cons q' b =>
          obtain ⟨rfl, rfl⟩ := List.cons.inj e2
          obtain ⟨k, hk, h⟩ := ih.1 ⟨l, q, b, e1, hF⟩
          exact ⟨k, Nat.lt_succ_of_lt hk, h⟩
    · rintro ⟨k, hk, l, q, r, e, hF⟩
      rcases Nat.lt_succ_iff_lt_or_eq.1 hk with hk | rfl
      · obtain ⟨l', q', r', e', hF'⟩ := ih.2 ⟨k, hk, l, q, r, e, hF⟩
        exact ⟨l', q', r' ++ g n, by simp [e'], hF'⟩
      · exact ⟨_, q, r, by rw [e]; simp, hF⟩

/-- The destinations of a matrix, each with the destinations before it. -/
theorem exists_split_dests (w h x0 y0 : Nat) (p : Nat → Nat → Bool) (rows cols : Nat)
    (F : List (Nat × Nat) → Nat × Nat → Prop) :
    (∃ l q r, dests w h x0 y0 p rows cols = l ++ q :: r ∧ F l q) ↔
      ∃ r c, r < rows ∧ c < cols ∧ p r c = true ∧
        F (dests w h x0 y0 p r cols ++ rowDests w h x0 y0 p r c) ((x0 + c) % w, (y0 + r) % h) := by
  rw [dests, exists_split_flatMap_range]
  constructor
  · rintro ⟨r, hr, hrow⟩
    obtain ⟨c, hc, l, q, t, e, hF⟩ := (exists_split_flatMap_range _
      (fun l q => F ((List.range r).flatMap (fun r => rowDests w h x0 y0 p r cols) ++ l) q) cols).1 hrow
    split at e
    · next hp =>
      cases l with
      | nil =>
        obtain ⟨rfl, -⟩ := List.cons.inj e
        exact ⟨r, c, hr, hc, hp, by simpa [dests, rowDests] using hF⟩
      | cons _ l => simp at e
    · simp at e
  · rintro ⟨r, c, hr, hc, hp, hF⟩
    refine ⟨r, hr, (exists_split_flatMap_range _
      (fun l q => F ((List.range r).flatMap (fun r => rowDests w h x0 y0 p r cols) ++ l) q) cols).2
        ⟨c, hc, [], _, [], by simp [hp]; rfl, by simpa [dests, rowDests] using hF⟩⟩

/-! ## Scroll -/

theorem shaped_scroll (e : ScrollEdge) (w h : Nat) (dx dy : Int) (d : Plane) :
    Plane.shaped w h (scroll e w h dx dy d) := Plane.shaped_tabulate ..

theorem cell_scroll_wrap (w h : Nat) (dx dy : Int) (d : Plane) {x y : Nat} (hx : x < w) (hy : y < h) :
    Plane.cell (scroll .wrap w h dx dy d) x y =
      Plane.cell d (((x : Int) - dx) % w).toNat (((y : Int) - dy) % h).toNat := by
  simp [scroll, Plane.cell_tabulate, hx, hy]

theorem cell_scroll_clear (w h : Nat) (dx dy : Int) (d : Plane) {x y : Nat} (hx : x < w) (hy : y < h) :
    Plane.cell (scroll .clear w h dx dy d) x y =
      (decide (0 ≤ (x : Int) - dx ∧ (x : Int) - dx < w ∧ 0 ≤ (y : Int) - dy ∧ (y : Int) - dy < h) &&
        Plane.cell d ((x : Int) - dx).toNat ((y : Int) - dy).toNat) := by
  simp [scroll, Plane.cell_tabulate, hx, hy]

/-! ## Sprites -/

theorem classicDecode_loadBytes (s : State) (n : Nat) :
    classicDecode (Memory.loadBytes s.mem s.i.toNat n) =
      (List.range n).map fun r => (List.range 8).map (s.spriteBit r) := by
  simp [classicDecode, Memory.loadBytes, spriteByte, Function.comp_def, State.spriteBit]

theorem extendedDecode_loadBytes (s : State) :
    extendedDecode (Memory.loadBytes s.mem s.i.toNat 32) =
      (List.range 16).map fun r => (List.range 16).map (s.wideSpriteBit r) := rfl

/-! ## A whole draw -/

/-- A draw of any matrix keeps the plane's shape. -/
theorem shaped_draw {w h : Nat} {d : Plane} (hd : Plane.shaped w h d) (x y : Nat) (p : List (List Bool)) :
    Plane.shaped w h (draw w h x y p d).1 := by
  have row : ∀ bs x y acc, Plane.shaped w h acc.1 → Plane.shaped w h (drawRow w h x y bs acc).1 := by
    intro bs
    induction bs with
    | nil => exact fun _ _ _ ha => ha
    | cons b bs ih =>
      intro x y acc ha
      refine ih _ _ _ ?_
      unfold drawPixel
      split
      · exact Plane.shaped_toggle ha _ _
      · exact ha
  have rows : ∀ ps y acc, Plane.shaped w h acc.1 → Plane.shaped w h (drawRows w h x y ps acc).1 := by
    intro ps
    induction ps with
    | nil => exact fun _ _ ha => ha
    | cons q ps ih => exact fun _ _ ha => ih _ _ (row _ _ _ _ ha)
  exact rows _ _ _ hd

/-- `destBit` counts the destinations before a source pixel. -/
theorem State.destBit_eq (s : State) (x0 y0 cols : Nat) (p : Nat → Nat → Bool) (r c : Nat) :
    s.destBit x0 y0 cols p r c =
      (Plane.cell s.disp ((x0 + c) % s.cfg.width) ((y0 + r) % s.cfg.height) ^^
        decide ((dests s.cfg.width s.cfg.height x0 y0 p r cols ++ rowDests s.cfg.width s.cfg.height x0 y0 p r c).count
          ((x0 + c) % s.cfg.width, (y0 + r) % s.cfg.height) % 2 = 1)) := by
  rw [List.count_append, count_dests, count_rowDests]; rfl

/-- Everything the drawing of a rows × cols matrix does. -/
theorem State.drawSprite_effect {s t : State} {x y : Nibble} {rows cols : Nat} {p : Nat → Nat → Bool} (hw : s.cfg.wf)
    (hd : Plane.shaped s.cfg.width s.cfg.height s.disp)
    (ht : t = (s.drawSprite x y ((List.range rows).map fun r => (List.range cols).map (p r))).advance) :
    DrawEffect s t x y rows cols p ∧ (∀ k, k ≠ 0xF → t.reg k = s.reg k) ∧
      t = { s with v := t.v, disp := t.disp, pc := s.pc + 2 } ∧ SameMemory s t := by
  subst ht
  have hq : ∀ q ∈ dests s.cfg.width s.cfg.height (s.reg x).toNat (s.reg y).toNat p rows cols,
      q.1 < s.cfg.width ∧ q.2 < s.cfg.height := fun q hq => dests_inside hw.1 hw.2 hq
  refine ⟨⟨fun px py _ _ => ?_, ?_⟩, fun k hk => ?_, rfl, fun a => rfl⟩
  · simp only [State.pixel, State.drawSprite, draw_range]
    show Plane.cell (drawSeq _ _).1 px py = _
    rw [cell_drawSeq _ _ hd hq, count_dests]
  · have hc := collision_drawSeq _ false hd hq
    rw [exists_split_dests _ _ _ _ _ _ _
      (fun l q => (Plane.cell s.disp q.1 q.2 ^^ decide (l.count q % 2 = 1)) = true)] at hc
    simp only [← State.destBit_eq, Bool.false_eq_true, false_or] at hc
    have hv : (s.drawSprite x y ((List.range rows).map fun r => (List.range cols).map (p r))).advance.reg 0xF =
        collisionFlag (drawSeq (dests s.cfg.width s.cfg.height (s.reg x).toNat (s.reg y).toNat p rows cols)
          (s.disp, false)).2 := by
      rw [State.reg_advance]
      simp only [State.drawSprite, draw_range]
      exact (State.reg_setVF _ _ _).trans (if_pos rfl)
    by_cases hcol : (drawSeq (dests s.cfg.width s.cfg.height (s.reg x).toNat (s.reg y).toNat p rows cols)
        (s.disp, false)).2 = true
    · exact .inl ⟨by rw [hv, hcol]; rfl, hc.1 hcol⟩
    · refine .inr ⟨by rw [hv, Bool.eq_false_of_not_eq_true hcol]; rfl, fun r c h1 h2 h3 => ?_⟩
      by_contra hh
      exact mt hc.2 hcol ⟨r, c, h1, h2, h3, by simpa using hh⟩
  · rw [State.reg_advance]
    exact (State.reg_setVF _ _ _).trans (by rw [if_neg hk]; rfl)

end Sys2Proof.Machine
end

