-- ==== Sys2Proof/Laws/Step.lean ====
section
/-! SUPPORT. What a `Step` can do, said once: the inversion of the step cycle, the faults an instruction can raise, and
the fields no instruction writes. -/

namespace Sys2Proof.Machine

/-! ## From `step` to the step agent's `Step` -/

theorem step_eq (s : State) : step s = s.takeEvent.perform s.headEvent := rfl

theorem step_of_stepIsNext {s : State} (h : s.stepIsNext) : step s = s.takeEvent.stepEvent := by
  rw [step_eq, h]; rfl

/-- Taking an event writes the two fields that say which events come, and no other. -/
theorem State.takeEvent_eq (s : State) :
    s.takeEvent = { s with pending := s.takeEvent.pending, turns := s.takeEvent.turns } := by
  unfold State.takeEvent; split <;> rfl

theorem State.takeEvent_cons {s : State} {e : Event} {es : List Event} (h : s.pending = e :: es) :
    s.headEvent = e ∧ s.takeEvent = { s with pending := es } := by
  simp [State.headEvent, State.takeEvent, h]

/-- With nothing pending and no free turns, taking the next event leaves the state as it is. -/
theorem State.takeEvent_of_nil {s : State} (h : s.pending = []) (ht : s.turns = none) : s.takeEvent = s := by
  rcases s
  subst h ht
  rfl

/-- With nothing pending, a free-running machine uses up the turn of the agent that comes next. -/
theorem State.takeEvent_of_free {s : State} {n : Nat} (h : s.pending = []) (ht : s.turns = some n) :
    s.headEvent = agentEvent (Config.freeTurn n) ∧ s.takeEvent = { s with turns := some (n + 1) } := by
  simp [State.headEvent, State.takeEvent, h, ht]

/-- The next event depends on the pending ones and the turns alone. -/
theorem State.headEvent_congr {s t : State} (h : t.pending = s.pending) (ht : t.turns = s.turns) :
    t.headEvent = s.headEvent := by
  unfold State.headEvent; rw [h, ht]

@[simp] theorem State.takeEvent_fault (s : State) : s.takeEvent.fault = s.fault := by rw [s.takeEvent_eq]
@[simp] theorem State.takeEvent_cfg (s : State) : s.takeEvent.cfg = s.cfg := by rw [s.takeEvent_eq]
@[simp] theorem State.takeEvent_pc (s : State) : s.takeEvent.pc = s.pc := by rw [s.takeEvent_eq]
@[simp] theorem State.takeEvent_mem (s : State) : s.takeEvent.mem = s.mem := by rw [s.takeEvent_eq]
@[simp] theorem State.takeEvent_disp (s : State) : s.takeEvent.disp = s.disp := by rw [s.takeEvent_eq]
@[simp] theorem State.takeEvent_canFetch (s : State) : s.takeEvent.canFetch = s.canFetch := by simp [State.canFetch]
@[simp] theorem State.takeEvent_fetchWord (s : State) : s.takeEvent.fetchWord = s.fetchWord := by simp [State.fetchWord]

theorem decode_zero (m : Mode) : decode m 0 = .instr .halt := by cases m <;> rfl

theorem stepEvent_of_fault {s : State} (h : s.fault ≠ none) : s.stepEvent = .next s := by simp [State.stepEvent, h]

/-- The three ways a `Step` of a machine without a fault goes. -/
theorem stepEvent_cases {s t : State} (h : s.stepEvent = .next t) (hf : s.fault = none) :
    (s.canFetch = false ∧ t = s.raiseFault .fetchOutOfRange) ∨
    (s.canFetch = true ∧ ∃ u, decode s.cfg.mode s.fetchWord = .nop u ∧ t = s.advance) ∨
    (s.canFetch = true ∧ ∃ i, decode s.cfg.mode s.fetchWord = .instr i ∧ exec i s = .next t) := by
  unfold State.stepEvent at h
  rw [if_neg (by simp [hf])] at h
  split at h
  · next hc =>
    unfold State.runDecoded at h
    split at h
    · next i hd => exact .inr (.inr ⟨hc, i, hd, h⟩)
    · next u hd => cases h; exact .inr (.inl ⟨hc, u, hd, rfl⟩)
  · cases h; exact .inl ⟨by simp_all, rfl⟩

/-- A relation that every instruction, every no-op, every fetch fault and the empty step keep is kept by a `Step`. -/
theorem stepEvent_rel {P : State → State → Prop} (hi : ∀ i s t, exec i s = .next t → P s t) (hr : ∀ s, P s s)
    (hn : ∀ s : State, P s s.advance) (hf : ∀ s : State, P s (s.raiseFault .fetchOutOfRange)) {s t : State}
    (h : s.stepEvent = .next t) : P s t := by
  by_cases e : s.fault = none
  · rcases stepEvent_cases h e with ⟨-, rfl⟩ | ⟨-, u, -, rfl⟩ | ⟨-, i, -, he⟩
    · exact hf s
    · exact hn s
    · exact hi i s t he
  · rw [stepEvent_of_fault e] at h
    cases h; exact hr s

/-! ## What an instruction can do -/

theorem exec_next (i : Instr) (s : State) : ∃ t, exec i s = .next t := by
  cases i <;> simp only [exec]
  case ret => unfold execRet; split <;> exact ⟨_, rfl⟩
  case call => unfold execCall; split <;> exact ⟨_, rfl⟩
  case drw => unfold execDrw; split <;> exact ⟨_, rfl⟩
  case drwZeroExtended => unfold execDrwZeroExtended; split <;> exact ⟨_, rfl⟩
  case ldBcd => unfold execLdBcd; split <;> exact ⟨_, rfl⟩
  case storeBlock => unfold execStoreBlock; split <;> exact ⟨_, rfl⟩
  case loadBlock => unfold execLoadBlock; split <;> exact ⟨_, rfl⟩
  all_goals exact ⟨_, rfl⟩

theorem stepEvent_next (s : State) : ∃ t, s.stepEvent = .next t := by
  unfold State.stepEvent State.runDecoded
  split
  · exact ⟨_, rfl⟩
  · split
    · split
      · exact exec_next _ s
      · exact ⟨_, rfl⟩
    · exact ⟨_, rfl⟩

theorem perform_next (s : State) (e : Event) : ∃ t, s.perform e = .next t := by
  cases e with
  | step => exact stepEvent_next s
  | tick => exact ⟨_, rfl⟩
  | reset => exact ⟨_, rfl⟩
  | load b => exact ⟨_, rfl⟩

/-- The instructions that raise a fault, each with its condition and its cause (R282). -/
inductive FaultCase : Instr → State → Fault → Prop
  | ret (s : State) (h : s.sp.val = 0) : FaultCase .ret s .stackUnderflow
  | call (a : Addr) (s : State) (h : s.sp.val = 16) : FaultCase (.call a) s .stackOverflow
  | ldBcd (x : Nibble) (s : State) (h : 0xFFF < s.i.toNat + 2) : FaultCase (.ldBcd x) s .dataOutOfRange
  | storeBlock (x : Nibble) (s : State) (h : 0xFFF < s.i.toNat + x.toNat) : FaultCase (.storeBlock x) s .dataOutOfRange
  | loadBlock (x : Nibble) (s : State) (h : 0xFFF < s.i.toNat + x.toNat) : FaultCase (.loadBlock x) s .dataOutOfRange
  | drw (x y n : Nibble) (s : State) (h : 0xFFF < s.i.toNat + (n.toNat - 1)) : FaultCase (.drw x y n) s .dataOutOfRange
  | drwZeroExtended (x y : Nibble) (s : State) (h : 0xFFF < s.i.toNat + 31) :
      FaultCase (.drwZeroExtended x y) s .dataOutOfRange
  | drwZeroClassic (x y : Nibble) (s : State) : FaultCase (.drwZeroClassic x y) s .invalidSpriteHeight

/-- An instruction leaves the latch alone, or raises its fault and does nothing else (R281, R283). -/
theorem exec_faultCase {i : Instr} {s t : State} (h : exec i s = .next t) :
    t.fault = s.fault ∨ ∃ c, FaultCase i s c ∧ t = s.raiseFault c := by
  have out : ∀ last, ¬ s.inRange last = true → 0xFFF < s.i.toNat + last := fun last hr => by
    rw [State.inRange_iff] at hr; omega
  cases i <;> simp only [exec] at h
  case ret =>
    unfold execRet at h; split at h <;> cases h
    · exact .inl rfl
    · exact .inr ⟨_, .ret s (by omega), rfl⟩
  case call =>
    unfold execCall at h; split at h <;> cases h
    · exact .inl rfl
    · exact .inr ⟨_, .call _ s (by have := s.sp.isLt; omega), rfl⟩
  case ldKey => cases h; left; split <;> simp
  case ldSt => cases h; left; split <;> simp
  case drwZeroClassic => cases h; exact .inr ⟨_, .drwZeroClassic .., rfl⟩
  case drw =>
    unfold execDrw at h; split at h <;> cases h
    · exact .inl rfl
    · next hr => exact .inr ⟨_, .drw _ _ _ _ (out _ hr), rfl⟩
  case drwZeroExtended =>
    unfold execDrwZeroExtended at h; split at h <;> cases h
    · exact .inl rfl
    · next hr => exact .inr ⟨_, .drwZeroExtended _ _ _ (out _ hr), rfl⟩
  case ldBcd =>
    unfold execLdBcd at h; split at h <;> cases h
    · exact .inl rfl
    · next hr => exact .inr ⟨_, .ldBcd _ _ (out _ hr), rfl⟩
  case storeBlock =>
    unfold execStoreBlock at h; split at h <;> cases h
    · exact .inl rfl
    · next hr => exact .inr ⟨_, .storeBlock _ _ (out _ hr), rfl⟩
  case loadBlock =>
    unfold execLoadBlock at h; split at h <;> cases h
    · exact .inl rfl
    · next hr => exact .inr ⟨_, .loadBlock _ _ (out _ hr), rfl⟩
  all_goals cases h; left; simp [State.scrolled]

/-- No instruction writes the configuration, the pending events or the turns. -/
theorem exec_cfg_pending {i : Instr} {s t : State} (h : exec i s = .next t) :
    t.cfg = s.cfg ∧ t.pending = s.pending ∧ t.turns = s.turns := by
  rcases exec_faultCase h with - | ⟨c, -, rfl⟩
  · cases i <;> simp only [exec] at h
    case ret => unfold execRet at h; split at h <;> cases h <;> simp
    case call => unfold execCall at h; split at h <;> cases h <;> simp
    case drw => unfold execDrw at h; split at h <;> cases h <;> simp
    case drwZeroExtended => unfold execDrwZeroExtended at h; split at h <;> cases h <;> simp
    case ldBcd => unfold execLdBcd at h; split at h <;> cases h <;> simp
    case storeBlock => unfold execStoreBlock at h; split at h <;> cases h <;> simp
    case loadBlock => unfold execLoadBlock at h; split at h <;> cases h <;> simp
    case ldKey => cases h; split <;> simp
    case ldSt => cases h; split <;> simp
    all_goals (cases h; simp [State.scrolled])
  · exact ⟨rfl, rfl, rfl⟩

end Sys2Proof.Machine
end

