-- ==== Sys2Proof/Laws/Runs.lean ====
section
/-! SUPPORT. Runs of the machine under an interleaving of its two agents (R287): which events come next has no part in
what one of them does, so a run is one event after another. -/

namespace Sys2Proof.Machine

/-- `s` with other events to come. -/
def State.withEvents (s : State) (es : List Event) (n : Option Nat) : State := { s with pending := es, turns := n }

section withEvents
variable (s : State) (es : List Event) (n : Option Nat)
@[simp] theorem State.withEvents_fault : (s.withEvents es n).fault = s.fault := rfl
@[simp] theorem State.withEvents_cfg : (s.withEvents es n).cfg = s.cfg := rfl
@[simp] theorem State.withEvents_reg (k : Nibble) : (s.withEvents es n).reg k = s.reg k := rfl
@[simp] theorem State.withEvents_key : (s.withEvents es n).key = s.key := rfl
@[simp] theorem State.withEvents_canFetch : (s.withEvents es n).canFetch = s.canFetch := rfl
@[simp] theorem State.withEvents_fetchWord : (s.withEvents es n).fetchWord = s.fetchWord := rfl
@[simp] theorem State.withEvents_self : s.withEvents s.pending s.turns = s := rfl

theorem State.withEvents_withEvents (es' : List Event) (n' : Option Nat) :
    (s.withEvents es n).withEvents es' n' = s.withEvents es' n' := rfl

theorem State.skipIf_withEvents (c : Bool) : (s.withEvents es n).skipIf c = (s.skipIf c).withEvents es n := by
  cases c <;> rfl

theorem State.takeKey_withEvents : (s.withEvents es n).takeKey = s.takeKey.withEvents es n := by
  rcases s with ⟨cfg, v, i, pc, dt, st, sp, stack, hires, fault, r, disp, mem, pending, turns, keys, rnds, draws, outputs⟩
  cases keys <;> rfl

theorem State.takeRnd_withEvents : (s.withEvents es n).takeRnd = s.takeRnd.withEvents es n := by
  rcases s with ⟨cfg, v, i, pc, dt, st, sp, stack, hires, fault, r, disp, mem, pending, turns, keys, rnds, draws, outputs⟩
  cases rnds <;> rfl

theorem State.tickEvent_withEvents : (s.withEvents es n).tickEvent = s.tickEvent.withEvents es n := by
  have hd : (s.withEvents es n).tickDelay = s.tickDelay.withEvents es n := by
    unfold State.tickDelay
    rw [show (s.withEvents es n).dt = s.dt from rfl]; split <;> rfl
  have hs (u : State) : (u.withEvents es n).tickSound = u.tickSound.withEvents es n := by
    unfold State.tickSound
    rw [show (u.withEvents es n).st = u.st from rfl]
    split
    · split <;> rfl
    · rfl
  unfold State.tickEvent
  rw [hd, hs]; rfl
end withEvents

/-- An instruction does the same whatever events are to come, and leaves them. -/
theorem exec_withEvents {i : Instr} {s t : State} (h : exec i s = .next t) (es : List Event) (n : Option Nat) :
    exec i (s.withEvents es n) = .next (t.withEvents es n) := by
  cases i <;> simp only [exec] at h ⊢
  case ret => unfold execRet at h ⊢; split at h <;> cases h <;> first | exact dif_pos ‹_› | exact dif_neg ‹_›
  case call => unfold execCall at h ⊢; split at h <;> cases h <;> first | exact dif_pos ‹_› | exact dif_neg ‹_›
  case drw => unfold execDrw at h ⊢; split at h <;> cases h <;> first | exact if_pos ‹_› | exact if_neg ‹_›
  case drwZeroExtended =>
    unfold execDrwZeroExtended at h ⊢; split at h <;> cases h <;> first | exact if_pos ‹_› | exact if_neg ‹_›
  case ldBcd => unfold execLdBcd at h ⊢; split at h <;> cases h <;> first | exact if_pos ‹_› | exact if_neg ‹_›
  case storeBlock => unfold execStoreBlock at h ⊢; split at h <;> cases h <;> first | exact if_pos ‹_› | exact if_neg ‹_›
  case loadBlock => unfold execLoadBlock at h ⊢; split at h <;> cases h <;> first | exact if_pos ‹_› | exact if_neg ‹_›
  case ldKey =>
    cases h; unfold execLdKey
    rw [State.withEvents_key, State.takeKey_withEvents]
    cases s.key <;> rfl
  case ldSt =>
    cases h; unfold execLdSt
    rw [State.withEvents_reg]
    split <;> rfl
  case skp => cases h; unfold execSkp; rw [State.takeKey_withEvents, State.skipIf_withEvents]; rfl
  case sknp => cases h; unfold execSknp; rw [State.takeKey_withEvents, State.skipIf_withEvents]; rfl
  case seByte => cases h; unfold execSeByte; rw [State.skipIf_withEvents]; rfl
  case sneByte => cases h; unfold execSneByte; rw [State.skipIf_withEvents]; rfl
  case seReg => cases h; unfold execSeReg; rw [State.skipIf_withEvents]; rfl
  case sneReg => cases h; unfold execSneReg; rw [State.skipIf_withEvents]; rfl
  case rnd => cases h; unfold execRnd; rw [State.takeRnd_withEvents]; rfl
  all_goals (cases h; rfl)

theorem stepEvent_withEvents {s t : State} (h : s.stepEvent = .next t) (es : List Event) (n : Option Nat) :
    (s.withEvents es n).stepEvent = .next (t.withEvents es n) := by
  unfold State.stepEvent at h ⊢
  rw [State.withEvents_fault, State.withEvents_canFetch, State.withEvents_cfg, State.withEvents_fetchWord]
  split at h
  · cases h; rw [if_pos ‹_›]
  · rw [if_neg ‹_›]
    split at h
    · rw [if_pos ‹_›]
      unfold State.runDecoded at h ⊢
      split at h
      · exact exec_withEvents h es n
      · cases h; rfl
    · cases h; rw [if_neg ‹_›]; rfl

/-- Neither agent's event depends on the events to come, or changes them. -/
theorem perform_agent_withEvents {s t : State} {a : Agent} (h : s.perform (agentEvent a) = .next t) (es : List Event)
    (n : Option Nat) : (s.withEvents es n).perform (agentEvent a) = .next (t.withEvents es n) := by
  cases a with
  | step => exact stepEvent_withEvents h es n
  | tick =>
    cases h
    show Host.Outcome.next (s.withEvents es n).tickEvent = _
    rw [State.tickEvent_withEvents]

/-- No event writes the configuration; neither agent's event writes the pending events or the turns. -/
theorem perform_cfg {s t : State} {e : Event} (h : s.perform e = .next t) : t.cfg = s.cfg := by
  cases e with
  | step =>
    exact stepEvent_rel (P := fun s t => t.cfg = s.cfg) (fun i s t h => (exec_cfg_pending h).1) (fun _ => rfl)
      (fun _ => rfl) (fun _ => rfl) h
  | tick => cases h; simp [State.tickEvent]
  | reset => cases h; rfl
  | load b => cases h; simp

theorem perform_agent_events {s t : State} {a : Agent} (h : s.perform (agentEvent a) = .next t) :
    t.pending = s.pending ∧ t.turns = s.turns := by
  have := perform_agent_withEvents h s.pending s.turns
  rw [State.withEvents_self, h] at this
  have e : t = t.withEvents s.pending s.turns := Host.Outcome.next.inj this
  rw [e]; exact ⟨rfl, rfl⟩

/-! ## Runs -/

theorem run_succ (k : Nat) {s t : State} (h : step s = .next t) :
    Host.Core.run Sys2Proof.core (k + 1) s = Host.Core.run Sys2Proof.core k t := by
  simp only [Host.Core.run, show Sys2Proof.core.step s = .next t from h]

theorem State.runs_zero (s : State) (f : Nat → Agent) (t : State) : s.Runs f 0 t ↔ { s with pending := [] } = t := by
  unfold State.Runs
  constructor
  · intro h; cases h; rfl
  · intro h; rw [← h]; rfl

/-- A run of `k + 1` turns is the first turn's event and the run of the other `k`. -/
theorem State.runs_succ {s u : State} {f : Nat → Agent} (h : s.perform (agentEvent (f 0)) = .next u) (k : Nat)
    (t : State) : s.Runs f (k + 1) t ↔ u.Runs (fun j => f (j + 1)) k t := by
  have hu := perform_agent_events h
  unfold State.Runs
  have e : (List.range (k + 1)).map (fun j => agentEvent (f j)) =
      agentEvent (f 0) :: (List.range k).map fun j => agentEvent (f (j + 1)) := by
    rw [List.range_succ_eq_map]; simp [Function.comp_def]
  rw [e, run_succ k (t := { u with pending := (List.range k).map fun j => agentEvent (f (j + 1)) })]
  have := perform_agent_withEvents h ((List.range k).map fun j => agentEvent (f (j + 1))) s.turns
  rw [show u.withEvents _ s.turns = u.withEvents _ u.turns by rw [hu.2]] at this
  exact this

end Sys2Proof.Machine
end

