-- ==== Sys2Proof/Tests/Slice0.lean ====
section
/-! SUPPORT. The model's own tests: ill-formed terms are refused; words written out from the encodings of the spec decode
to their instructions; one step each of the vectors of spec/95_test_vectors.md (their ids are in the comments; the
expected values are the spec's, which marks those of its parts 2 and 3 as derived from its rules); and for every
obligation with hypotheses a state and operands that meet them. -/

namespace Sys2Proof.Tests

open Sys2Proof Sys2Proof.Machine

/-! ## Helpers -/

/-- A machine in Classic mode right after power-on, and one in Extended mode. -/
def classic : State := State.powerOn { Config.default with mode := .classic }
def extended : State := State.powerOn { Config.default with mode := .extended }

/-- A small Extended machine of width `w` and height `h`. -/
def small (w h : Nat) (e : ScrollEdge) : State :=
  State.powerOn { mode := .extended, width := w, height := h, scrollEdge := e }

/-- An Extended machine with the default plane. -/
def plane (e : ScrollEdge) : State := small 64 32 e

/-- `s` with the listed registers. -/
def withRegs (s : State) (l : List (Nibble × Byte)) : State := l.foldl (fun s p => s.setReg p.1 p.2) s

/-- `s` with the listed bytes from address `a` on. -/
def withBytes (s : State) (a : Nat) (bs : List Byte) : State := s.setMem (Memory.storeBytes s.mem a bs)

/-- `s` with only the listed pixels set. -/
def withPixels (s : State) (l : List (Nat × Nat)) : State :=
  s.setDisp (Plane.tabulate s.cfg.width s.cfg.height fun x y => l.contains (x, y))

/-- The state after the word `w`, placed where the next step fetches, has run as that step. -/
def after (s : State) (w : Nat) : State :=
  match step (s.withFetchWord 16 w) with
  | .next t => t
  | _ => s

/-- The state after one step of `s` as it is. -/
def stepped (s : State) : State :=
  match step s with
  | .next t => t
  | _ => s

/-! ## Ill-formed terms are refused -/

theorem test_illformed_drw_no_rows : Instr.wellFormed (.drw 1 2 0) = false := by decide
theorem test_illformed_mode_classic : ∀ i ∈ [Instr.scu 1, .scd 1, .scr, .scl, .low, .high, .saveFlags 1, .restoreFlags 1,
    .drwZeroExtended 1 2], i.definedIn .classic = false ∧ i.definedIn .extended = true := by decide
theorem test_illformed_mode_extended : Instr.definedIn .extended (.drwZeroClassic 1 2) = false := by decide
theorem test_illformed_memory : ¬ Memory.wf [(0x300, 1), (0x2FF, 1)] ∧ ¬ Memory.wf [(0x300, 0)] ∧
    ¬ Memory.wf [(0x1000, 1)] := by decide
theorem test_illformed_config : ¬ Config.wf { Config.default with width := 0 } := by decide
theorem test_illformed_plane : ¬ Plane.shaped 2 1 [[false]] := by decide

/-! ## Decoding: every row of the opcode map (R95), words written out from its pattern column -/

theorem test_decode_class0 : decode .classic 0x0000 = .instr .halt ∧ decode .classic 0x00E0 = .instr .cls ∧
    decode .classic 0x00EE = .instr .ret ∧ decode .extended 0x00B3 = .instr (.scu 3) ∧
    decode .extended 0x00C9 = .instr (.scd 9) ∧ decode .extended 0x00FB = .instr .scr ∧
    decode .extended 0x00FC = .instr .scl ∧ decode .extended 0x00FE = .instr .low ∧
    decode .extended 0x00FF = .instr .high := by decide

theorem test_decode_jumps : decode .classic 0x1ABC = .instr (.jp 0xABC) ∧ decode .classic 0x2ABC = .instr (.call 0xABC) ∧
    decode .classic 0xBABC = .instr (.jpV0 0xABC) ∧ decode .classic 0xAABC = .instr (.ldI 0xABC) := by decide

theorem test_decode_skips : decode .classic 0x3A5C = .instr (.seByte 0xA 0x5C) ∧
    decode .classic 0x4A5C = .instr (.sneByte 0xA 0x5C) ∧ decode .classic 0x5AB0 = .instr (.seReg 0xA 0xB) ∧
    decode .classic 0x9AB0 = .instr (.sneReg 0xA 0xB) := by decide

theorem test_decode_loads : decode .classic 0x6A5C = .instr (.ldByte 0xA 0x5C) ∧
    decode .classic 0x7A5C = .instr (.addByte 0xA 0x5C) ∧ decode .classic 0xCA5C = .instr (.rnd 0xA 0x5C) := by decide

theorem test_decode_alu : decode .classic 0x8AB0 = .instr (.ldReg 0xA 0xB) ∧
    decode .classic 0x8AB1 = .instr (.orReg 0xA 0xB) ∧ decode .classic 0x8AB2 = .instr (.andReg 0xA 0xB) ∧
    decode .classic 0x8AB3 = .instr (.xorReg 0xA 0xB) ∧ decode .classic 0x8AB4 = .instr (.addReg 0xA 0xB) ∧
    decode .classic 0x8AB5 = .instr (.subReg 0xA 0xB) ∧ decode .classic 0x8AB6 = .instr (.shr 0xA 0xB) ∧
    decode .classic 0x8AB7 = .instr (.subn 0xA 0xB) ∧ decode .classic 0x8ABE = .instr (.shl 0xA 0xB) := by decide

theorem test_decode_draws : decode .classic 0xDAB7 = .instr (.drw 0xA 0xB 7) ∧
    decode .classic 0xDAB0 = .instr (.drwZeroClassic 0xA 0xB) ∧
    decode .extended 0xDAB0 = .instr (.drwZeroExtended 0xA 0xB) := by decide

theorem test_decode_keys_timers : decode .classic 0xEA9E = .instr (.skp 0xA) ∧ decode .classic 0xEAA1 = .instr (.sknp 0xA) ∧
    decode .classic 0xFA07 = .instr (.ldFromDt 0xA) ∧ decode .classic 0xFA0A = .instr (.ldKey 0xA) ∧
    decode .classic 0xFA15 = .instr (.ldDt 0xA) ∧ decode .classic 0xFA18 = .instr (.ldSt 0xA) := by decide

theorem test_decode_index_memory : decode .classic 0xFA1E = .instr (.addI 0xA) ∧
    decode .classic 0xFA29 = .instr (.ldFont 0xA) ∧ decode .classic 0xFA33 = .instr (.ldBcd 0xA) ∧
    decode .classic 0xFA55 = .instr (.storeBlock 0xA) ∧ decode .classic 0xFA65 = .instr (.loadBlock 0xA) ∧
    decode .extended 0xFA75 = .instr (.saveFlags 0xA) ∧ decode .extended 0xFA85 = .instr (.restoreFlags 0xA) := by decide

/-- V-C3 to V-C7: undefined patterns, by name. -/
theorem test_decode_undefined : decode .classic 0x8AB9 = .nop .noRow ∧ decode .extended 0x8AB9 = .nop .noRow ∧
    decode .classic 0x5121 = .nop .noRow ∧ decode .extended 0x5121 = .nop .noRow ∧
    decode .classic 0x9121 = .nop .noRow ∧ decode .extended 0x9121 = .nop .noRow ∧
    decode .classic 0x00FD = .nop .noRow ∧ decode .extended 0x00FD = .nop .noRow ∧
    decode .classic 0xF030 = .nop .noRow ∧ decode .extended 0xF030 = .nop .noRow ∧
    decode .classic 0x0123 = .nop .noRow ∧ decode .extended 0x0123 = .nop .noRow ∧
    decode .classic 0xE000 = .nop .noRow ∧ decode .extended 0xE000 = .nop .noRow ∧
    decode .classic 0xF000 = .nop .noRow ∧ decode .extended 0xF000 = .nop .noRow := by decide

theorem test_decode_extended_only : decode .classic 0x00C1 = .nop .extendedOnly ∧ decode .classic 0x00B1 = .nop .extendedOnly ∧
    decode .classic 0x00FB = .nop .extendedOnly ∧ decode .classic 0x00FC = .nop .extendedOnly ∧
    decode .classic 0x00FE = .nop .extendedOnly ∧ decode .classic 0x00FF = .nop .extendedOnly ∧
    decode .classic 0xF275 = .nop .extendedOnly ∧ decode .classic 0xF285 = .nop .extendedOnly := by decide

theorem test_decodeTableWord : decodeTableWord 16 0x6A5C = some (.ldByte 0xA 0x5C) ∧ decodeTableWord 16 0x8AB9 = none := by
  decide

/-! ## The step cycle and control transfer -/

/-- V-C1, V-R5. -/
theorem test_halt : step State.reset = .next State.reset := by rfl
/-- V-C2. -/
theorem test_halt_odd_pc : let s := (withBytes classic 0x200 [0x6A, 0x00, 0x00, 0xE0]).setPc 0x201
    step s = .next s := by rfl
/-- V-C3. -/
theorem test_nop : step (classic.withFetchWord 16 0x8AB9) = .next ((classic.withFetchWord 16 0x8AB9).setPc 0x202) := by
  rfl
/-- V-C8, V-C10. -/
theorem test_jp : (after classic 0x1204).pc = 0x204 ∧ (after classic 0x1001).pc = 0x001 := by decide
/-- V-C12. -/
theorem test_call : let t := after (classic.setPc 0x204) 0x220C
    t.stack[0] = 0x204 ∧ t.sp = 1 ∧ t.pc = 0x20C := by decide
/-- V-C13. -/
theorem test_ret : let t := after ((classic.push 0x204 (by decide)).setPc 0x210) 0x00EE
    t.sp = 0 ∧ t.pc = 0x206 ∧ t.stack[0] = 0x204 := by decide
/-- V-C14. -/
theorem test_ret_underflow : let t := after classic 0x00EE
    t.faultCode = 3 ∧ t.pc = 0x200 ∧ t.sp = 0 := by decide
/-- V-C15, the seventeenth call. -/
theorem test_call_overflow : let t := after { classic with sp := 16 } 0x2200
    t.faultCode = 2 ∧ t.sp = 16 ∧ t.pc = 0x200 := by decide
/-- V-C16, V-C17. -/
theorem test_jpV0 : (after (withRegs classic [(0, 0x04)]) 0xB300).pc = 0x304 ∧
    (let t := stepped (after (withRegs classic [(0, 0xFF)]) 0xBFFF); t.pc = 0x10FE ∧ t.faultCode = 1) := by decide
/-- V-C18. -/
theorem test_seByte : let s := withRegs classic [(3, 0x2A)]
    (after s 0x332A).pc = 0x204 ∧ (after s 0x332B).pc = 0x202 := by decide
/-- V-C19. -/
theorem test_sneByte : let s := withRegs classic [(3, 0x2A)]
    (after s 0x432A).pc = 0x202 ∧ (after s 0x432B).pc = 0x204 := by decide
/-- V-C20, V-C4. -/
theorem test_seReg : let s := withRegs classic [(1, 7), (2, 7)]
    (after s 0x5120).pc = 0x204 ∧ (after s 0x5121).pc = 0x202 := by decide
/-- V-C22, V-C21. -/
theorem test_sneReg : let s := withRegs classic [(1, 7), (2, 8)]
    (after s 0x9120).pc = 0x204 ∧ (after s 0x9AA0).pc = 0x202 := by decide
/-- V-C23, V-C24. -/
theorem test_fetch_range : (after (classic.setPc 0xFFE) 0x6001).pc = 0x1000 ∧
    (stepped (classic.setPc 0xFFF)).faultCode = 1 ∧ (stepped (classic.setPc 0x1000)).faultCode = 1 := by decide
/-- V-C25. -/
theorem test_faulted : let s := { (withBytes classic 0x200 [0x6A, 0x7F]) with fault := some .stackOverflow }
    step s = .next s := by rfl

/-! ## Loads and the ALU -/

/-- V-A1. -/
theorem test_ldByte : (after classic 0x6A7F).reg 0xA = 0x7F := by decide
/-- V-A2, V-A3. -/
theorem test_addByte : (let t := after (withRegs classic [(0, 0xFE)]) 0x7003; t.reg 0 = 0x01 ∧ t.reg 0xF = 0) ∧
    (after (withRegs classic [(0xF, 0xFF)]) 0x7F02).reg 0xF = 0x01 := by decide
/-- V-A4. -/
theorem test_ldReg : (after (withRegs classic [(0xF, 1)]) 0x8AF0).reg 0xA = 1 := by decide
/-- V-A5. -/
theorem test_orReg : let t := after (withRegs classic [(1, 0xF0), (2, 0x0C), (0xF, 1)]) 0x8121
    t.reg 1 = 0xFC ∧ t.reg 0xF = 1 := by decide
/-- V-A6. -/
theorem test_andReg : (after (withRegs classic [(1, 0xF0), (2, 0x3C)]) 0x8122).reg 1 = 0x30 := by decide
/-- V-A7, V-A8. -/
theorem test_xorReg : (after (withRegs classic [(1, 0xF0), (2, 0x3C)]) 0x8123).reg 1 = 0xCC ∧
    (after (withRegs classic [(0xA, 0x55)]) 0x8AA3).reg 0xA = 0 := by decide
/-- V-A10, V-A11. -/
theorem test_addReg : (let t := after (withRegs classic [(1, 0xFF), (2, 0xFF)]) 0x8124; t.reg 1 = 0xFE ∧ t.reg 0xF = 1) ∧
    (let t := after (withRegs classic [(1, 0x80), (2, 0x7F)]) 0x8124; t.reg 1 = 0xFF ∧ t.reg 0xF = 0) := by decide
/-- V-A13. -/
theorem test_addReg_into_flag : (after (withRegs classic [(0xF, 0xFF), (1, 0x01)]) 0x8F14).reg 0xF = 1 := by decide
/-- V-A15. -/
theorem test_subReg : let t := after (withRegs classic [(1, 0x03), (0, 0x0A)]) 0x8105
    t.reg 1 = 0xF9 ∧ t.reg 0xF = 0 ∧ t.reg 0 = 0x0A := by decide
/-- V-A17. -/
theorem test_subReg_equal : let t := after (withRegs classic [(0xA, 0x33)]) 0x8AA5
    t.reg 0xA = 0 ∧ t.reg 0xF = 1 := by decide
/-- V-A18, V-A19. -/
theorem test_subn : (let t := after (withRegs classic [(0, 0x0A), (1, 0x7C)]) 0x8017; t.reg 0 = 0x72 ∧ t.reg 0xF = 1) ∧
    (let t := after (withRegs classic [(1, 1), (2, 0)]) 0x8127; t.reg 1 = 0xFF ∧ t.reg 0xF = 0) := by decide
/-- V-A20. -/
theorem test_shr : let t := after (withRegs classic [(1, 0xF9), (2, 0x55)]) 0x8216
    t.reg 2 = 0x7C ∧ t.reg 1 = 0x7C ∧ t.reg 0xF = 1 := by decide
/-- V-A21, V-A22. -/
theorem test_shr_flag_register : (after (withRegs classic [(0xF, 0x03)]) 0x8FF6).reg 0xF = 1 ∧
    (after (withRegs classic [(0xF, 0x02)]) 0x8FF6).reg 0xF = 0 := by decide
/-- V-A23. -/
theorem test_shl : let t := after (withRegs classic [(2, 0x81), (1, 0x55)]) 0x812E
    t.reg 1 = 0x02 ∧ t.reg 2 = 0x02 ∧ t.reg 0xF = 1 := by decide
/-- V-A24. -/
theorem test_shl_flag_operand : let t := after (withRegs classic [(1, 0x05), (0xF, 0x81)]) 0x81FE
    t.reg 1 = 0x02 ∧ t.reg 0xF = 1 := by decide
/-- V-A26. -/
theorem test_rnd : (after { classic with rnds := [0xB7] } 0xC20F).reg 2 = 0x07 := by decide
/-- V-A27: with no queued byte the random byte is an open value, and the mask 0 still gives 0. -/
theorem test_rnd_free : (after classic 0xC200).reg 2 = 0 ∧ (after classic 0xC200).draws = 1 := by
  refine ⟨?_, by decide⟩
  show Config.freeByte 0 &&& 0 = 0
  simp

/-! ## Display -/

/-- V-D1. -/
theorem test_cls : let t := after (withPixels (small 8 2 .wrap) [(3, 1)]) 0x00E0
    t.pixel 3 1 = false ∧ Plane.shaped 8 2 t.disp := by decide
/-- V-D2, ZC8's S5: the first draw. -/
theorem test_drw : let t := after ((withBytes classic 0x300 [0xFF]).setI 0x300) 0xD011
    t.pixel 0 0 = true ∧ t.pixel 7 0 = true ∧ t.pixel 8 0 = false ∧ t.pixel 0 1 = false ∧ t.reg 0xF = 0 := by decide
/-- V-D7: a set source pixel on a set pixel. -/
theorem test_drw_collision : let t := after (withPixels ((withBytes classic 0x300 [0xC0]).setI 0x300) [(1, 0)]) 0xD011
    t.pixel 0 0 = true ∧ t.pixel 1 0 = false ∧ t.reg 0xF = 1 := by decide
/-- V-D3: the sprite wraps at the right and the bottom edge. -/
theorem test_drw_wrap : let t := after (withRegs ((withBytes classic 0x20A [0xFF, 0xFF]).setI 0x20A)
      [(0, 61), (1, 31)]) 0xD012
    t.pixel 61 31 = true ∧ t.pixel 4 31 = true ∧ t.pixel 5 31 = false ∧ t.pixel 63 0 = true ∧ t.pixel 0 0 = true ∧
      t.pixel 60 0 = false ∧ t.reg 0xF = 0 := by decide
/-- V-D8, V-D9. -/
theorem test_drw_range : (let t := after (classic.setI 0xFFF) 0xD012; t.faultCode = 4 ∧ t.pc = 0x200) ∧
    (let t := after ((withBytes classic 0xFFF [0x80]).setI 0xFFF) 0xD011; t.pixel 0 0 = true ∧ t.reg 0xF = 0) := by
  decide
/-- V-D10. -/
theorem test_drwZeroClassic : let t := after classic 0xD120
    t.faultCode = 5 ∧ t.pc = 0x200 := by decide
/-- V-D15: the byte at the lower address is the left half. -/
theorem test_drwZeroExtended : let t := after ((withBytes extended 0x300 [0x80, 0x01]).setI 0x300) 0xD010
    t.pixel 0 0 = true ∧ t.pixel 15 0 = true ∧ t.pixel 7 0 = false ∧ t.pixel 8 0 = false := by decide +kernel
/-- V-D12: on a 16×8 plane an all-set 16×16 sprite toggles every pixel twice. -/
theorem test_drwZeroExtended_overlap : let t := after ((withBytes (small 16 8 .wrap) 0x300
      (List.replicate 32 0xFF)).setI 0x300) 0xD010
    t.pixel 0 0 = false ∧ t.pixel 15 7 = false ∧ t.reg 0xF = 1 := by decide +kernel

/-! ## Keys and timers -/

/-- R287: a tick, a step, a tick; the step is 7003 at 0x200. -/
theorem test_interleaving : let s := { classic with dt := 5 }.withFetchWord 16 0x7003
    s.Runs (fun n => if n = 1 then .step else .tick) 3
      { s with dt := 3, pc := 0x202, v := s.v.set 0 3, outputs := [.frame, .frame] } := by
  rfl

/-- R287: a free-running machine whose turn is an open one; a word placed in it runs first. -/
theorem test_placed_in_free_run : let s := ({ classic with turns := some 7 } : State).withFetchWord 16 0x7003
    step s = .next { s with pending := [], v := s.v.set 0 3, pc := 0x202 } := by rfl

/-- V-K1, V-K2. -/
theorem test_skp : let s := withRegs classic [(4, 0x0A)]
    (after { s with keys := [some 0xA] } 0xE49E).pc = 0x204 ∧ (after { s with keys := [none] } 0xE49E).pc = 0x202 := by
  decide
/-- V-K3: the comparison is on 8 bits. -/
theorem test_skp_wide : (after { (withRegs classic [(4, 0x10)]) with keys := [some 0] } 0xE49E).pc = 0x202 := by decide
/-- V-K4 to V-K6. -/
theorem test_sknp : let s := withRegs classic [(4, 0x0A)]
    (after { s with keys := [some 3] } 0xE4A1).pc = 0x204 ∧ (after { s with keys := [some 0xA] } 0xE4A1).pc = 0x202 ∧
    (after { s with keys := [none] } 0xE4A1).pc = 0x204 := by decide
/-- V-K7. -/
theorem test_ldFromDt : (after (classic.setDt 0x2D) 0xF307).reg 3 = 0x2D := by decide
/-- V-K8. -/
theorem test_ldKey_waits : let t := after { classic with keys := [none, some 7] } 0xF20A
    t.pc = 0x200 ∧ t.reg 2 = 0 ∧ t.keys = [some 7] ∧ (stepped t).reg 2 = 7 ∧ (stepped t).pc = 0x202 := by decide
/-- V-K10. -/
theorem test_ldDt : let t := after (withRegs classic [(0, 0x3C)]) 0xF015
    t.dt = 60 ∧ t.outputs = [] := by decide
/-- V-K11. -/
theorem test_ldSt : let t := after (withRegs classic [(5, 2)]) 0xF518
    t.st = 2 ∧ t.outputs = [.soundStart] := by decide
/-- V-K12. -/
theorem test_ldSt_zero : let t := after (classic.setSt 9) 0xF518
    t.st = 0 ∧ t.outputs = [] := by decide
/-- V-T3. -/
theorem test_tick_sound : let s := { classic with st := 2 }
    s.tickEvent.tickEvent.tickEvent.outputs = [.frame, .soundStop, .frame, .frame] := by decide
/-- V-T4: a tick of a faulted machine, and V-T2. -/
theorem test_tick_faulted : let t := stepped { classic with dt := 5, fault := some .stackOverflow, pending := [.tick] }
    t.dt = 4 ∧ t.outputs = [.frame] ∧ t.faultCode = 2 ∧ classic.tickEvent.dt = 0 := by decide

/-! ## Index register and memory -/

/-- V-M1. -/
theorem test_ldI : (after classic 0xA300).i = 0x300 := by decide
/-- V-M2, V-M4. -/
theorem test_addI : (let t := after ((withRegs classic [(2, 0x10)]).setI 0x300) 0xF21E; t.i = 0x310 ∧ t.reg 0xF = 0) ∧
    (after ((withRegs classic [(0, 1)]).setI 0xFFFF) 0xF01E).i = 0 := by decide
/-- V-M5, V-M6. -/
theorem test_ldFont : (after (withRegs classic [(0, 3)]) 0xF029).i = 0x00F ∧
    (after (withRegs classic [(0, 0xFF)]) 0xF029).i = 0x4FB := by decide
/-- V-M8. -/
theorem test_ldBcd : let t := after ((withRegs classic [(0, 255)]).setI 0x300) 0xF033
    Memory.loadBytes t.mem 0x300 3 = [2, 5, 5] ∧ t.i = 0x300 := by decide
/-- V-M9, V-M10. -/
theorem test_ldBcd_range : (after (classic.setI 0xFFD) 0xF033).faultCode = 0 ∧
    (let t := after ((withRegs classic [(0, 9)]).setI 0xFFE) 0xF033;
      t.faultCode = 4 ∧ Memory.loadBytes t.mem 0xFFE 2 = [0, 0]) := by decide
/-- V-M11. -/
theorem test_storeBlock : let t := after ((withRegs classic [(0, 0x12), (1, 0x08)]).setI 0x208) 0xF155
    Memory.loadBytes t.mem 0x207 4 = [0, 0x12, 0x08, 0] ∧ t.i = 0x20A := by decide
/-- V-M12, V-M13. -/
theorem test_storeBlock_range : (let t := after ((withRegs classic [(0, 0xAB)]).setI 0xFFF) 0xF055;
      Memory.read t.mem 0xFFF = 0xAB ∧ t.i = 0x1000 ∧ t.faultCode = 0) ∧
    (let t := after ((withRegs classic [(0, 0xAB)]).setI 0xFFF) 0xF155;
      t.faultCode = 4 ∧ Memory.read t.mem 0xFFF = 0 ∧ t.i = 0xFFF) := by decide
/-- V-M14. -/
theorem test_loadBlock : let t := after ((withBytes (withRegs classic [(3, 9)]) 0x300 [0, 1, 5]).setI 0x300) 0xF265
    t.reg 0 = 0 ∧ t.reg 1 = 1 ∧ t.reg 2 = 5 ∧ t.reg 3 = 9 ∧ t.i = 0x303 := by decide
/-- V-M16: glyph 0 of the default font. -/
theorem test_loadBlock_font : let t := after classic 0xF465
    (t.block 4 = [0xF0, 0x90, 0x90, 0x90, 0xF0]) ∧ t.i = 5 := by decide

/-! ## Extended mode -/

/-- V-E1. -/
theorem test_scd : (after (withPixels (plane .wrap) [(2, 31)]) 0x00C1).pixel 2 0 = true ∧
    (after (withPixels (plane .clear) [(2, 31)]) 0x00C1).pixel 2 0 = false := by decide
/-- V-E2. -/
theorem test_scu : (after (withPixels (plane .wrap) [(2, 0)]) 0x00B1).pixel 2 31 = true ∧
    (after (withPixels (plane .clear) [(2, 0)]) 0x00B1).pixel 2 31 = false := by decide
/-- V-E3, V-E6. -/
theorem test_scr : (after (withPixels (plane .wrap) [(62, 31)]) 0x00FB).pixel 2 31 = true ∧
    (after (withPixels (plane .clear) [(62, 31)]) 0x00FB).pixel 2 31 = false ∧
    (after (withPixels (plane .clear) [(10, 10)]) 0x00FB).pixel 14 10 = true := by decide
/-- V-E4. -/
theorem test_scl : (after (withPixels (plane .wrap) [(1, 5)]) 0x00FC).pixel 61 5 = true ∧
    (after (withPixels (plane .clear) [(1, 5)]) 0x00FC).pixel 61 5 = false := by decide
/-- V-E9. -/
theorem test_low : (after (extended.setHires .high) 0x00FE).hires = .low := by decide
/-- V-E8. -/
theorem test_high : (after extended 0x00FF).hires = .high ∧ (after classic 0x00FF).hires = .low := by decide
/-- V-E10, and V-E12's clamp. -/
theorem test_saveFlags : let s := withRegs extended [(0, 1), (1, 2), (2, 3), (8, 3), (0xF, 9)]
    (after s 0xF275).r.toList = [1, 2, 3, 0, 0, 0, 0, 0] ∧ (after s 0xF175).r.toList = [1, 2, 0, 0, 0, 0, 0, 0] ∧
    (after s 0xFF75).r.toList = [1, 2, 3, 0, 0, 0, 0, 0] := by decide
/-- V-E11, and V-E12's clamp. -/
theorem test_restoreFlags : let s := withRegs { extended with r := #v[1, 2, 4, 0, 0, 0, 0, 6] } [(8, 3)]
    (let t := after s 0xF185; t.reg 0 = 1 ∧ t.reg 1 = 2 ∧ t.reg 2 = 0) ∧
    (let t := after s 0xFF85; t.reg 7 = 6 ∧ t.reg 8 = 3) := by decide

/-! ## Reset and load -/

/-- V-R1. -/
theorem test_reset_event : let t := ({ (withRegs (withBytes classic 0x300 [0x55]) [(3, 9)]) with
      i := 0x345, dt := 7, st := 7, pc := 0x2F0, sp := 2, fault := some .dataOutOfRange }).resetEvent
    t.reg 3 = 0 ∧ t.i = 0 ∧ t.dt = 0 ∧ t.st = 0 ∧ t.pc = 0x200 ∧ t.sp = 0 ∧ t.faultCode = 0 ∧
      Memory.read t.mem 0x300 = 0x55 ∧ t.outputs = [] := by decide
/-- V-R2. -/
theorem test_load : let t := ((withBytes (withBytes (withRegs classic [(3, 9)]) 0x250 [0x77]) 0x010 [0xAA]).setPc
      0x2F0).loadEvent [0x12, 0x00]
    Memory.loadBytes t.mem 0x200 3 = [0x12, 0x00, 0x00] ∧ Memory.read t.mem 0x250 = 0 ∧ t.pc = 0x200 ∧ t.reg 3 = 9 ∧
      Memory.read t.mem 0x010 = 0xAA := by decide
/-- V-R4. -/
theorem test_load_refused : classic.loadEvent (List.replicate 3585 1) = classic.emit .loadRefused := by
  unfold State.loadEvent
  rw [if_neg (by rw [List.length_replicate]; decide)]
/-- V-R6. -/
theorem test_load_keeps_fault : let s := ({ classic with fault := some .stackOverflow }).loadEvent [0x6A, 0x7F]
    (stepped s).reg 0xA = 0 ∧ (stepped s).pc = 0x200 ∧ (stepped s).faultCode = 2 := by decide

/-! ## Witnesses: for every obligation with hypotheses, states and operands that meet them all, at the boundary values of
its clauses -/

theorem witness_DecodeOfEncodeIsTheInstruction :
    (Instr.wellFormed (.drw 0xF 0 0xF) = true ∧ Instr.definedIn .classic (.drw 0xF 0 0xF) = true) ∧
    (Instr.wellFormed (.saveFlags 0xF) = true ∧ Instr.definedIn .extended (.saveFlags 0xF) = true) ∧
    Instr.wellFormed (.drwZeroClassic 0 0xF) = true ∧ Instr.definedIn .classic (.drwZeroClassic 0 0xF) = true := by decide

theorem witness_EncodeOfDecodeIsTheWord :
    decode .classic 0xFF65 = .instr (.loadBlock 0xF) ∧ decode .extended 0x00BF = .instr (.scu 0xF) := by decide

/-- Two machines at the last address that admits a fetch, one with a `Step` pending. -/
theorem witness_StepRunsTheDecodedInstruction : let s := (classic.setPc 0xFFE).withFetchWord 16 0x6A7F
    let u := { s with pending := [Event.step, .tick], turns := some 0 }
    s.stepIsNext ∧ u.stepIsNext ∧ s.fault = none ∧ s.pc.toNat ≤ 0xFFE ∧ u.fault = none ∧
    decode s.cfg.mode (BitVec.ofNat 16
      ((Memory.read s.mem s.pc.toNat).toNat * 256 + (Memory.read s.mem (s.pc.toNat + 1)).toNat)) =
        .instr (.ldByte 0xA 0x7F) := by decide

theorem witness_StepThatRunsNoInstruction :
    (let s := { classic with fault := some .stackOverflow }; s.stepIsNext ∧ s.fault ≠ none) ∧
    (let s := classic.setPc 0xFFF; s.stepIsNext ∧ s.fault = none ∧ 0xFFE < s.pc.toNat) ∧
    (let s := (classic.setPc 0xFFE).withFetchWord 16 0x8AB9;
      s.stepIsNext ∧ s.fault = none ∧ s.pc.toNat ≤ 0xFFE ∧ decode s.cfg.mode s.fetchWord = .nop .noRow) := by decide

theorem witness_PlacedWordIsTheNextInstruction :
    decode classic.cfg.mode (BitVec.ofNat 16 0x1204) = .instr (.jp 0x204) := by decide

theorem witness_OnlyResetLeavesTheFaultedState : let s := { classic with fault := some .dataOutOfRange }
    s.fault ≠ none ∧ s.perform .step = .next s ∧ s.perform .tick = .next s.tickEvent ∧
    s.perform .reset = .next s.resetEvent ∧ s.perform (.load [1]) = .next (s.loadEvent [1]) := by
  exact ⟨by decide, rfl, rfl, rfl, rfl⟩

/-- Each cause, at the boundary of its condition. -/
theorem witness_FaultsArePreciseAndHaveTheirCause :
    (let s := classic.setPc 0xFFF;
      s.fault = none ∧ s.stepEvent = .next (s.raiseFault .fetchOutOfRange)) ∧
    (let s := { classic with sp := 16 }.withFetchWord 16 0x2200;
      s.fault = none ∧ s.stepEvent = .next (s.raiseFault .stackOverflow)) ∧
    (let s := classic.withFetchWord 16 0x00EE;
      s.fault = none ∧ s.stepEvent = .next (s.raiseFault .stackUnderflow)) ∧
    (let s := (classic.setI 0xFFE).withFetchWord 16 0xF033;
      s.fault = none ∧ s.stepEvent = .next (s.raiseFault .dataOutOfRange)) ∧
    (let s := classic.withFetchWord 16 0xD120;
      s.fault = none ∧ s.stepEvent = .next (s.raiseFault .invalidSpriteHeight)) := by
  exact ⟨⟨rfl, rfl⟩, ⟨rfl, rfl⟩, ⟨rfl, rfl⟩, ⟨rfl, rfl⟩, rfl, rfl⟩

/-- Each of the four outcomes. -/
theorem witness_StepHasOneOfFourOutcomes :
    (let s := { classic with fault := some .stackOverflow }; s.stepEvent = .next s ∧ s.stepKind s = .faulted) ∧
    (let s := classic.withFetchWord 16 0x00EE;
      s.stepEvent = .next (s.raiseFault .stackUnderflow) ∧ s.stepKind (s.raiseFault .stackUnderflow) = .fault) ∧
    (classic.stepEvent = .next classic ∧ classic.stepKind classic = .halted) ∧
    (let s := classic.withFetchWord 16 0x8AB9;
      s.stepEvent = .next (s.setPc 0x202) ∧ s.stepKind (s.setPc 0x202) = .executed) := by
  exact ⟨⟨rfl, by decide⟩, ⟨rfl, by decide⟩, ⟨rfl, by decide⟩, rfl, by decide⟩

theorem witness_ReturnPopsTheCallStack : classic.sp.val = 0 ∧ 0 < ({ classic with sp := 1 } : State).sp.val ∧
    0 < ({ classic with sp := 16 } : State).sp.val := by decide

theorem witness_CallPushesItsOwnAddress : ({ classic with sp := 16 } : State).sp.val = 16 ∧
    ({ classic with sp := 15 } : State).sp.val ≠ 16 ∧ classic.sp.val ≠ 16 := by decide

theorem witness_ReturnLandsAfterTheCall : ({ classic with sp := 15 } : State).sp.val < 16 ∧ classic.sp.val < 16 := by decide

theorem witness_AddRegistersSetsCarry : let s := withRegs classic [(1, 0xFF), (2, 0x01), (3, 0)]
    255 < (s.reg 1).toNat + (s.reg 2).toNat ∧ ¬ 255 < (s.reg 1).toNat + (s.reg 3).toNat := by decide

theorem witness_ShiftsWriteBothRegistersAndFlag : (∀ x y : Nibble, x ≠ 0xF → y ≠ 0xF → ∀ k : Nibble, k = 0xF → k ≠ x ∧ k ≠ y) ∧
    ∃ x y k : Nibble, x ≠ 0xF ∧ y ≠ 0xF ∧ k ≠ x ∧ k ≠ y ∧ k ≠ 0xF := by
  exact ⟨fun x y hx hy k hk => ⟨hk ▸ Ne.symm hx, hk ▸ Ne.symm hy⟩, 0, 1, 0xE, by decide⟩

theorem witness_RandomByteIsMaskedAndOtherwiseFree : (0x07 : Byte) &&& 0x0F = 0x07 ∧ (0 : Byte) &&& 0 = 0 ∧
    (0xB7 : Byte) &&& 0xFF = 0xB7 := by decide

/-- The last sprite row at 0xFFF, and at 0x1000; n = 1 and n = 15. -/
theorem witness_DrawXorsTheSpriteWithWrap : (1 : Nibble) ≠ 0 ∧ (0xF : Nibble) ≠ 0 ∧ classic.cfg.wf ∧
    Plane.shaped classic.cfg.width classic.cfg.height classic.disp ∧
    (classic.setI 0xFFF).i.toNat + (1 : Nibble).toNat - 1 ≤ 0xFFF ∧
    (classic.setI 0xFF1).i.toNat + (0xF : Nibble).toNat - 1 ≤ 0xFFF ∧
    0xFFF < (classic.setI 0x1000).i.toNat + (1 : Nibble).toNat - 1 ∧
    0xFFF < (classic.setI 0xFF2).i.toNat + (0xF : Nibble).toNat - 1 := by decide

theorem witness_ExtendedDrawXorsTheWideSprite : let c := (small 16 8 .wrap)
    c.cfg.wf ∧ Plane.shaped c.cfg.width c.cfg.height c.disp ∧ (c.setI 0xFE0).i.toNat + 31 ≤ 0xFFF ∧
    0xFFF < (c.setI 0xFE1).i.toNat + 31 := by decide

theorem witness_DrawClosedFormWithoutOverlap : let s := ((small 8 15 .wrap).setI 0x300)
    Plane.shaped s.cfg.width s.cfg.height s.disp ∧ (0xF : Nibble) ≠ 0 ∧ 8 ≤ s.cfg.width ∧
    (0xF : Nibble).toNat ≤ s.cfg.height ∧ s.i.toNat + (0xF : Nibble).toNat - 1 ≤ 0xFFF ∧
    exec (.drw 0 1 0xF) s =
      .next (s.drawSprite 0 1 (classicDecode (Memory.loadBytes s.mem s.i.toNat 15))).advance := by
  exact ⟨by decide, by decide, by decide, by decide, by decide, rfl⟩

theorem witness_DrawingTwiceRestoresThePlane : let s := ((small 8 2 .wrap).setI 0xFFF)
    (1 : Nibble) ≠ 0 ∧ (0 : Nibble) ≠ 0xF ∧ s.cfg.wf ∧ Plane.shaped s.cfg.width s.cfg.height s.disp ∧
    s.i.toNat + (1 : Nibble).toNat - 1 ≤ 0xFFF := by decide

theorem witness_DrawingTwiceRestoresThePlane_blank (a b : Nat) : (small 8 2 .wrap).pixel a b = false := Plane.cell_blank _ a b

theorem witness_ExtendedWordsAreNopsInClassicMode : let s := (classic.setPc 0xFFE).withFetchWord 16 0xF275
    s.stepIsNext ∧ s.cfg.mode = .classic ∧ s.fault = none ∧ s.pc.toNat ≤ 0xFFE ∧
    Instr.definedIn .classic (.saveFlags 2) = false ∧ s.fetchWord = encode (.saveFlags 2) := by decide

theorem witness_ExtendedWordsAreNopsInClassicMode_form (x y : Nibble) : Instr.saveFlags 2 ≠ .drwZeroExtended x y := by
  intro h; cases h

/-- The first and the last row, both edge policies, n above and below the row. -/
theorem witness_VerticalScrollsMoveRows : (0 < (small 8 4 .wrap).cfg.width ∧ 3 < (small 8 4 .wrap).cfg.height) ∧
    (small 8 4 .wrap).cfg.scrollEdge = .wrap ∧ (small 8 4 .clear).cfg.scrollEdge = .clear ∧
    (3 : Nibble).toNat ≤ 3 ∧ ¬ (4 : Nibble).toNat ≤ 3 ∧ 0 + (3 : Nibble).toNat < 4 ∧ ¬ 1 + (3 : Nibble).toNat < 4 := by decide

theorem witness_HorizontalScrollsMoveColumns : (4 < (small 5 1 .wrap).cfg.width ∧ 0 < (small 5 1 .wrap).cfg.height) ∧
    (small 5 1 .wrap).cfg.scrollEdge = .wrap ∧ (small 5 1 .clear).cfg.scrollEdge = .clear ∧ (4 ≤ 4 ∧ ¬ 4 ≤ 3) ∧
    0 + 4 < 5 ∧ ¬ 1 + 4 < 5 := by decide

theorem witness_ResolutionSwitchesWriteHiresOnly :
    exec (.drw 0 1 1) classic = .next (classic.drawSprite 0 1 (classicDecode (Memory.loadBytes classic.mem 0 1))).advance ∧
    exec (.drwZeroExtended 0 1) extended =
      .next (extended.drawSprite 0 1 (extendedDecode (Memory.loadBytes extended.mem 0 32))).advance :=
  ⟨rfl, rfl⟩

theorem witness_FlagBankTransfersAtMostEight : (7 : Nibble).toNat < 8 ∧ (7 : Nibble).toNat ≤ min (0xF : Nibble).toNat 7 ∧
    ¬ (8 : Nibble).toNat ≤ min (0xF : Nibble).toNat 7 ∧ ¬ (1 : Nibble).toNat ≤ min (0 : Nibble).toNat 7 := by decide

theorem witness_KeySkipsCompareTheReportedKey : let s := withRegs { classic with keys := [some 0] } [(4, 0x10), (5, 0)]
    (∃ k, s.key = some k ∧ k.toNat = (s.reg 5).toNat) ∧ (∀ k, s.key = some k → k.toNat ≠ (s.reg 4).toNat) ∧
    ∀ k, ({ s with keys := [none] } : State).key ≠ some k := by decide

theorem witness_KeyQueried : ({ classic with keys := [none, some 7] } : State).keys = none :: [some 7] ∧ classic.keys = [] ∧
    ({ classic with rnds := [0xB7] } : State).rnds = 0xB7 :: [] ∧ classic.rnds = [] := by decide

theorem witness_KeyWaitPollsUntilAKey : ({ classic with keys := [none] } : State).key = none ∧
    ({ classic with keys := [some 0xF] } : State).key = some 0xF := by decide

theorem witness_SoundTimerLoadStartsTheSound : classic.reg 5 = 0 ∧ (withRegs classic [(5, 1)]).reg 5 ≠ 0 := by decide

theorem witness_BcdStoresThreeDigits : (classic.setI 0xFFD).i.toNat + 2 ≤ 0xFFF ∧ 0xFFF < (classic.setI 0xFFE).i.toNat + 2 := by
  decide

theorem witness_BlockTransfers : (classic.setI 0xFFF).i.toNat + (0 : Nibble).toNat ≤ 0xFFF ∧
    0xFFF < (classic.setI 0xFFF).i.toNat + (1 : Nibble).toNat ∧ (classic.setI 0xFF0).i.toNat + (0xF : Nibble).toNat ≤ 0xFFF ∧
    0xFFF < (classic.setI 0xFF1).i.toNat + (0xF : Nibble).toNat := by decide

/-- ZC8's program P5 at its fourth step. -/
theorem witness_StoredCodeIsFetchedByTheNextStep : let s := withRegs ((classic.setPc 0x206).setI 0x208) [(0, 0x6A), (1, 0x77)]
    let t := ((s.setMem (Memory.storeBytes s.mem (s.ea 0) (s.block 1))).bumpI 1).advance
    1 ≤ (1 : Nibble).toNat ∧ s.stepIsNext ∧ s.fault = none ∧ s.pc.toNat ≤ 0xFFC ∧ s.i = s.pc + 2 ∧
    s.i.toNat + (1 : Nibble).toNat ≤ 0xFFF ∧ exec (.storeBlock 1) s = .next t ∧
    decode s.cfg.mode (BitVec.ofNat 16 ((s.reg 0).toNat * 256 + (s.reg 1).toNat)) = .instr (.ldByte 0xA 0x77) := by
  exact ⟨by decide, rfl, rfl, by decide, by decide, by decide, rfl, by decide⟩

theorem witness_TickCountsBothTimersDown : ({ classic with st := 1 } : State).st = 1 ∧ classic.st ≠ 1 ∧
    ({ classic with st := 2 } : State).st ≠ 1 := by decide

theorem witness_ManyTicksStopAtZero : let s := { classic with dt := 60, st := 1 }
    (0 < s.st.toNat ∧ s.st.toNat ≤ 1) ∧ ¬ (0 < s.st.toNat ∧ s.st.toNat ≤ 0) := by decide

/-- Ticks and steps in turn: both agents' turns keep coming. -/
theorem witness_KeepsComing (a : Agent) : KeepsComing a (fun n => if n % 2 = 0 then .step else .tick) := by
  intro n
  cases a with
  | step => exact ⟨2 * n, by omega, by simp⟩
  | tick => exact ⟨2 * n + 1, by omega, by simp [Nat.add_mod]⟩

theorem witness_ManyTicksStopAtZero_stopped : let s := { classic with dt := 60, st := 1 }
    s.halted ∧ ({ s with fault := some .stackOverflow } : State).faulted ∧
    (let u := s.withFetchWord 16 0x1204;
      u.fault = none ∧ u.pc.toNat ≤ 0xFFE ∧ decode u.cfg.mode u.fetchWord = .instr (.jp 0x204)) := by decide

theorem witness_ResetRestoresPowerOnValues : (15 < 16 ∧ 0 < 16) ∧ 7 < 8 ∧ 0 < 8 := by decide

theorem witness_LoadReplacesTheProgramOnly : 3584 < (List.replicate 3585 (1 : Byte)).length ∧
    (List.replicate 3584 (1 : Byte)).length ≤ 3584 ∧ 0 < [(0x12 : Byte), 0x00].length ∧
    0x200 + [(0x12 : Byte), 0x00].length ≤ 0x202 ∧ 0x1FF < 0x200 := by
  rw [List.length_replicate, List.length_replicate]; decide

theorem witness_LoadedProgramRunsFromItsFirstWord : classic.stepIsNext ∧ ([] : List Byte).length ≤ 3582 ∧
    (List.replicate 3582 (0 : Byte)).length ≤ 3582 ∧
    decode classic.cfg.mode (BitVec.ofNat 16 ((0x12 : Byte).toNat * 256 + (0x00 : Byte).toNat)) = .instr (.jp 0x200) := by
  rw [List.length_replicate]; decide

theorem witness_PowerOnMemoryHoldsFontLowmemZeros : 0x4F < 0x50 ∧ (0x50 ≤ 0x50 ∧ 0x1FF < 0x200) ∧
    (0x200 ≤ 0xFFF ∧ 0xFFF ≤ 0xFFF) ∧ Config.default.wf := by decide

theorem witness_WholeMachineRules : (step classic = .next classic ∧ State.reset.Inv ∧ step State.reset = .next State.reset) ∧
    exec (.ldByte 0xF 1) classic = .next (classic.setReg 0xF 1).advance ∧
    (classic.setReg 0xF 1).advance.reg 0xF ≠ classic.reg 0xF ∧
    exec .cls classic = .next (classic.setDisp (blankPlane classic.cfg)).advance := by
  exact ⟨⟨rfl, by decide, rfl⟩, rfl, by decide, rfl⟩

/-- Instructions that write each kind of state named in `SpecialStateHasOnlyItsWriters`, each with a change. -/
theorem witness_SpecialStateHasOnlyItsWriters : (after classic 0xA300).i ≠ classic.i ∧
    (after (withRegs classic [(0, 1)]) 0xF015).dt ≠ classic.dt ∧ (after (withRegs classic [(0, 1)]) 0xF018).st ≠ classic.st ∧
    (after extended 0x00FF).hires ≠ extended.hires ∧ (after (withRegs extended [(0, 1)]) 0xF075).r ≠ extended.r ∧
    (after (withPixels (small 8 2 .wrap) [(3, 1)]) 0x00E0).disp ≠ (withPixels (small 8 2 .wrap) [(3, 1)]).disp := by decide

theorem witness_InputsAndUnreadState : (∀ x, Instr.cls ≠ .skp x ∧ Instr.cls ≠ .sknp x ∧ Instr.cls ≠ .ldKey x) ∧
    (∀ x kk, Instr.cls ≠ .rnd x kk) ∧ (∀ x, Instr.cls ≠ .ldSt x ∧ Instr.cls ≠ .ldBcd x ∧ Instr.cls ≠ .storeBlock x) ∧
    Instr.cls ≠ .low ∧ Instr.cls ≠ .high ∧ Instr.cls ≠ .ret ∧ ∀ a, Instr.cls ≠ .call a := by
  simp

end Sys2Proof.Tests
end

section
/-! The halt sentinel (spec/30_encoding.md R96; its effect in spec/40_step_and_control.md R121). -/

namespace Sys2Proof.Machine

/-- HALT has no closing `advance` (R121): its answer is the given state, PC included. -/
@[simp] theorem exec_halt (s : State) : exec .halt s = .next s := rfl

/-- Settles O9: the decoder's answer on the zero word, and HALT's effect on any state. -/
theorem haltChangesNothing : Obligations.HaltChangesNothing :=
  ⟨decode_zero, exec_halt⟩

end Sys2Proof.Machine
end

section
/-! The jump and the conditional skips: their words (spec/30_encoding.md R94, R95) and their effects
(spec/40_step_and_control.md R124, R127 to R131). -/

namespace Sys2Proof.Machine

/-! ## Decoding, in both modes -/

theorem decode_withAddr_jp (m : Mode) (nnn : Addr) : decode m (withAddr 0x1 nnn) = .instr (.jp nnn) := by
  simp [decode]

theorem decode_withByte_seByte (m : Mode) (x : Nibble) (kk : Byte) :
    decode m (withByte 0x3 x kk) = .instr (.seByte x kk) := by
  simp [decode]

theorem decode_withByte_sneByte (m : Mode) (x : Nibble) (kk : Byte) :
    decode m (withByte 0x4 x kk) = .instr (.sneByte x kk) := by
  simp [decode]

theorem decode_digits_seReg (m : Mode) (x y : Nibble) : decode m (digits 0x5 x y 0x0) = .instr (.seReg x y) := by
  simp [decode]

theorem decode_digits_sneReg (m : Mode) (x y : Nibble) : decode m (digits 0x9 x y 0x0) = .instr (.sneReg x y) := by
  simp [decode]

/-! ## The jump -/

theorem zext16_eq_ofNat (nnn : Addr) : zext16 nnn = BitVec.ofNat 16 nnn.toNat :=
  (BitVec.ofNat_toNat 16 nnn).symm

/-- The net effect of R124: the biased PC and the step's + 2 cancel (R131). -/
theorem exec_jp (nnn : Addr) (s : State) : exec (.jp nnn) s = .next (s.setPc (zext16 nnn)) :=
  congrArg Host.Outcome.next (s.advance_setPc_biased (zext16 nnn))

/-- Settles O15: the biased write and the closing + 2 give the word's own target. -/
theorem jumpLandsOnItsTarget : Obligations.JumpLandsOnItsTarget := fun nnn =>
  ⟨fun m => decode_withAddr_jp m nnn, fun s => by rw [exec_jp, zext16_eq_ofNat]; rfl⟩

/-! ## The skips -/

section skips
variable (s : State) (x y : Nibble) (kk : Byte)

theorem State.skipIf_beq (a b : Byte) :
    s.skipIf (a == b) = { s with pc := if a = b then s.pc + 4 else s.pc + 2 } := by
  simp only [State.skipIf_eq, beq_iff_eq]

theorem State.skipIf_bne (a b : Byte) :
    s.skipIf (a != b) = { s with pc := if a = b then s.pc + 2 else s.pc + 4 } := by
  simp only [State.skipIf_eq, bne_iff_ne, ite_not]

theorem exec_seByte : exec (.seByte x kk) s = .next (s.skipIf (s.reg x == kk)) := rfl
theorem exec_sneByte : exec (.sneByte x kk) s = .next (s.skipIf (s.reg x != kk)) := rfl
theorem exec_seReg : exec (.seReg x y) s = .next (s.skipIf (s.reg x == s.reg y)) := rfl
theorem exec_sneReg : exec (.sneReg x y) s = .next (s.skipIf (s.reg x != s.reg y)) := rfl

end skips

/-- Settles O18: each skip is `skipIf` of its comparison, which adds 4 or 2 to PC and keeps every other field. -/
theorem skipsCompareForEquality : Obligations.SkipsCompareForEquality := by
  intro x y kk
  constructor
  · intro m
    exact ⟨decode_withByte_seByte m x kk, decode_withByte_sneByte m x kk, decode_digits_seReg m x y,
      decode_digits_sneReg m x y⟩
  · intro s
    simp only [exec_seByte, exec_sneByte, exec_seReg, exec_sneReg, State.skipIf_beq, State.skipIf_bne, and_self]

end Sys2Proof.Machine
end

section
/-! The register loads, the bitwise operations and ADD Vx kk: their words (spec/30_encoding.md R94, R95) and their
effects (spec/41_load_and_alu.md R150 to R155). -/

namespace Sys2Proof.Machine

/-! ## Decoding, in both modes -/

theorem decode_withByte_ldByte (m : Mode) (x : Nibble) (kk : Byte) :
    decode m (withByte 0x6 x kk) = .instr (.ldByte x kk) := by
  simp [decode]

theorem decode_withByte_addByte (m : Mode) (x : Nibble) (kk : Byte) :
    decode m (withByte 0x7 x kk) = .instr (.addByte x kk) := by
  simp [decode]

/-- Every word of class 8, in any mode, is left to `decode8`, which selects the operation by the last digit. -/
theorem decode_digits_class8 (m : Mode) (x y n : Nibble) : decode m (digits 0x8 x y n) = decode8 x y n := by
  simp [decode]

/-! ## Effects -/

section effects
variable (s : State) (x y : Nibble) (kk : Byte)

theorem exec_ldByte : exec (.ldByte x kk) s = .next (s.setReg x kk).advance := rfl
theorem exec_addByte : exec (.addByte x kk) s = .next (s.setReg x (s.reg x + kk)).advance := rfl
theorem exec_ldReg : exec (.ldReg x y) s = .next (s.setReg x (s.reg y)).advance := rfl
theorem exec_orReg : exec (.orReg x y) s = .next (s.setReg x (s.reg x ||| s.reg y)).advance := rfl
theorem exec_andReg : exec (.andReg x y) s = .next (s.setReg x (s.reg x &&& s.reg y)).advance := rfl
theorem exec_xorReg : exec (.xorReg x y) s = .next (s.setReg x (s.reg x ^^^ s.reg y)).advance := rfl

end effects

/-- One register write and the closing `advance` are the whole effect `WritesReg` states, for VF as for any other
register (R21). -/
theorem writesReg_of_exec {i : Instr} {s : State} {x : Nibble} {b : Byte}
    (h : exec i s = .next (s.setReg x b).advance) : WritesReg i s x b := by
  refine ⟨(s.setReg x b).advance, h, ?value, ?otherRegs, ?frame, ?memory⟩
  case value => rw [State.reg_advance, State.reg_setReg_same]
  case otherRegs =>
    intro k hk
    rw [State.reg_advance, State.reg_setReg_ne s x k b hk]
  case frame => rfl
  case memory => exact fun a => rfl

/-- Settles O20: the five words decode to their rows, and each meaning is one register write followed by `advance`. -/
theorem loadsAndLogicWriteVxOnly : Obligations.LoadsAndLogicWriteVxOnly := by
  intro x y kk
  constructor
  · intro m
    simp only [decode_digits_class8]
    exact ⟨decode_withByte_ldByte m x kk, rfl, rfl, rfl, rfl⟩
  · intro s
    exact ⟨writesReg_of_exec (exec_ldByte s x kk), writesReg_of_exec (exec_ldReg s x y),
      writesReg_of_exec (exec_orReg s x y), writesReg_of_exec (exec_andReg s x y),
      writesReg_of_exec (exec_xorReg s x y)⟩

/-- Settles O21: the meaning is one register write of the 8-bit sum, and that sum is the sum modulo 256. -/
theorem addByteWrapsWithoutFlag : Obligations.AddByteWrapsWithoutFlag := by
  intro x kk
  constructor
  · exact fun m => decode_withByte_addByte m x kk
  · intro s
    rw [← add_eq]
    exact writesReg_of_exec (exec_addByte s x kk)

end Sys2Proof.Machine
end

section
/-! CLS: its word (spec/30_encoding.md R95) and its effect (spec/42_display.md R187). -/

namespace Sys2Proof.Machine

theorem decode_clsWord (m : Mode) : decode m 0x00E0 = .instr .cls := by cases m <;> rfl

theorem exec_cls (s : State) : exec .cls s = .next (s.setDisp (blankPlane s.cfg)).advance := rfl

theorem State.pixel_of_disp_blank {t : State} {c : Config} (h : t.disp = blankPlane c) (x y : Nat) :
    t.pixel x y = false := by
  rw [State.pixel, h, Plane.cell_blank]

/-- Settles O26: the meaning is one write of the blank plane followed by `advance`; that plane has the configured
shape and every cell 0, and no other field but PC is written. -/
theorem clearScreenZeroesThePlane : Obligations.ClearScreenZeroesThePlane := by
  refine ⟨decode_clsWord, fun s => ⟨(s.setDisp (blankPlane s.cfg)).advance, exec_cls s, ?pixels, ?shape, ?frame, ?memory⟩⟩
  case pixels => exact State.pixel_of_disp_blank rfl
  case shape => exact Plane.shaped_blank s.cfg
  case frame => rfl
  case memory => exact fun a => rfl

end Sys2Proof.Machine
end

section
/-! The keypad and timer instructions: their words (spec/30_encoding.md R94, R95) and their effects
(spec/43_keys_and_timers.md R210 to R215). -/

namespace Sys2Proof.Machine

/-! ## Decoding, in both modes -/

/-- Every word of class E, in any mode, is left to `decodeE`, which selects the operation by the low byte. -/
theorem decode_withByte_classE (m : Mode) (x : Nibble) (kk : Byte) :
    decode m (withByte 0xE x kk) = decodeE x kk := by
  simp [decode]

/-- Every word of class F is left to `decodeF`, which selects the operation by the low byte. -/
theorem decode_withByte_classF (m : Mode) (x : Nibble) (kk : Byte) :
    decode m (withByte 0xF x kk) = decodeF m x kk := by
  simp [decode]

/-! ## The key query -/

/-- A state that holds the answers `takeKey` leaves has made one key query. -/
theorem keyQueried_of_takeKey {s t : State} (hk : t.keys = s.takeKey.keys) (hd : t.draws = s.takeKey.draws) :
    KeyQueried s t := by
  rw [KeyQueried, hk, hd]
  rcases s.key_cases with ⟨k, ks, hq, hkey, ht⟩ | ⟨hq, hkey, ht⟩
  · constructor
    · intro k' ks' h
      obtain ⟨rfl, rfl⟩ := List.cons.inj (hq.symm.trans h)
      exact ⟨hkey, by rw [ht], by rw [ht]⟩
    · intro h
      exact absurd (hq.symm.trans h) (List.cons_ne_nil k ks)
  · constructor
    · intro k' ks' h
      exact absurd (h.symm.trans hq) (List.cons_ne_nil k' ks')
    · intro _
      exact ⟨hkey, by rw [ht, hq], by rw [ht]⟩

theorem setWidth_key_toNat (k : Nibble) : (k.setWidth 8).toNat = k.toNat :=
  BitVec.toNat_setWidth_of_le (by decide)

theorem State.keyIs_iff (s : State) (x : Nibble) :
    s.keyIs x = true ↔ ∃ k, s.key = some k ∧ k.toNat = (s.reg x).toNat := by
  unfold State.keyIs
  cases s.key with
  | none => simp
  | some k =>
    simp only [beq_iff_eq, Option.some.injEq, exists_eq_left']
    rw [← BitVec.toNat_inj, setWidth_key_toNat]

/-! ## Effects -/

/-- A key skip writes PC and uses up the answer, and writes no other field. -/
theorem State.takeKey_skipIf_eq (s : State) (c : Bool) :
    s.takeKey.skipIf c =
      { s with pc := if c = true then s.pc + 4 else s.pc + 2, keys := s.takeKey.keys, draws := s.takeKey.draws } := by
  rw [State.skipIf_eq, s.takeKey_eq]

section effects
variable (s : State) (x : Nibble)

theorem exec_skp : exec (.skp x) s = .next { s with
    pc := if s.keyIs x = true then s.pc + 4 else s.pc + 2, keys := s.takeKey.keys, draws := s.takeKey.draws } :=
  congrArg Host.Outcome.next (s.takeKey_skipIf_eq (s.keyIs x))

theorem exec_sknp : exec (.sknp x) s = .next { s with
    pc := if s.keyIs x = true then s.pc + 2 else s.pc + 4, keys := s.takeKey.keys, draws := s.takeKey.draws } := by
  refine congrArg Host.Outcome.next ((s.takeKey_skipIf_eq (!s.keyIs x)).trans ?_)
  cases s.keyIs x <;> rfl

theorem exec_ldFromDt : exec (.ldFromDt x) s = .next (s.setReg x s.dt).advance := rfl
theorem exec_ldDt : exec (.ldDt x) s = .next (s.setDt (s.reg x)).advance := rfl

/-- A key-wait without a key uses up the answer and nothing else: the rewind and the step's + 2 cancel (R213). -/
theorem exec_ldKey_of_none (h : s.key = none) :
    exec (.ldKey x) s = .next { s with keys := s.takeKey.keys, draws := s.takeKey.draws } := by
  have hpc : s.pc - 2 + 2 = s.pc := BitVec.sub_add_cancel s.pc 2
  have he : exec (.ldKey x) s = .next (s.takeKey.setPc (s.pc - 2 + 2)) := by
    simp only [exec, execLdKey, h]; rfl
  rw [he, hpc, s.takeKey_eq]; rfl

theorem exec_ldKey_of_some {k : Nibble} (h : s.key = some k) :
    exec (.ldKey x) s = .next
      ({ s with keys := s.takeKey.keys, draws := s.takeKey.draws }.setReg x (k.setWidth 8)).advance := by
  have he : exec (.ldKey x) s = .next (s.takeKey.setReg x (k.setWidth 8)).advance := by
    simp only [exec, execLdKey, h]
  rw [he, s.takeKey_eq]

theorem exec_ldSt_of_eq_zero (h : s.reg x = 0) : exec (.ldSt x) s = .next (s.setSt (s.reg x)).advance := by
  simp [exec, execLdSt, h]

theorem exec_ldSt_of_ne_zero (h : s.reg x ≠ 0) :
    exec (.ldSt x) s = .next ((s.setSt (s.reg x)).emit .soundStart).advance := by
  have hpos : 0 < (s.reg x).toNat := Nat.pos_of_ne_zero fun h0 => h (BitVec.eq_of_toNat_eq h0)
  simp only [exec, execLdSt, if_pos hpos]

end effects

/-! ## The obligations on single instructions -/

/-- Settles O37: both skips test `keyIs` on one query, the one its truth and the other its negation. -/
theorem keySkipsCompareTheReportedKey : Obligations.KeySkipsCompareTheReportedKey := by
  intro x
  constructor
  · intro m
    simp only [decode_withByte_classE]
    exact ⟨rfl, rfl⟩
  · intro s
    refine ⟨_, _, exec_skp s x, exec_sknp s x, keyQueried_of_takeKey rfl rfl, keyQueried_of_takeKey rfl rfl, ?pressed,
      ?notPressed, rfl, rfl, fun _ => rfl, fun _ => rfl⟩
    case pressed =>
      intro h
      have hkey : s.keyIs x = true := (s.keyIs_iff x).2 h
      exact ⟨if_pos hkey, if_pos hkey⟩
    case notPressed =>
      intro h
      have hkey : ¬ s.keyIs x = true := by
        rw [s.keyIs_iff x]
        rintro ⟨k, hk, hval⟩
        exact h k hk hval
      exact ⟨if_neg hkey, if_neg hkey⟩

/-- Settles O38: without a key the rewind and the step's + 2 cancel; with one the answer goes to Vx. -/
theorem keyWaitPollsUntilAKey : Obligations.KeyWaitPollsUntilAKey := by
  intro x
  constructor
  · intro m
    rw [decode_withByte_classF]; rfl
  · intro s
    cases hkey : s.key with
    | none =>
      refine ⟨_, exec_ldKey_of_none s x hkey, keyQueried_of_takeKey rfl rfl, ?noKey, ?key, ?memory⟩
      case noKey => exact fun _ => rfl
      case key => exact fun k h => nomatch h
      case memory => exact fun a => rfl
    | some k =>
      refine ⟨_, exec_ldKey_of_some s x hkey, keyQueried_of_takeKey rfl rfl, ?noKey, ?key, ?memory⟩
      case noKey => exact fun h => nomatch h
      case key =>
        rintro _ ⟨⟩
        refine ⟨?value, ?otherRegs, rfl⟩
        case value => rw [State.reg_advance, State.reg_setReg_same, setWidth_key_toNat]
        case otherRegs =>
          intro j hj
          rw [State.reg_advance, State.reg_setReg_ne _ x j _ hj]; rfl
      case memory => exact fun a => rfl

/-- Settles O39: the read of DT is one register write, the write of DT one write of that field. -/
theorem delayTimerIsReadAndSet : Obligations.DelayTimerIsReadAndSet := by
  intro x
  constructor
  · intro m
    simp only [decode_withByte_classF]
    exact ⟨rfl, rfl⟩
  · intro s
    exact ⟨writesReg_of_exec (exec_ldFromDt s x), exec_ldDt s x⟩

/-- Settles O40, by whether the value written is 0. -/
theorem soundTimerLoadStartsTheSound : Obligations.SoundTimerLoadStartsTheSound := by
  intro x
  constructor
  · intro m
    rw [decode_withByte_classF]; rfl
  · intro s
    by_cases h : s.reg x = 0
    · rw [exec_ldSt_of_eq_zero s x h, if_pos h, List.append_nil]; rfl
    · rw [exec_ldSt_of_ne_zero s x h, if_neg h]; rfl

end Sys2Proof.Machine
end

section
/-! Many ticks (spec/60_exceptions.md R286), and interleavings in which an agent's turns keep coming (R287). -/

namespace Sys2Proof.Machine

/-! ## One tick -/

/-- A tick writes the two timers and the outputs, and no other field. -/
theorem State.tickEvent_eq (s : State) :
    s.tickEvent = { s with dt := s.tickEvent.dt, st := s.tickEvent.st, outputs := s.tickEvent.outputs } := by
  have hs := s.tickDelay.tickSound_eq.1
  unfold State.tickEvent
  rw [hs, s.tickDelay_eq.1]; rfl

theorem State.tickEvent_dt_toNat (s : State) : s.tickEvent.dt.toNat = s.dt.toNat - 1 := by
  have hd := s.tickDelay_eq.2
  show s.tickDelay.tickSound.dt.toNat = _
  rwa [s.tickDelay.tickSound_dt]

theorem State.tickEvent_st_toNat (s : State) : s.tickEvent.st.toNat = s.st.toNat - 1 := by
  have hs := s.tickDelay.tickSound_eq.2.1
  rwa [s.tickDelay_st] at hs

theorem State.tickEvent_outputs (s : State) :
    s.tickEvent.outputs = s.outputs ++ (if s.st = 1 then [.soundStop] else []) ++ [.frame] := by
  show s.tickDelay.tickSound.outputs ++ [.frame] = _
  rw [s.tickDelay.tickSound_eq.2.2, s.tickDelay_st, s.tickDelay_outputs]

/-! ## Many ticks -/

theorem State.iterate_tickEvent_eq (n : Nat) (s : State) :
    State.tickEvent^[n] s = { s with
      dt := (State.tickEvent^[n] s).dt, st := (State.tickEvent^[n] s).st,
      outputs := (State.tickEvent^[n] s).outputs } := by
  induction n with
  | zero => rfl
  | succ n ih => rw [Function.iterate_succ_apply', State.tickEvent_eq, ih]

theorem State.iterate_tickEvent_dt_toNat (n : Nat) (s : State) :
    (State.tickEvent^[n] s).dt.toNat = s.dt.toNat - n := by
  induction n with
  | zero => rfl
  | succ n ih => rw [Function.iterate_succ_apply', State.tickEvent_dt_toNat, ih, Nat.sub_sub]

theorem State.iterate_tickEvent_st_toNat (n : Nat) (s : State) :
    (State.tickEvent^[n] s).st.toNat = s.st.toNat - n := by
  induction n with
  | zero => rfl
  | succ n ih => rw [Function.iterate_succ_apply', State.tickEvent_st_toNat, ih, Nat.sub_sub]

/-- A timer holds at most 255, so as many ticks bring it to 0. -/
theorem eq_zero_of_toNat_eq_sub {a b : Byte} {n : Nat} (h : a.toNat = b.toNat - n) (hn : 255 ≤ n) : a = 0 := by
  have hb := b.isLt
  have ha : a.toNat = 0 := by omega
  exact BitVec.eq_of_toNat_eq ha

theorem State.count_frame_iterate_tickEvent (n : Nat) (s : State) :
    (State.tickEvent^[n] s).outputs.count .frame = s.outputs.count .frame + n := by
  induction n with
  | zero => rfl
  | succ n ih =>
    rw [Function.iterate_succ_apply', State.tickEvent_outputs, List.count_append, List.count_append, ih]
    split <;> rfl

/-- The stop event comes with the one tick that takes ST from 1 to 0. -/
theorem State.count_soundStop_iterate_tickEvent (n : Nat) (s : State) :
    (State.tickEvent^[n] s).outputs.count .soundStop =
      s.outputs.count .soundStop + (if 0 < s.st.toNat ∧ s.st.toNat ≤ n then 1 else 0) := by
  induction n with
  | zero => rw [if_neg (by omega)]; rfl
  | succ n ih =>
    have hst : (State.tickEvent^[n] s).st = 1 ↔ s.st.toNat = n + 1 := by
      rw [← BitVec.toNat_inj, State.iterate_tickEvent_st_toNat]
      show s.st.toNat - n = 1 ↔ _
      omega
    rw [Function.iterate_succ_apply', State.tickEvent_outputs, List.count_append, List.count_append, ih]
    simp only [hst]
    by_cases h : s.st.toNat = n + 1
    · rw [if_neg (by omega), if_pos h, if_pos (by omega)]; rfl
    · rw [if_neg h]
      simp only [show s.st.toNat ≤ n + 1 ↔ s.st.toNat ≤ n by omega]; rfl

/-! ## Runs under an interleaving -/

theorem stepEvent_of_decode {s : State} {i : Instr} (hf : s.fault = none) (hpc : s.pc.toNat ≤ 0xFFE)
    (hd : decode s.cfg.mode s.fetchWord = .instr i) : s.stepEvent = exec i s := by
  rw [State.stepEvent, if_neg (by simp [hf]), if_pos (s.canFetch_iff.2 hpc), hd]; rfl

/-- Ticks leave the instruction at PC the next one to run (R286). -/
theorem stepEvent_iterate_tickEvent {s : State} {i : Instr} (hf : s.fault = none) (hpc : s.pc.toNat ≤ 0xFFE)
    (hd : decode s.cfg.mode s.fetchWord = .instr i) (m : Nat) :
    (State.tickEvent^[m] s).stepEvent = exec i (State.tickEvent^[m] s) := by
  rw [State.iterate_tickEvent_eq]
  exact stepEvent_of_decode hf hpc hd

/-- A `Step` of a halted or faulted machine changes nothing (R121, R281). -/
theorem stepEvent_of_stopped {s : State} (h : s.halted ∨ s.faulted) : s.stepEvent = .next s := by
  rcases h with ⟨hf, hc, hw⟩ | hf
  · exact stepEvent_of_decode hf (s.canFetch_iff.1 hc) (by rw [hw, decode_zero])
  · exact stepEvent_of_fault hf

theorem State.stopped_tickEvent {s : State} (h : s.halted ∨ s.faulted) :
    s.tickEvent.halted ∨ s.tickEvent.faulted := by
  rw [s.tickEvent_eq]; exact h

/-- A halted or faulted machine is changed by the ticks among the turns, and by nothing else. -/
theorem State.runs_of_stopped {s : State} (h : s.halted ∨ s.faulted) (f : Nat → Agent) (k : Nat) :
    s.Runs f k { State.tickEvent^[Nat.count (fun j => f j = .tick) k] s with pending := [] } := by
  induction k generalizing s f with
  | zero => exact (s.runs_zero f _).2 rfl
  | succ k ih =>
    rw [Nat.count_succ']
    cases h0 : f 0 with
    | step =>
      have hp : s.perform (agentEvent (f 0)) = .next s := by rw [h0]; exact stepEvent_of_stopped h
      exact (State.runs_succ hp k _).2 (ih h _)
    | tick =>
      have hp : s.perform (agentEvent (f 0)) = .next s.tickEvent := by rw [h0]; rfl
      exact (State.runs_succ hp k _).2 (ih (State.stopped_tickEvent h) _)

/-- A run that begins with `m` turns of the tick agent is those ticks and the run of the turns after them. -/
theorem State.runs_ticks_add {f : Nat → Agent} {m : Nat} (h : ∀ j < m, f j = .tick) (s : State) (k : Nat)
    (t : State) : s.Runs f (m + k) t ↔ (State.tickEvent^[m] s).Runs (fun j => f (j + m)) k t := by
  induction m generalizing s f with
  | zero => rw [Nat.zero_add]; rfl
  | succ m ih =>
    have hp : s.perform (agentEvent (f 0)) = .next s.tickEvent := by rw [h 0 m.succ_pos]; rfl
    rw [Nat.add_right_comm, State.runs_succ hp, ih fun j hj => h (j + 1) (Nat.succ_lt_succ hj)]; rfl

/-- An agent whose turns keep coming has had any number of them after some turns. -/
theorem KeepsComing.exists_count_eq {a : Agent} {f : Nat → Agent} (h : KeepsComing a f) (n : Nat) :
    ∃ k, Nat.count (fun j => f j = a) k = n :=
  ⟨_, Nat.count_nth_of_infinite (Nat.frequently_atTop_iff_infinite.1 (Filter.frequently_atTop.2 h)) n⟩

/-- Where ticks keep coming, a halted or faulted machine comes to have both timers at 0: 255 ticks are enough. -/
theorem State.exists_runs_timers_zero {f : Nat → Agent} {s : State} (hf : KeepsComing .tick f)
    (hs : s.halted ∨ s.faulted) : ∃ k t, s.Runs f k t ∧ t.dt = 0 ∧ t.st = 0 := by
  obtain ⟨k, hk⟩ := hf.exists_count_eq 255
  exact ⟨k, _, State.runs_of_stopped hs f k, eq_zero_of_toNat_eq_sub (s.iterate_tickEvent_dt_toNat _) hk.ge,
    eq_zero_of_toNat_eq_sub (s.iterate_tickEvent_st_toNat _) hk.ge⟩

theorem KeepsComing.exists_first_step {f : Nat → Agent} (h : KeepsComing .step f) :
    ∃ m, f m = .step ∧ ∀ j < m, f j = .tick := by
  have hstep : ∃ m, f m = .step := (h 0).imp fun _ hm => hm.2
  refine ⟨Nat.find hstep, Nat.find_spec hstep, fun j hj => ?_⟩
  cases hfj : f j with
  | step => exact absurd hfj (Nat.find_min hstep hj)
  | tick => rfl

/-- Where steps keep coming, the instruction at PC is run at the first of them, after the ticks before it. -/
theorem State.exists_runs_exec {f : Nat → Agent} {s : State} {i : Instr} (hf : KeepsComing .step f)
    (hfault : s.fault = none) (hpc : s.pc.toNat ≤ 0xFFE) (hd : decode s.cfg.mode s.fetchWord = .instr i) :
    ∃ m t, s.Runs f (m + 1) t ∧ exec i { State.tickEvent^[m] s with pending := [] } = .next t := by
  obtain ⟨m, hm, hticks⟩ := hf.exists_first_step
  obtain ⟨t, ht⟩ := exec_next i (State.tickEvent^[m] s)
  obtain ⟨-, -, hturns⟩ := exec_cfg_pending ht
  refine ⟨m, t.withEvents [] (State.tickEvent^[m] s).turns, ?run, exec_withEvents ht [] _⟩
  have hp : (State.tickEvent^[m] s).perform (agentEvent (f (0 + m))) = .next t := by
    rw [Nat.zero_add, hm]
    exact (stepEvent_iterate_tickEvent hfault hpc hd m).trans ht
  rw [State.runs_ticks_add hticks, State.runs_succ hp, State.runs_zero, ← hturns]; rfl

/-- Settles O47: the counts by induction on the ticks; the zero timers at the 255th tick of the interleaving; the
instruction at its first step. -/
theorem manyTicksStopAtZero : Obligations.ManyTicksStopAtZero := by
  refine ⟨fun n s => ?counts, fun f s => State.exists_runs_timers_zero, fun f s i => State.exists_runs_exec⟩
  case counts =>
    exact ⟨s.iterate_tickEvent_dt_toNat n, s.iterate_tickEvent_st_toNat n, s.count_frame_iterate_tickEvent n,
      s.count_soundStop_iterate_tickEvent n⟩

end Sys2Proof.Machine
end

section
/-! The index register and memory instructions: their words (spec/30_encoding.md R94, R95) and their effects
(spec/44_index_and_memory.md R230 to R236). -/

namespace Sys2Proof.Machine

/-! ## Decoding and arithmetic -/

theorem decode_withAddr_ldI (m : Mode) (nnn : Addr) : decode m (withAddr 0xA nnn) = .instr (.ldI nnn) := by
  simp [decode]

theorem add_setWidth_eq (w : Word) (b : Byte) :
    w + b.setWidth 16 = BitVec.ofNat 16 ((w.toNat + b.toNat) % 65536) := by
  apply BitVec.eq_of_toNat_eq
  simp

/-! ## What a run of stored bytes leaves in memory -/

theorem sameMemoryOutside_of_storeBytes {s t : State} {base len : Nat} {bs : List Byte}
    (h : t.mem = Memory.storeBytes s.mem base bs) (hlen : bs.length = len) : SameMemoryOutside base len s t := by
  intro a ha
  rw [h, Memory.read_storeBytes_outside s.mem base bs a (by rwa [hlen])]

theorem Memory.read_storeBytes_triple (m : Memory) (base : Nat) (a b c : Byte) :
    Memory.read (Memory.storeBytes m base [a, b, c]) base = a ∧
    Memory.read (Memory.storeBytes m base [a, b, c]) (base + 1) = b ∧
    Memory.read (Memory.storeBytes m base [a, b, c]) (base + 2) = c := by
  have inside := Memory.read_storeBytes_inside m base [a, b, c]
  exact ⟨inside 0 (by simp), inside 1 (by simp), inside 2 (by simp)⟩

theorem Memory.read_storeBytes_block (m : Memory) (base : Nat) (s : State) {x k : Nibble} (h : k.toNat ≤ x.toNat) :
    Memory.read (Memory.storeBytes m base (s.block x)) (base + k.toNat) = s.reg k := by
  rw [Memory.read_storeBytes, if_pos (Nat.le_add_right _ _), Nat.add_sub_cancel_left, State.getElem?_block, if_pos h,
    Option.getD_some]

/-! ## Effects -/

section effects
variable (s : State) (x : Nibble) (nnn : Addr)

theorem exec_ldI : exec (.ldI nnn) s = .next (s.setI (zext16 nnn)).advance := rfl
theorem exec_addI : exec (.addI x) s = .next (s.setI (s.i + (s.reg x).setWidth 16)).advance := rfl
theorem exec_ldFont : exec (.ldFont x) s = .next (s.setI (glyphAddress (s.reg x))).advance := rfl

/-! The three transfers test their whole range I .. I + last before any effect (R67, R236): one equation for each answer
of that test. -/

variable {s x}

theorem State.not_inRange_of_lt {last : Nat} (h : 0xFFF < s.i.toNat + last) : ¬ s.inRange last = true := by
  rw [State.inRange_iff]; exact Nat.not_le_of_lt h

theorem exec_ldBcd_of_le (h : s.i.toNat + 2 ≤ 0xFFF) :
    exec (.ldBcd x) s = .next (s.setMem (Memory.storeBytes s.mem s.i.toNat
      [hundreds (s.reg x), tens (s.reg x), units (s.reg x)])).advance :=
  if_pos ((s.inRange_iff 2).2 h)

theorem exec_ldBcd_of_lt (h : 0xFFF < s.i.toNat + 2) : exec (.ldBcd x) s = .next (s.raiseFault .dataOutOfRange) :=
  if_neg (State.not_inRange_of_lt h)

theorem exec_storeBlock_of_le (h : s.i.toNat + x.toNat ≤ 0xFFF) :
    exec (.storeBlock x) s =
      .next ((s.setMem (Memory.storeBytes s.mem s.i.toNat (s.block x))).bumpI x).advance :=
  if_pos ((s.inRange_iff x.toNat).2 h)

theorem exec_storeBlock_of_lt (h : 0xFFF < s.i.toNat + x.toNat) :
    exec (.storeBlock x) s = .next (s.raiseFault .dataOutOfRange) :=
  if_neg (State.not_inRange_of_lt h)

theorem exec_loadBlock_of_le (h : s.i.toNat + x.toNat ≤ 0xFFF) :
    exec (.loadBlock x) s = .next ((s.setV (loadRegs s.mem s.i.toNat s.v (x.toNat + 1))).bumpI x).advance :=
  if_pos ((s.inRange_iff x.toNat).2 h)

theorem exec_loadBlock_of_lt (h : 0xFFF < s.i.toNat + x.toNat) :
    exec (.loadBlock x) s = .next (s.raiseFault .dataOutOfRange) :=
  if_neg (State.not_inRange_of_lt h)

end effects

/-! ## The obligations -/

/-- Settles O42: in range, the meaning is one run of three stored bytes followed by `advance`. -/
theorem bcdStoresThreeDigits : Obligations.BcdStoresThreeDigits := by
  intro x
  constructor
  · intro m
    rw [decode_withByte_classF]; rfl
  · intro s v
    obtain ⟨h0, h1, h2⟩ :=
      Memory.read_storeBytes_triple s.mem s.i.toNat (hundreds (s.reg x)) (tens (s.reg x)) (units (s.reg x))
    refine ⟨exec_ldBcd_of_lt, fun h => ⟨_, exec_ldBcd_of_le h, ?hundreds, ?tens, ?units, ?outside, rfl⟩⟩
    case hundreds => exact (congrArg BitVec.toNat h0).trans (hundreds_toNat (s.reg x))
    case tens => exact (congrArg BitVec.toNat h1).trans (tens_toNat (s.reg x))
    case units => exact (congrArg BitVec.toNat h2).trans (units_toNat (s.reg x))
    case outside => exact sameMemoryOutside_of_storeBytes rfl rfl

/-- Settles O43: in range, the meaning is one run of stored bytes, V0 to Vx, and the post-increment of I. -/
theorem blockStoreWritesV0ToVx : Obligations.BlockStoreWritesV0ToVx := by
  intro x
  constructor
  · intro m
    rw [decode_withByte_classF]; rfl
  · intro s
    refine ⟨exec_storeBlock_of_lt, fun h => ⟨_, exec_storeBlock_of_le h, ?stored, ?outside, ?index, rfl⟩⟩
    case stored => exact fun k hk => Memory.read_storeBytes_block s.mem s.i.toNat s hk
    case outside => exact sameMemoryOutside_of_storeBytes rfl (s.length_block x)
    case index => exact State.bumpI_i_toNat _ x

/-- Settles O44: in range, the meaning is one replacement of V0 to Vx and the post-increment of I. -/
theorem blockLoadReadsV0ToVx : Obligations.BlockLoadReadsV0ToVx := by
  intro x
  constructor
  · intro m
    rw [decode_withByte_classF]; rfl
  · intro s
    refine ⟨exec_loadBlock_of_lt, fun h => ⟨_, exec_loadBlock_of_le h, ?loaded, ?index, rfl, ?memory⟩⟩
    case loaded =>
      intro k
      simp only [State.reg_advance, State.reg_bumpI, State.reg_setV_loadRegs, Nat.lt_succ_iff]
    case index => exact State.bumpI_i_toNat _ x
    case memory => exact fun a => rfl

/-- Settles O41: each meaning is one write of I followed by `advance`. -/
theorem indexRegisterLoadsAndAdds : Obligations.IndexRegisterLoadsAndAdds := by
  intro x nnn
  constructor
  · intro m
    simp only [decode_withByte_classF]
    exact ⟨decode_withAddr_ldI m nnn, rfl, rfl⟩
  · intro s
    rw [exec_ldI, exec_addI, exec_ldFont, zext16_eq, add_setWidth_eq, glyphAddress_eq]
    exact ⟨rfl, rfl, rfl⟩

end Sys2Proof.Machine
end

section
/-! The Extended-mode instructions but the scrolls: their words (spec/30_encoding.md R95, R98) and their effects
(spec/45_extended.md R250, R255 to R258). -/

namespace Sys2Proof.Machine

/-! ## The Extended-only rows in Classic mode -/

/-- The gate of R98 (a) and R250, in the decoder: the word of an Extended-only row other than Dxy0 is undefined in
Classic mode. -/
theorem decode_encode_of_extendedOnly {i : Instr} (h : i.definedIn .classic = false)
    (hd : ∀ x y, i ≠ .drwZeroExtended x y) : decode .classic (encode i) = .nop .extendedOnly := by
  cases i
  case scu n => exact (decode_withLine .classic n).2
  case scd n => exact (decode_withLine .classic n).1
  case scr | scl | low | high => rfl
  case saveFlags x | restoreFlags x => exact decode_withByte_classF .classic x _
  case drwZeroExtended x y => exact absurd rfl (hd x y)
  all_goals cases h

theorem stepEvent_of_decode_nop {s : State} {u : Undefined} (hf : s.fault = none) (hpc : s.pc.toNat ≤ 0xFFE)
    (hd : decode s.cfg.mode s.fetchWord = .nop u) : s.stepEvent = .next s.advance := by
  rw [State.stepEvent, if_neg (by simp [hf]), if_pos (s.canFetch_iff.2 hpc), hd]; rfl

/-- Settles O32: the words are undefined patterns of Classic mode, and a `Step` on such a word is `advance`. -/
theorem extendedWordsAreNopsInClassicMode : Obligations.ExtendedWordsAreNopsInClassicMode := by
  intro s i hnext hmode hfault hpc hext hdrw hword
  have hdecode : decode s.takeEvent.cfg.mode s.takeEvent.fetchWord = .nop .extendedOnly := by
    rw [s.takeEvent_cfg, s.takeEvent_fetchWord, hmode, hword, decode_encode_of_extendedOnly hext hdrw]
  rw [step_of_stepIsNext hnext,
    stepEvent_of_decode_nop (s.takeEvent_fault.trans hfault) (by rwa [s.takeEvent_pc]) hdecode]
  rw [State.advance, s.takeEvent_pc]; rfl

/-! ## The transfers with the flag-save bank -/

section effects
variable (s : State) (x : Nibble)

theorem exec_saveFlags : exec (.saveFlags x) s = .next (s.setBank (copyPrefix s.v s.r (bankCount x))).advance := rfl
theorem exec_restoreFlags : exec (.restoreFlags x) s = .next (s.setV (copyPrefix s.r s.v (bankCount x))).advance := rfl

end effects

theorem lt_bankCount_iff {x : Nibble} {k : Nat} : k < bankCount x ↔ k ≤ min x.toNat 7 := Nat.lt_succ_iff

/-- Settles O36: both meanings copy the first `bankCount x` cells of one file over the other's. -/
theorem flagBankTransfersAtMostEight : Obligations.FlagBankTransfersAtMostEight := by
  intro x
  refine ⟨decode_withByte_classF .extended x 0x75, decode_withByte_classF .extended x 0x85, fun s =>
    ⟨_, _, exec_saveFlags s x, exec_restoreFlags s x, ?saved, ?restored, rfl, rfl, fun a => rfl, fun a => rfl⟩⟩
  case saved =>
    intro k hk
    have hcount : bankCount x ≤ 16 := (bankCount_le x).trans (by decide)
    have hcell := getElem?_copyPrefix s.v s.r (bankCount x) k.toNat hcount hk
    simp only [lt_bankCount_iff, ← s.reg_eq_getElem? k] at hcell
    exact hcell
  case restored =>
    intro k
    have hcell := s.reg_setV_copyPrefix s.r (bankCount x) (bankCount_le x) k
    simpa only [lt_bankCount_iff, State.reg_advance] using hcell

/-! ## LOW and HIGH, and a draw under another HIRES -/

section draws
variable {s t : State} {x y n : Nibble}

theorem exec_drw_of_inRange (h : s.inRange (n.toNat - 1) = true) :
    exec (.drw x y n) s =
      .next (s.drawSprite x y (classicDecode (Memory.loadBytes s.mem s.i.toNat n.toNat))).advance :=
  if_pos h

theorem exec_drw_of_not_inRange (h : ¬ s.inRange (n.toNat - 1) = true) :
    exec (.drw x y n) s = .next (s.raiseFault .dataOutOfRange) :=
  if_neg h

theorem exec_drwZeroExtended_of_inRange (h : s.inRange 31 = true) :
    exec (.drwZeroExtended x y) s =
      .next (s.drawSprite x y (extendedDecode (Memory.loadBytes s.mem s.i.toNat 32))).advance :=
  if_pos h

theorem exec_drwZeroExtended_of_not_inRange (h : ¬ s.inRange 31 = true) :
    exec (.drwZeroExtended x y) s = .next (s.raiseFault .dataOutOfRange) :=
  if_neg h

/-- HIRES is neither in the range check nor in the drawing, so either answer of the check is the same under any HIRES
(R255: "DRW behaves exactly as before"). -/
theorem exec_drw_setHires (he : exec (.drw x y n) s = .next t) (h : Resolution) :
    exec (.drw x y n) (s.setHires h) = .next (t.setHires h) := by
  by_cases hr : s.inRange (n.toNat - 1) = true
  · cases (exec_drw_of_inRange hr).symm.trans he
    exact exec_drw_of_inRange (s := s.setHires h) hr
  · cases (exec_drw_of_not_inRange hr).symm.trans he
    exact exec_drw_of_not_inRange (s := s.setHires h) hr

theorem exec_drwZeroExtended_setHires (he : exec (.drwZeroExtended x y) s = .next t) (h : Resolution) :
    exec (.drwZeroExtended x y) (s.setHires h) = .next (t.setHires h) := by
  by_cases hr : s.inRange 31 = true
  · cases (exec_drwZeroExtended_of_inRange hr).symm.trans he
    exact exec_drwZeroExtended_of_inRange (s := s.setHires h) hr
  · cases (exec_drwZeroExtended_of_not_inRange hr).symm.trans he
    exact exec_drwZeroExtended_of_not_inRange (s := s.setHires h) hr

end draws

theorem exec_low (s : State) : exec .low s = .next (s.setHires .low).advance := rfl
theorem exec_high (s : State) : exec .high s = .next (s.setHires .high).advance := rfl

/-- Settles O35: each meaning is one write of HIRES followed by `advance`, and both draws commute with such a write. -/
theorem resolutionSwitchesWriteHiresOnly : Obligations.ResolutionSwitchesWriteHiresOnly :=
  ⟨rfl, rfl, fun s => ⟨exec_low s, exec_high s, fun h _ _ _ _ =>
    ⟨fun he => exec_drw_setHires he h, fun he => exec_drwZeroExtended_setHires he h⟩⟩⟩

end Sys2Proof.Machine
end

section
/-! The scrolls: their words (spec/30_encoding.md R95) and their effects (spec/42_display.md R184, spec/45_extended.md
R251 to R254), pixel by pixel under both edge policies. -/

namespace Sys2Proof.Machine

/-! ## The source coordinate of a scrolled pixel on an axis that wraps -/

theorem emod_sub_zero_of_lt {a m : Nat} (h : a < m) : ((a : Int) - 0) % m = a := by
  rw [Int.sub_zero, ← Int.natCast_mod, Nat.mod_eq_of_lt h]

/-- What a move by `n` brings to `(a + n) % m` comes from `a`. -/
theorem emod_add_mod_sub_of_lt {a m : Nat} (n : Nat) (h : a < m) :
    ((((a + n) % m : Nat) : Int) - n) % m = a := by
  rw [Int.natCast_mod, Int.emod_sub_emod, Int.natCast_add, Int.add_sub_cancel, ← Int.natCast_mod, Nat.mod_eq_of_lt h]

/-- What a move back by `n` brings to `a` comes from `(a + n) % m`. -/
theorem emod_sub_neg (a n m : Nat) : ((a : Int) - -n) % m = ((a + n) % m : Nat) := by
  rw [Int.sub_neg, Int.natCast_mod, Int.natCast_add]

/-! ## One pixel of a scrolled plane -/

section scrolled
variable {s : State} {dx dy : Int} {x y a b : Nat}

/-- Under Wrap a pixel comes from its source coordinates, reduced to the plane. -/
theorem State.pixel_scrolled_of_wrap (he : s.cfg.scrollEdge = .wrap) (hx : x < s.cfg.width) (hy : y < s.cfg.height)
    (ha : ((x : Int) - dx) % s.cfg.width = a) (hb : ((y : Int) - dy) % s.cfg.height = b) :
    (s.scrolled dx dy).pixel x y = s.pixel a b := by
  rw [State.pixel, State.scrolled_disp, he, cell_scroll_wrap _ _ _ _ _ hx hy, ha, hb]; rfl

/-- Under Clear a pixel whose source lies on the plane comes from there. -/
theorem State.pixel_scrolled_of_clear (he : s.cfg.scrollEdge = .clear) (hx : x < s.cfg.width) (hy : y < s.cfg.height)
    (ha : (x : Int) - dx = a) (hb : (y : Int) - dy = b) (haw : a < s.cfg.width) (hbh : b < s.cfg.height) :
    (s.scrolled dx dy).pixel x y = s.pixel a b := by
  rw [State.pixel, State.scrolled_disp, he, cell_scroll_clear _ _ _ _ _ hx hy, ha, hb,
    decide_eq_true (by omega), Bool.true_and]; rfl

/-- Under Clear a pixel whose source lies off the plane is 0. -/
theorem State.pixel_scrolled_of_clear_outside (he : s.cfg.scrollEdge = .clear) (hx : x < s.cfg.width)
    (hy : y < s.cfg.height) (ho : ¬ (0 ≤ (x : Int) - dx ∧ (x : Int) - dx < s.cfg.width ∧ 0 ≤ (y : Int) - dy ∧
      (y : Int) - dy < s.cfg.height)) : (s.scrolled dx dy).pixel x y = false := by
  rw [State.pixel, State.scrolled_disp, he, cell_scroll_clear _ _ _ _ _ hx hy, decide_eq_false ho, Bool.false_and]

end scrolled

/-! ## The four directions -/

section directions
variable {s : State} {x y : Nat} (n : Nat)

theorem State.pixel_scrolled_down_of_wrap (he : s.cfg.scrollEdge = .wrap) (hx : x < s.cfg.width)
    (hy : y < s.cfg.height) : (s.scrolled 0 n).pixel x ((y + n) % s.cfg.height) = s.pixel x y :=
  State.pixel_scrolled_of_wrap he hx (Nat.mod_lt _ (Nat.zero_lt_of_lt hy)) (emod_sub_zero_of_lt hx)
    (emod_add_mod_sub_of_lt n hy)

theorem State.pixel_scrolled_up_of_wrap (he : s.cfg.scrollEdge = .wrap) (hx : x < s.cfg.width)
    (hy : y < s.cfg.height) : (s.scrolled 0 (-n)).pixel x y = s.pixel x ((y + n) % s.cfg.height) :=
  State.pixel_scrolled_of_wrap he hx hy (emod_sub_zero_of_lt hx) (emod_sub_neg y n _)

theorem State.pixel_scrolled_right_of_wrap (he : s.cfg.scrollEdge = .wrap) (hx : x < s.cfg.width)
    (hy : y < s.cfg.height) : (s.scrolled n 0).pixel ((x + n) % s.cfg.width) y = s.pixel x y :=
  State.pixel_scrolled_of_wrap he (Nat.mod_lt _ (Nat.zero_lt_of_lt hx)) hy (emod_add_mod_sub_of_lt n hx)
    (emod_sub_zero_of_lt hy)

theorem State.pixel_scrolled_left_of_wrap (he : s.cfg.scrollEdge = .wrap) (hx : x < s.cfg.width)
    (hy : y < s.cfg.height) : (s.scrolled (-n) 0).pixel x y = s.pixel ((x + n) % s.cfg.width) y :=
  State.pixel_scrolled_of_wrap he hx hy (emod_sub_neg x n _) (emod_sub_zero_of_lt hy)

theorem State.pixel_scrolled_down_of_clear (he : s.cfg.scrollEdge = .clear) (hx : x < s.cfg.width)
    (hy : y < s.cfg.height) : (s.scrolled 0 n).pixel x y = if n ≤ y then s.pixel x (y - n) else false := by
  split
  · exact State.pixel_scrolled_of_clear he hx hy (by omega) (by omega) hx (by omega)
  · exact State.pixel_scrolled_of_clear_outside he hx hy (by omega)

theorem State.pixel_scrolled_up_of_clear (he : s.cfg.scrollEdge = .clear) (hx : x < s.cfg.width)
    (hy : y < s.cfg.height) :
    (s.scrolled 0 (-n)).pixel x y = if y + n < s.cfg.height then s.pixel x (y + n) else false := by
  split
  · exact State.pixel_scrolled_of_clear he hx hy (by omega) (by omega) hx ‹_›
  · exact State.pixel_scrolled_of_clear_outside he hx hy (by omega)

theorem State.pixel_scrolled_right_of_clear (he : s.cfg.scrollEdge = .clear) (hx : x < s.cfg.width)
    (hy : y < s.cfg.height) : (s.scrolled n 0).pixel x y = if n ≤ x then s.pixel (x - n) y else false := by
  split
  · exact State.pixel_scrolled_of_clear he hx hy (by omega) (by omega) (by omega) hy
  · exact State.pixel_scrolled_of_clear_outside he hx hy (by omega)

theorem State.pixel_scrolled_left_of_clear (he : s.cfg.scrollEdge = .clear) (hx : x < s.cfg.width)
    (hy : y < s.cfg.height) :
    (s.scrolled (-n) 0).pixel x y = if x + n < s.cfg.width then s.pixel (x + n) y else false := by
  split
  · exact State.pixel_scrolled_of_clear he hx hy (by omega) (by omega) ‹_› hy
  · exact State.pixel_scrolled_of_clear_outside he hx hy (by omega)

end directions

/-! ## Effects -/

section effects
variable (s : State) (n : Nibble)

theorem exec_scd : exec (.scd n) s = .next (s.scrolled 0 n.toNat).advance := rfl
theorem exec_scu : exec (.scu n) s = .next (s.scrolled 0 (-n.toNat)).advance := rfl
theorem exec_scr : exec .scr s = .next (s.scrolled hscroll 0).advance := rfl
theorem exec_scl : exec .scl s = .next (s.scrolled (-hscroll) 0).advance := rfl

end effects

/-- Settles O33: both meanings are one scroll by (0, ±n) followed by `advance`. -/
theorem verticalScrollsMoveRows : Obligations.VerticalScrollsMoveRows := by
  intro n
  obtain ⟨hscd, hscu⟩ := decode_withLine .extended n
  refine ⟨hscd, hscu, fun s => ⟨_, _, exec_scd s n, exec_scu s n, fun x y hx hy => ⟨fun he => ?wrap, fun he => ?clear⟩,
    shaped_scroll .., shaped_scroll .., rfl, rfl, fun a => rfl, fun a => rfl⟩⟩
  case wrap => exact ⟨State.pixel_scrolled_down_of_wrap _ he hx hy, State.pixel_scrolled_up_of_wrap _ he hx hy⟩
  case clear => exact ⟨State.pixel_scrolled_down_of_clear _ he hx hy, State.pixel_scrolled_up_of_clear _ he hx hy⟩

/-- Settles O34: both meanings are one scroll by (±4, 0) followed by `advance`. -/
theorem horizontalScrollsMoveColumns : Obligations.HorizontalScrollsMoveColumns := by
  refine ⟨rfl, rfl, fun s => ⟨_, _, exec_scr s, exec_scl s, fun x y hx hy => ⟨fun he => ?wrap, fun he => ?clear⟩,
    shaped_scroll .., shaped_scroll .., rfl, rfl, fun a => rfl, fun a => rfl⟩⟩
  case wrap =>
    exact ⟨State.pixel_scrolled_right_of_wrap hscroll he hx hy, State.pixel_scrolled_left_of_wrap hscroll he hx hy⟩
  case clear =>
    exact ⟨State.pixel_scrolled_right_of_clear hscroll he hx hy, State.pixel_scrolled_left_of_clear hscroll he hx hy⟩

end Sys2Proof.Machine
end

section
/-! Which V registers an instruction can write (spec/10_state.md sections 1 and 10). -/

namespace Sys2Proof.Machine

/-! ## The registers each shared write can change -/

section destinations
variable {s : State} {x y k : Nibble} {b f : Byte}

theorem eq_of_reg_setReg_ne (h : (s.setReg x b).reg k ≠ s.reg k) : k = x := by
  by_contra hk
  exact h (s.reg_setReg_ne x k b hk)

theorem eq_or_eq_of_reg_setReg_setVF_ne (h : ((s.setReg x b).setVF f).reg k ≠ s.reg k) : k = x ∨ k = 0xF := by
  by_contra! hk
  rw [State.reg_setVF, if_neg hk.2] at h
  exact hk.1 (eq_of_reg_setReg_ne h)

theorem eq_or_eq_or_eq_of_reg_putShift_ne (h : (s.putShift x y b f).reg k ≠ s.reg k) : k = x ∨ k = y ∨ k = 0xF := by
  by_contra! hk
  obtain ⟨hkx, hky, hkF⟩ := hk
  exact h (by rw [State.reg_putShift, if_neg hkF, if_neg (not_or.2 ⟨hkx, hky⟩)])

theorem eq_of_reg_drawSprite_ne {p : List (List Bool)} (h : (s.drawSprite x y p).reg k ≠ s.reg k) : k = 0xF :=
  eq_of_reg_setReg_ne h

theorem lt_of_reg_setV_loadRegs_ne {m : Memory} {base j : Nat}
    (h : (s.setV (loadRegs m base s.v j)).reg k ≠ s.reg k) : k.toNat < j := by
  by_contra hk
  exact h (by rw [State.reg_setV_loadRegs, if_neg hk])

theorem lt_of_reg_setV_copyPrefix_ne {r : Vector Byte 8} {j : Nat} (hj : j ≤ 8)
    (h : (s.setV (copyPrefix r s.v j)).reg k ≠ s.reg k) : k.toNat < j := by
  by_contra hk
  exact h (Option.some.inj (by rw [State.reg_setV_copyPrefix s r j hj, if_neg hk]))

end destinations

/-- Where a register has changed, the instruction's range check held: a fault leaves every register as it is. -/
theorem eq_of_ite_raiseFault_of_reg_ne {c : Prop} [Decidable c] {s t u : State} {k : Nibble} {f : Fault}
    (h : (if c then .next u else .next (s.raiseFault f) : Host.Outcome State Fault Refusal) = .next t)
    (hk : t.reg k ≠ s.reg k) : t = u := by
  split at h <;> cases h
  · rfl
  · exact absurd (s.reg_raiseFault f k) hk

/-- Settles O56: instruction by instruction, by what its write to the V file can change. -/
theorem registersWrittenOnlyAsDestinations : Obligations.RegistersWrittenOnlyAsDestinations := by
  intro i s t k h hk
  cases i
  case ldByte | addByte | ldReg | orReg | andReg | xorReg | ldFromDt =>
    cases h
    simp [eq_of_reg_setReg_ne hk]
  case rnd =>
    cases h
    rw [← s.reg_takeRnd k] at hk
    simp [eq_of_reg_setReg_ne hk]
  case ldKey x =>
    cases hkey : s.key with
    | none =>
      cases h.symm.trans (exec_ldKey_of_none s x hkey)
      exact absurd rfl hk
    | some key =>
      cases h.symm.trans (exec_ldKey_of_some s x hkey)
      simp [eq_of_reg_setReg_ne hk]
  case addReg | subReg | subn =>
    cases h
    simpa using eq_or_eq_of_reg_setReg_setVF_ne hk
  case shr | shl =>
    cases h
    simpa using eq_or_eq_or_eq_of_reg_putShift_ne hk
  case drw | drwZeroExtended =>
    cases eq_of_ite_raiseFault_of_reg_ne h hk
    simp [eq_of_reg_drawSprite_ne hk]
  case loadBlock =>
    cases eq_of_ite_raiseFault_of_reg_ne h hk
    simpa using Nat.le_of_lt_succ (lt_of_reg_setV_loadRegs_ne hk)
  case restoreFlags x =>
    cases h
    have hle := lt_bankCount_iff.1 (lt_of_reg_setV_copyPrefix_ne (bankCount_le x) hk)
    simpa using le_min_iff.1 hle
  case ldBcd | storeBlock =>
    cases eq_of_ite_raiseFault_of_reg_ne h hk
    exact absurd rfl hk
  case ret | call =>
    simp only [exec, execRet, execCall] at h
    split at h <;> cases h <;> exact absurd rfl hk
  case ldSt x =>
    by_cases hx : s.reg x = 0
    · cases h.symm.trans (exec_ldSt_of_eq_zero s x hx)
      exact absurd rfl hk
    · cases h.symm.trans (exec_ldSt_of_ne_zero s x hx)
      exact absurd rfl hk
  case seByte | sneByte | seReg | sneReg =>
    cases h
    exact absurd (s.reg_skipIf _ k) hk
  case skp | sknp =>
    cases h
    exact absurd ((s.takeKey.reg_skipIf _ k).trans (s.reg_takeKey k)) hk
  -- Every instruction left answers a state with the same V file.
  all_goals
    cases h
    exact absurd rfl hk

end Sys2Proof.Machine
end

section
/-! The opcode map as a bijection: decode after encode, encode after decode, and the words left undefined
(spec/30_encoding.md sections 2 and 3). -/

namespace Sys2Proof.Machine

/-! ## The classes not yet decoded above -/

theorem decode_withAddr_call (m : Mode) (nnn : Addr) : decode m (withAddr 0x2 nnn) = .instr (.call nnn) := by
  simp [decode]

theorem decode_withAddr_jpV0 (m : Mode) (nnn : Addr) : decode m (withAddr 0xB nnn) = .instr (.jpV0 nnn) := by
  simp [decode]

theorem decode_withByte_rnd (m : Mode) (x : Nibble) (kk : Byte) :
    decode m (withByte 0xC x kk) = .instr (.rnd x kk) := by
  simp [decode]

/-- Every word of class D is left to `decodeD`, which tells the rows apart by the last digit and the mode. -/
theorem decode_digits_classD (m : Mode) (x y n : Nibble) : decode m (digits 0xD x y n) = decodeD m x y n := by
  simp [decode]

theorem decode_digits_drw (m : Mode) (x y : Nibble) {n : Nibble} (h : n ≠ 0) :
    decode m (digits 0xD x y n) = .instr (.drw x y n) :=
  (decode_digits_classD m x y n).trans (if_neg h)

theorem decode_retWord (m : Mode) : decode m 0x00EE = .instr .ret := by cases m <;> rfl

/-! ## Decode of encode -/

/-- Settles O1: one row of the opcode map at a time, by what its class decodes to; a row of one mode has that mode from
`definedIn`, and the row of `drw` has its digit from `wellFormed`. -/
theorem decodeOfEncodeIsTheInstruction : Obligations.DecodeOfEncodeIsTheInstruction := by
  intro m i hwf hdef
  cases i
  case halt => exact decode_zero m
  case cls => exact decode_clsWord m
  case ret => exact decode_retWord m
  case jp nnn => exact decode_withAddr_jp m nnn
  case call nnn => exact decode_withAddr_call m nnn
  case ldI nnn => exact decode_withAddr_ldI m nnn
  case jpV0 nnn => exact decode_withAddr_jpV0 m nnn
  case seByte x kk => exact decode_withByte_seByte m x kk
  case sneByte x kk => exact decode_withByte_sneByte m x kk
  case ldByte x kk => exact decode_withByte_ldByte m x kk
  case addByte x kk => exact decode_withByte_addByte m x kk
  case rnd x kk => exact decode_withByte_rnd m x kk
  case seReg x y => exact decode_digits_seReg m x y
  case sneReg x y => exact decode_digits_sneReg m x y
  case ldReg x y | orReg x y | andReg x y | xorReg x y | addReg x y | subReg x y | shr x y | subn x y | shl x y =>
    exact decode_digits_class8 m x y _
  case skp x | sknp x => exact decode_withByte_classE m x _
  case ldFromDt x | ldKey x | ldDt x | ldSt x | addI x | ldFont x | ldBcd x | storeBlock x | loadBlock x =>
    exact decode_withByte_classF m x _
  case drw x y n => exact decode_digits_drw m x y (of_decide_eq_true hwf)
  all_goals obtain rfl := of_decide_eq_true hdef
  case scu n => exact (decode_withLine .extended n).2
  case scd n => exact (decode_withLine .extended n).1
  case scr | scl | low | high => rfl
  case saveFlags x | restoreFlags x => exact decode_withByte_classF .extended x _
  case drwZeroClassic x y => exact decode_digits_classD .classic x y 0
  case drwZeroExtended x y => exact decode_digits_classD .extended x y 0

/-! ## Encode of decode -/

section fields
variable {w : Word} {h : Nibble}

theorem digits_of_class (hc : fieldH w = h) : digits h (fieldX w) (fieldY w) (fieldN w) = w :=
  hc ▸ digits_of_fields w

theorem withByte_of_class (hc : fieldH w = h) : withByte h (fieldX w) (fieldKK w) = w :=
  hc ▸ withByte_of_fields w

theorem withAddr_of_class (hc : fieldH w = h) : withAddr h (fieldNNN w) = w :=
  hc ▸ withAddr_of_fields w

/-- A row of format XY0: the last digit is 0, and the word is that of its digits. -/
theorem digits_zero_of_class (hc : fieldH w = h) (hn : fieldN w = 0) : digits h (fieldX w) (fieldY w) 0 = w :=
  hn ▸ digits_of_class hc

end fields

/-- Class by class, the instruction a word decodes to has that word. -/
theorem decode_as (m : Mode) (w : Word) : DecodesAs m (decode m w) w := by
  unfold decode
  split
  case h_1 => exact decode0_as m w
  case h_6 hc =>
    exact .ite (fun hn => .instr rfl rfl (digits_zero_of_class (BitVec.eq_of_toNat_eq hc) hn)) fun _ => .nop
  case h_9 hc =>
    have as8 := decode8_as m (fieldX w) (fieldY w) (fieldN w)
    rwa [digits_of_class (BitVec.eq_of_toNat_eq hc)] at as8
  case h_10 hc =>
    exact .ite (fun hn => .instr rfl rfl (digits_zero_of_class (BitVec.eq_of_toNat_eq hc) hn)) fun _ => .nop
  case h_14 hc =>
    have asD := decodeD_as m (fieldX w) (fieldY w) (fieldN w)
    rwa [digits_of_class (BitVec.eq_of_toNat_eq hc)] at asD
  case h_15 hc =>
    have asE := decodeE_as m (fieldX w) (fieldKK w)
    rwa [withByte_of_class (BitVec.eq_of_toNat_eq hc)] at asE
  case h_16 =>
    have hc : (fieldH w).toNat = 0xF := by have := (fieldH w).isLt; simp only [imp_false] at *; omega
    have asF := decodeF_as m (fieldX w) (fieldKK w)
    rwa [withByte_of_class (BitVec.eq_of_toNat_eq hc)] at asF
  case h_2 hc | h_3 hc | h_11 hc | h_12 hc => exact .instr rfl rfl (withAddr_of_class (BitVec.eq_of_toNat_eq hc))
  case h_4 hc | h_5 hc | h_7 hc | h_8 hc | h_13 hc =>
    exact .instr rfl rfl (withByte_of_class (BitVec.eq_of_toNat_eq hc))

/-- Settles O2: `decode_as` at every mode and word. -/
theorem encodeOfDecodeIsTheWord : Obligations.EncodeOfDecodeIsTheWord := decode_as

/-- Settles O3: each word is one closed evaluation of the decoder. -/
theorem wordsOfTheOpcodeMapDecode : Obligations.WordsOfTheOpcodeMapDecode := by
  refine ⟨fun m => ?bothModes, ?oneMode⟩
  case bothModes => cases m <;> decide
  case oneMode => decide

/-! ## The undefined words -/

/-- The undefined words of a mode, class by class. -/
theorem isNop_decode (m : Mode) (w : Word) :
    IsNop (decode m w) ↔
      (w.toNat / 0x1000 = 0 ∧ w.toNat ∉ [0x0000, 0x00E0, 0x00EE] ∧
        (m = .classic ∨ (w.toNat ∉ [0xFB, 0xFC, 0xFE, 0xFF] ∧ w.toNat / 0x10 ∉ [0xB, 0xC]))) ∨
      ((w.toNat / 0x1000 = 5 ∨ w.toNat / 0x1000 = 9) ∧ w.toNat % 0x10 ≠ 0) ∨
      (w.toNat / 0x1000 = 8 ∧ w.toNat % 0x10 ∈ [0x8, 0x9, 0xA, 0xB, 0xC, 0xD, 0xF]) ∨
      (w.toNat / 0x1000 = 0xE ∧ w.toNat % 0x100 ∉ [0x9E, 0xA1]) ∨
      (w.toNat / 0x1000 = 0xF ∧ w.toNat % 0x100 ∉ [0x07, 0x0A, 0x15, 0x18, 0x1E, 0x29, 0x33, 0x55, 0x65] ∧
        (m = .classic ∨ w.toNat % 0x100 ∉ [0x75, 0x85])) := by
  have hn : fieldN w = 0#4 ↔ w.toNat % 0x10 = 0 := by rw [← fieldN_toNat, ← BitVec.toNat_inj]; rfl
  rw [← fieldH_toNat, ← fieldKK_toNat]
  unfold decode
  split
  case h_1 hc => simp [hc, isNop_decode0]
  case h_6 hc | h_10 hc => simp [hc, isNop_ite, hn]
  case h_9 hc => simp [hc, isNop_decode8, fieldN_toNat]
  case h_14 hc => simp [hc, not_isNop_decodeD]
  case h_15 hc => simp [hc, isNop_decodeE]
  case h_16 =>
    have hc : (fieldH w).toNat = 0xF := by have := (fieldH w).isLt; simp only [imp_false] at *; omega
    simp [hc, isNop_decodeF]
  all_goals next hc => simp [hc]

/-- Settles O4: `isNop_decode` at each mode. -/
theorem undefinedWordsAreTheListedOnes : Obligations.UndefinedWordsAreTheListedOnes := by
  intro w h kk n common listed
  refine ⟨(isNop_decode .classic w).trans ?classic, (isNop_decode .extended w).trans ?extended⟩
  case classic => simp only [true_or, and_true, or_assoc, common, listed, h, kk, n]
  case extended =>
    simp only [reduceCtorEq, false_or, or_assoc, common, listed, h, kk, n, List.mem_append, not_or]
    simp only [List.mem_cons, List.not_mem_nil, or_false, not_or, and_assoc]

end Sys2Proof.Machine
end

section
/-! The step cycle (spec/40_step_and_control.md R120) and the events of the agents and the host (spec/60_exceptions.md
R281 to R288). -/

namespace Sys2Proof.Machine

/-! ## A `Step` that runs an instruction, or none -/

/-- Settles O5: taking the event changes neither the latch nor what the fetch reads. -/
theorem stepRunsTheDecodedInstruction : Obligations.StepRunsTheDecodedInstruction := by
  intro s i hnext hfault hpc hd
  rw [← s.fetchWord_eq, ← s.takeEvent_cfg, ← s.takeEvent_fetchWord] at hd
  rw [step_of_stepIsNext hnext,
    stepEvent_of_decode (s.takeEvent_fault.trans hfault) (by rwa [s.takeEvent_pc]) hd]

theorem stepEvent_of_not_canFetch {s : State} (hf : s.fault = none) (hpc : 0xFFE < s.pc.toNat) :
    s.stepEvent = .next (s.raiseFault .fetchOutOfRange) := by
  have hc : ¬ s.canFetch = true := by rw [s.canFetch_iff]; exact Nat.not_le_of_lt hpc
  rw [State.stepEvent, if_neg (by simp [hf]), if_neg hc]

/-- Settles O6: one lemma on `stepEvent` per clause, on the state whose event has been taken. -/
theorem stepThatRunsNoInstruction : Obligations.StepThatRunsNoInstruction := by
  intro s hnext
  rw [step_of_stepIsNext hnext]
  refine ⟨fun hfault => ?faulted, fun hfault hpc => ?fetch, fun u hfault hpc hd => ?undefined⟩
  case faulted => exact stepEvent_of_fault (by rwa [s.takeEvent_fault])
  case fetch => exact stepEvent_of_not_canFetch (s.takeEvent_fault.trans hfault) (by rwa [s.takeEvent_pc])
  case undefined =>
    rw [← s.takeEvent_cfg, ← s.takeEvent_fetchWord] at hd
    rw [stepEvent_of_decode_nop (s.takeEvent_fault.trans hfault) (by rwa [s.takeEvent_pc]) hd, State.advance,
      s.takeEvent_pc]
    rfl

/-! ## Placing a word -/

section placeWord
variable (s : State) (w : Word)

theorem State.placeWord_pc_le : (s.placeWord w).pc.toNat ≤ 0xFFE := by
  show (if s.canFetch = true then s.pc else BitVec.ofNat 16 origin).toNat ≤ 0xFFE
  split
  · exact s.canFetch_iff.1 ‹_›
  · decide

theorem State.placeWord_fetchWord : (s.placeWord w).fetchWord = w := by
  have inside := Memory.read_storeBytes_inside s.mem (s.placeWord w).pc.toNat [(bytesOfWord w).1, (bytesOfWord w).2]
  calc (s.placeWord w).fetchWord
      = wordOfBytes (bytesOfWord w).1 (bytesOfWord w).2 :=
        congrArg₂ wordOfBytes (inside 0 (by simp)) (inside 1 (by simp))
    _ = w := wordOfBytes_bytesOfWord w

/-- Whatever was to come, a `Step` comes first, and it takes nothing else. -/
theorem State.placeWord_event :
    (s.placeWord w).headEvent = .step ∧ (s.placeWord w).takeEvent = { s.placeWord w with pending := s.pending } := by
  have hp : (s.placeWord w).pending = match s.pending, s.turns with
    | [], none => []
    | es, _ => .step :: es := rfl
  cases hpend : s.pending with
  | cons e es => exact State.takeEvent_cons (by rw [hp, hpend])
  | nil =>
    cases hturns : s.turns with
    | some n => exact State.takeEvent_cons (by rw [hp, hpend, hturns])
    | none =>
      have hnil : (s.placeWord w).pending = [] := by rw [hp, hpend, hturns]
      have hnone : (s.placeWord w).turns = none := hturns
      exact ⟨by simp only [State.headEvent, hnil, hnone], by rw [State.takeEvent_of_nil hnil hnone, ← hnil]⟩

end placeWord

/-- Settles O7: the next event is a `Step`, and its fetch reads the placed word. -/
theorem placedWordIsTheNextInstruction : Obligations.PlacedWordIsTheNextInstruction := by
  intro s nbits w i hd
  obtain ⟨hhead, htake⟩ := s.placeWord_event (BitVec.ofNat 16 w)
  have hword := s.placeWord_fetchWord (BitVec.ofNat 16 w)
  refine ⟨?step, rfl, hword⟩
  case step =>
    rw [← hword] at hd
    show step (s.placeWord (BitVec.ofNat 16 w)) = _
    rw [step_of_stepIsNext hhead, htake]
    exact stepEvent_of_decode rfl (s.placeWord_pc_le (BitVec.ofNat 16 w)) hd

/-- Settles O8: the listed events by definition, and a free turn by whose it is. -/
theorem pendingEventsArePerformedInOrder : Obligations.PendingEventsArePerformedInOrder := by
  intro s es b n
  refine ⟨⟨rfl, rfl, rfl, rfl⟩, rfl, ?freeTurn⟩
  case freeTurn =>
    obtain ⟨hhead, htake⟩ := State.takeEvent_of_free (s := { s with pending := [], turns := some n }) rfl rfl
    rw [step_eq, hhead, htake]
    cases Config.freeTurn n <;> rfl

/-- Settles O10: event by event; `Tick` writes the timers and the outputs, `Load` memory, PC or the outputs. -/
theorem onlyResetLeavesTheFaultedState : Obligations.OnlyResetLeavesTheFaultedState := by
  intro s t e hfault h
  cases e with
  | step =>
    cases (stepEvent_of_fault hfault).symm.trans h
    exact ⟨nofun, fun _ => ⟨rfl, rfl, fun _ => rfl⟩, fun _ => rfl⟩
  | tick =>
    obtain rfl : s.tickEvent = t := Host.Outcome.next.inj h
    rw [s.tickEvent_eq]
    exact ⟨nofun, fun _ => ⟨rfl, rfl, fun _ => rfl⟩, nofun⟩
  | reset =>
    cases h
    exact ⟨fun _ => rfl, fun hne => absurd rfl hne, nofun⟩
  | load bytes =>
    obtain rfl : s.loadEvent bytes = t := Host.Outcome.next.inj h
    exact ⟨nofun, fun _ => ⟨s.loadEvent_fault bytes, s.loadEvent_sp bytes,
      State.reg_of_v_eq (s.loadEvent_v bytes)⟩, nofun⟩

/-! ## Nothing stops the machine -/

theorem step_next (s : State) : ∃ t, step s = .next t ∧ t.cfg = s.cfg := by
  obtain ⟨t, ht⟩ := perform_next s.takeEvent s.headEvent
  exact ⟨t, ht, (perform_cfg ht).trans s.takeEvent_cfg⟩

theorem State.exists_runs (s : State) (f : Nat → Agent) (k : Nat) :
    ∃ t, s.Runs f k t ∧ t.pending = [] ∧ t.turns = s.turns ∧ t.cfg = s.cfg := by
  induction k generalizing s f with
  | zero => exact ⟨_, (s.runs_zero f _).2 rfl, rfl, rfl, rfl⟩
  | succ k ih =>
    obtain ⟨u, hu⟩ := perform_next s (agentEvent (f 0))
    obtain ⟨t, hrun, hpending, hturns, hcfg⟩ := ih u fun j => f (j + 1)
    exact ⟨t, (State.runs_succ hu k t).2 hrun, hpending, hturns.trans (perform_agent_events hu).2,
      hcfg.trans (perform_cfg hu)⟩

/-- The event of a free turn is the agent's own, whatever else the state has to come. -/
theorem step_of_freeTurn {s u : State} {n : Nat} (h : s.perform (agentEvent (Config.freeTurn n)) = .next u) :
    step (s.withEvents [] (some n)) = .next (u.withEvents [] (some (n + 1))) := by
  obtain ⟨hhead, htake⟩ := State.takeEvent_of_free (s := s.withEvents [] (some n)) rfl rfl
  rw [step_eq, hhead, htake]
  exact perform_agent_withEvents h [] (some (n + 1))

/-- A free-running machine makes the run of its open turns, from any turn on. -/
theorem State.exists_runs_free (s : State) (n k : Nat) :
    ∃ t, s.Runs (fun j => Config.freeTurn (n + j)) k t ∧
      Host.Core.run Sys2Proof.core k (s.withEvents [] (some n)) = .next { t with turns := some (n + k) } := by
  induction k generalizing s n with
  | zero => exact ⟨_, (s.runs_zero _ _).2 rfl, rfl⟩
  | succ k ih =>
    obtain ⟨u, hu⟩ := perform_next s (agentEvent (Config.freeTurn n))
    obtain ⟨t, hrun, hfree⟩ := ih u (n + 1)
    refine ⟨t, (State.runs_succ hu k t).2 ?run, ?free⟩
    case run =>
      have hshift : (fun j => Config.freeTurn (n + (j + 1))) = fun j => Config.freeTurn (n + 1 + j) :=
        funext fun j => congrArg Config.freeTurn (by omega)
      rwa [hshift]
    case free => rw [run_succ k (step_of_freeTurn hu), hfree, Nat.add_right_comm, Nat.add_assoc]

/-- Settles O11: every event answers a next state, so runs are made one turn at a time. -/
theorem everyStepGoesOnInTheSameConfiguration : Obligations.EveryStepGoesOnInTheSameConfiguration :=
  ⟨step_next, State.exists_runs, State.exists_runs_free⟩

/-! ## Faults and the four outcomes -/

/-- A `Step` that sets the latch raised its fault before decode, or is that of an instruction whose condition holds. -/
theorem stepEvent_faultCase {s t : State} {c : Fault} (hf : s.fault = none) (h : s.stepEvent = .next t)
    (hc : t.fault = some c) :
    t = s.raiseFault c ∧ ((0xFFE < s.pc.toNat ∧ c = .fetchOutOfRange) ∨
      (s.pc.toNat ≤ 0xFFE ∧ ∃ i, decode s.cfg.mode s.fetchWord = .instr i ∧ FaultCase i s c)) := by
  rcases stepEvent_cases h hf with ⟨hfetch, rfl⟩ | ⟨-, u, -, rfl⟩ | ⟨hfetch, i, hd, he⟩
  · cases hc
    have hpc : ¬ s.pc.toNat ≤ 0xFFE := by rw [← s.canFetch_iff, hfetch]; exact Bool.false_ne_true
    exact ⟨rfl, .inl ⟨Nat.lt_of_not_le hpc, rfl⟩⟩
  · cases hf.symm.trans hc
  · rcases exec_faultCase he with hkeep | ⟨c', hcase, rfl⟩
    · cases (hkeep.trans hf).symm.trans hc
    · cases hc
      exact ⟨rfl, .inr ⟨s.canFetch_iff.1 hfetch, i, hd, hcase⟩⟩

/-- Settles O12: a fault before decode has its range, and every other one is a `FaultCase` of the decoded
instruction. -/
theorem faultsArePreciseAndHaveTheirCause : Obligations.FaultsArePreciseAndHaveTheirCause := by
  intro s t c hf h hc
  obtain ⟨rfl, ⟨hpc, rfl⟩ | ⟨hpc, i, hd, hcase⟩⟩ := stepEvent_faultCase hf h hc
  · exact ⟨rfl, ⟨fun _ => hpc, fun _ => rfl⟩, nofun, nofun, nofun, nofun⟩
  · refine ⟨rfl, ⟨fun hfetch => ?notFetch, fun hlt => absurd hpc (Nat.not_le_of_lt hlt)⟩, ?_⟩
    case notFetch => subst hfetch; cases hcase
    cases hcase with
    | ret _ hsp => exact ⟨nofun, fun _ => ⟨hsp, hd⟩, nofun, nofun⟩
    | call a _ hsp => exact ⟨fun _ => ⟨hsp, a, hd⟩, nofun, nofun, nofun⟩
    | ldBcd x _ hi => exact ⟨nofun, nofun, fun _ => ⟨_, 2, hd, hi, .inl ⟨x, rfl, rfl⟩⟩, nofun⟩
    | storeBlock x _ hi => exact ⟨nofun, nofun, fun _ => ⟨_, _, hd, hi, .inr (.inl ⟨x, .inl rfl, rfl⟩)⟩, nofun⟩
    | loadBlock x _ hi => exact ⟨nofun, nofun, fun _ => ⟨_, _, hd, hi, .inr (.inl ⟨x, .inr rfl, rfl⟩)⟩, nofun⟩
    | drw x y n _ hi => exact ⟨nofun, nofun, fun _ => ⟨_, _, hd, hi, .inr (.inr (.inl ⟨x, y, n, rfl, rfl⟩))⟩, nofun⟩
    | drwZeroExtended x y _ hi =>
      exact ⟨nofun, nofun, fun _ => ⟨_, 31, hd, hi, .inr (.inr (.inr ⟨x, y, rfl, rfl⟩))⟩, nofun⟩
    | drwZeroClassic x y =>
      have hmode := (decode_as _ _ _ hd).2.1
      exact ⟨nofun, nofun, nofun, fun _ => ⟨of_decide_eq_true hmode, x, y, hd⟩⟩

/-- `stepKind`'s tests, in its order: the latch before, the latch after, the zero word. -/
theorem State.stepKind_iff (s t : State) :
    (s.stepKind t = .faulted ↔ s.fault ≠ none) ∧ (s.stepKind t = .fault ↔ s.fault = none ∧ t.fault ≠ none) ∧
    (s.stepKind t = .halted ↔ s.fault = none ∧ t.fault = none ∧ s.canFetch = true ∧ s.fetchWord = 0) ∧
    (s.stepKind t = .executed ↔ s.fault = none ∧ t.fault = none ∧ ¬ (s.canFetch = true ∧ s.fetchWord = 0)) := by
  unfold State.stepKind
  split_ifs <;> simp_all

/-- Settles O13: each outcome by the way the `Step` went. -/
theorem stepHasOneOfFourOutcomes : Obligations.StepHasOneOfFourOutcomes := by
  intro s t h
  obtain ⟨hfaulted, hfault, hhalted, hexecuted⟩ := s.stepKind_iff t
  rw [hfaulted, hfault, hhalted, hexecuted]
  refine ⟨fun hf => ⟨hf, ?faulted⟩, fun ⟨hf, ht⟩ => ⟨hf, ht, ?fault⟩, fun ⟨hf, _, hc, hw⟩ => ⟨hw, ?halted⟩,
    fun ⟨hf, ht, hnot⟩ => ⟨hf, ht, ?executed⟩⟩
  case faulted => exact Host.Outcome.next.inj (h.symm.trans (stepEvent_of_fault hf))
  case fault =>
    obtain ⟨c, hc⟩ := Option.ne_none_iff_exists'.1 ht
    rw [hc]; exact (stepEvent_faultCase hf h hc).1
  case halted => exact Host.Outcome.next.inj (h.symm.trans (stepEvent_of_stopped (.inl ⟨hf, hc, hw⟩)))
  case executed =>
    rcases stepEvent_cases h hf with ⟨-, rfl⟩ | ⟨hc, u, hd, rfl⟩ | ⟨hc, i, hd, he⟩
    · cases ht
    · exact ⟨fun hw => hnot ⟨hc, hw⟩, .inr ⟨⟨u, hd⟩, rfl⟩⟩
    · exact ⟨fun hw => hnot ⟨hc, hw⟩, .inl ⟨i, hd, he⟩⟩

end Sys2Proof.Machine
end

section
/-! The call stack and the indexed jump: RET, CALL and JP V0 (spec/40_step_and_control.md R123, R125, R126). -/

namespace Sys2Proof.Machine

section effects
variable {s : State} (nnn : Addr)

/-! Both stack operations test SP before any effect: one equation for each answer. -/

theorem exec_ret_of_pos (h : 0 < s.sp.val) : exec .ret s = .next (s.pop.setPc (s.top h + 2)) := dif_pos h

theorem exec_ret_of_zero (h : s.sp.val = 0) : exec .ret s = .next (s.raiseFault .stackUnderflow) :=
  dif_neg (Nat.not_lt_of_le h.le)

theorem exec_call_of_lt (h : s.sp.val < 16) : exec (.call nnn) s = .next ((s.push s.pc h).setPc (zext16 nnn)) :=
  (dif_pos h).trans (congrArg Host.Outcome.next ((s.push s.pc h).advance_setPc_biased (zext16 nnn)))

theorem exec_call_of_full (h : s.sp.val = 16) : exec (.call nnn) s = .next (s.raiseFault .stackOverflow) :=
  dif_neg (Nat.not_lt_of_le h.ge)

/-- The net effect of R126: the biased PC and the step's + 2 cancel (R131). -/
theorem exec_jpV0 (s : State) : exec (.jpV0 nnn) s = .next (s.setPc (indexedTarget s nnn)) :=
  congrArg Host.Outcome.next (s.advance_setPc_biased (indexedTarget s nnn))

end effects

theorem State.getElem?_stack_top (s : State) (h : 0 < s.sp.val) : s.stack[s.sp.val - 1]? = some (s.top h) :=
  Vector.getElem?_eq_getElem _

theorem State.getElem?_stack_push (s : State) (w : Word) (h : s.sp.val < 16) (k : Nat) :
    (s.push w h).stack[k]? = if k = s.sp.val then some w else s.stack[k]? := by
  rw [State.push_stack, Vector.getElem?_set]
  simp only [eq_comm]

theorem State.top_push (s : State) (w : Word) (h : s.sp.val < 16) (hp : 0 < (s.push w h).sp.val) :
    (s.push w h).top hp = w := by
  have htop := (s.push w h).getElem?_stack_top hp
  rw [State.getElem?_stack_push, if_pos (show (s.push w h).sp.val - 1 = s.sp.val from Nat.add_sub_cancel ..)] at htop
  exact (Option.some.inj htop).symm

theorem State.pop_push_sp (s : State) (w : Word) (h : s.sp.val < 16) : (s.push w h).pop.sp = s.sp :=
  Fin.ext (Nat.add_sub_cancel s.sp.val 1)

/-- Settles O14, by whether SP is 0. -/
theorem returnPopsTheCallStack : Obligations.ReturnPopsTheCallStack := by
  refine ⟨decode_retWord, fun s => ⟨exec_ret_of_zero, fun hpos => ?popped⟩⟩
  case popped =>
    exact ⟨_, s.top hpos, exec_ret_of_pos hpos, s.getElem?_stack_top hpos, rfl, rfl, rfl, fun _ => rfl⟩

/-- Settles O16, by whether SP is 16. -/
theorem callPushesItsOwnAddress : Obligations.CallPushesItsOwnAddress := by
  intro nnn
  refine ⟨fun m => decode_withAddr_call m nnn, fun s => ⟨exec_call_of_full nnn, fun hne => ?pushed⟩⟩
  case pushed =>
    have hlt : s.sp.val < 16 := Nat.lt_of_le_of_ne (Nat.le_of_lt_succ s.sp.isLt) hne
    have hslot := s.getElem?_stack_push s.pc hlt
    exact ⟨_, exec_call_of_lt nnn hlt, (hslot _).trans (if_pos rfl), fun k hk => (hslot k).trans (if_neg hk), rfl,
      zext16_eq nnn, rfl, fun _ => rfl⟩

/-- Settles O17: the biased write and the closing + 2 give the 16-bit sum, which does not overflow. -/
theorem indexedJumpAddsV0 : Obligations.IndexedJumpAddsV0 := fun nnn =>
  ⟨fun m => decode_withAddr_jpV0 m nnn, fun s =>
    ⟨_, exec_jpV0 nnn s, indexedTarget_toNat s nnn, rfl, fun _ => rfl⟩⟩

/-- Settles O19: the slot RET pops is the one CALL pushed. -/
theorem returnLandsAfterTheCall : Obligations.ReturnLandsAfterTheCall := by
  intro nnn s hlt
  have hpos : 0 < (s.push s.pc hlt).sp.val := Nat.succ_pos _
  have hsp := s.pop_push_sp s.pc hlt
  refine ⟨_, _, exec_call_of_lt nnn hlt, exec_ret_of_pos hpos, ?pc, hsp, fun k hk => ?slots, ?frame⟩
  case pc => exact congrArg (· + 2) (s.top_push s.pc hlt hpos)
  case slots => exact (s.getElem?_stack_push s.pc hlt k).trans (if_neg hk)
  case frame => rw [← hsp]; rfl

end Sys2Proof.Machine
end

section
/-! The flag-writing ALU instructions and the random byte (spec/41_load_and_alu.md R156 to R162). -/

namespace Sys2Proof.Machine

section effects
variable (s : State) (x y : Nibble) (kk : Byte)

theorem exec_addReg : exec (.addReg x y) s =
    .next ((s.setReg x (s.reg x + s.reg y)).setVF (carry (s.reg x) (s.reg y))).advance := rfl
theorem exec_subReg : exec (.subReg x y) s =
    .next ((s.setReg x (s.reg x - s.reg y)).setVF (notBorrow (s.reg x) (s.reg y))).advance := rfl
theorem exec_subn : exec (.subn x y) s =
    .next ((s.setReg x (s.reg y - s.reg x)).setVF (notBorrow (s.reg y) (s.reg x))).advance := rfl
theorem exec_shr : exec (.shr x y) s =
    .next (s.putShift x y (s.reg y >>> 1) (shiftedOutRight (s.reg y))).advance := rfl
theorem exec_shl : exec (.shl x y) s =
    .next (s.putShift x y (s.reg y <<< 1) (shiftedOutLeft (s.reg y))).advance := rfl
theorem exec_rnd : exec (.rnd x kk) s = .next (s.takeRnd.setReg x (s.rnd &&& kk)).advance := rfl

end effects

/-- One register write, the flag's after it, and the closing `advance` are the whole effect `WritesRegAndFlag` states:
where x is F the flag is what stays (R162). -/
theorem writesRegAndFlag_of_exec {i : Instr} {s : State} {x : Nibble} {b f : Byte}
    (h : exec i s = .next ((s.setReg x b).setVF f).advance) : WritesRegAndFlag i s x b f := by
  have hreg := (s.setReg x b).reg_setVF f
  refine ⟨_, h, ?flag, fun hx => ?value, fun k hkx hkF => ?otherRegs, rfl, fun _ => rfl⟩
  case flag => exact (hreg 0xF).trans (if_pos rfl)
  case value => exact ((hreg x).trans (if_neg hx)).trans (s.reg_setReg_same x b)
  case otherRegs => exact ((hreg k).trans (if_neg hkF)).trans (s.reg_setReg_ne x k b hkx)

/-- Settles O22: the 8-bit sum is the sum modulo 256, and `carry` is by definition whether the sum exceeds 255. -/
theorem addRegistersSetsCarry : Obligations.AddRegistersSetsCarry := by
  intro x y
  constructor
  · exact fun m => decode_digits_class8 m x y _
  · intro s
    have h := writesRegAndFlag_of_exec (exec_addReg s x y)
    rwa [add_eq] at h

/-- Settles O23: the 8-bit differences are the differences modulo 256, and `notBorrow` is by definition the
comparison. -/
theorem subtractionsSetNotBorrow : Obligations.SubtractionsSetNotBorrow := by
  intro x y
  constructor
  · exact fun m => ⟨decode_digits_class8 m x y _, decode_digits_class8 m x y _⟩
  · intro s
    have hsub := writesRegAndFlag_of_exec (exec_subReg s x y)
    have hsubn := writesRegAndFlag_of_exec (exec_subn s x y)
    rw [sub_eq] at hsub hsubn
    exact ⟨hsub, hsubn⟩

/-- Settles O24: both shifts are one `putShift`, whose three writes end with the flag's. -/
theorem shiftsWriteBothRegistersAndFlag : Obligations.ShiftsWriteBothRegistersAndFlag := by
  intro x y
  constructor
  · exact fun m => ⟨decode_digits_class8 m x y _, decode_digits_class8 m x y _⟩
  · intro s left b i result out
    have hexec : exec i s = .next (s.putShift x y result out).advance := by
      cases left with
      | false => exact (exec_shr s x y).trans (by rw [shiftRight_eq, shiftedOutRight_eq]; rfl)
      | true => exact (exec_shl s x y).trans (by rw [shiftLeft_eq, shiftedOutLeft_eq]; rfl)
    have hreg := s.reg_putShift x y result out
    refine ⟨_, hexec, ?flag, fun hx => ?vx, fun hy => ?vy, fun k hkx hky hkF => ?otherRegs, rfl, fun _ => rfl⟩
    case flag => exact (hreg 0xF).trans (if_pos rfl)
    case vx => exact (hreg x).trans ((if_neg hx).trans (if_pos (.inl rfl)))
    case vy => exact (hreg y).trans ((if_neg hy).trans (if_pos (.inr rfl)))
    case otherRegs => exact (hreg k).trans ((if_neg hkF).trans (if_neg (not_or.2 ⟨hkx, hky⟩)))

/-- A state that holds the bytes `takeRnd` leaves has drawn one random byte. -/
theorem rndDrawn_of_takeRnd {s t : State} (hr : t.rnds = s.takeRnd.rnds) (hd : t.draws = s.takeRnd.draws) :
    RndDrawn s t := by
  rw [RndDrawn, hr, hd]
  rcases s.rnd_cases with ⟨b, bs, hq, hrnd, ht⟩ | ⟨hq, hrnd, ht⟩
  · constructor
    · intro b' bs' h
      obtain ⟨rfl, rfl⟩ := List.cons.inj (hq.symm.trans h)
      exact ⟨hrnd, by rw [ht], by rw [ht]⟩
    · intro h
      exact absurd (hq.symm.trans h) (List.cons_ne_nil b bs)
  · constructor
    · intro b' bs' h
      exact absurd (h.symm.trans hq) (List.cons_ne_nil b' bs')
    · intro _
      exact ⟨hrnd, by rw [ht, hq], by rw [ht]⟩

/-- Settles O25: the byte is the host's next answer; a value within the mask results from the answer of that value. -/
theorem randomByteIsMaskedAndOtherwiseFree : Obligations.RandomByteIsMaskedAndOtherwiseFree := by
  intro x kk
  refine ⟨fun m => decode_withByte_rnd m x kk, fun s => ⟨_, exec_rnd s x kk, ?value, ?drawn, fun k hk => ?otherRegs,
    ?frame, ?memory⟩, fun s r hr => ⟨r, _, exec_rnd _ x kk, ?reached⟩⟩
  case value => exact s.takeRnd.reg_setReg_same x _
  case drawn => exact rndDrawn_of_takeRnd rfl rfl
  case otherRegs => exact (s.takeRnd.reg_setReg_ne x k _ hk).trans (s.reg_takeRnd k)
  case frame => rw [s.takeRnd_eq]; rfl
  case memory => intro a; rw [s.takeRnd_eq]; rfl
  case reached => exact (State.reg_setReg_same _ x _).trans hr

end Sys2Proof.Machine
end

section
/-! Which instructions write which state (spec/10_state.md section 10, R39), and the invariant every step keeps
(spec/00_scope.md R7, R33, R60, R192). -/

namespace Sys2Proof.Machine

/-! ## The writers of each field -/

/-- The writers R39 gives each field but V and PC: from `s` to `t` a field is as before where `i` is none of them. -/
structure WritersOnly (i : Instr) (s t : State) : Prop where
  sp : i ≠ .ret → (∀ a, i ≠ .call a) → t.sp = s.sp
  stack : (∀ a, i ≠ .call a) → t.stack = s.stack
  mem : (∀ x, i ≠ .ldBcd x) → (∀ x, i ≠ .storeBlock x) → t.mem = s.mem
  index : t.i ≠ s.i → (∃ a, i = .ldI a) ∨ ∃ x, i = .addI x ∨ i = .ldFont x ∨ i = .storeBlock x ∨ i = .loadBlock x
  delay : t.dt ≠ s.dt → ∃ x, i = .ldDt x
  sound : t.st ≠ s.st ∨ t.outputs ≠ s.outputs → ∃ x, i = .ldSt x
  hires : t.hires ≠ s.hires → i = .low ∨ i = .high
  bank : t.r ≠ s.r → ∃ x, i = .saveFlags x
  disp : t.disp ≠ s.disp → i = .cls ∨ i = .scr ∨ i = .scl ∨ (∃ n, i = .scd n ∨ i = .scu n) ∨
    ∃ x y, i = .drwZeroExtended x y ∨ ∃ n, i = .drw x y n

/-- An instruction that faults writes the latch, which is none of these fields. -/
theorem WritersOnly.raiseFault (i : Instr) (s : State) (c : Fault) : WritersOnly i s (s.raiseFault c) := by
  constructor <;> simp

/-- An instruction that tests its condition before any effect does its effect, or faults (R283). -/
theorem eq_or_eq_of_ite_raiseFault {c : Prop} [Decidable c] {s t u : State} {f : Fault}
    (h : (if c then .next u else .next (s.raiseFault f) : Host.Outcome State Fault Refusal) = .next t) :
    t = u ∨ t = s.raiseFault f := by
  split at h <;> cases h
  · exact .inl rfl
  · exact .inr rfl

/-- R39, instruction by instruction. -/
theorem exec_writersOnly {i : Instr} {s t : State} (h : exec i s = .next t) : WritersOnly i s t := by
  cases i
  case ret =>
    rcases Nat.eq_zero_or_pos s.sp.val with hsp | hsp
    · cases h.symm.trans (exec_ret_of_zero hsp); exact .raiseFault ..
    · cases h.symm.trans (exec_ret_of_pos hsp); constructor <;> simp
  case call nnn =>
    by_cases hsp : s.sp.val < 16
    · cases h.symm.trans (exec_call_of_lt nnn hsp); constructor <;> simp
    · cases h.symm.trans (exec_call_of_full nnn (by have := s.sp.isLt; omega)); exact .raiseFault ..
  case drw | drwZeroExtended | ldBcd | storeBlock | loadBlock =>
    rcases eq_or_eq_of_ite_raiseFault h with rfl | rfl
    · constructor <;> simp
    · exact .raiseFault ..
  case drwZeroClassic => cases h; exact .raiseFault ..
  case ldKey x =>
    cases hkey : s.key with
    | none => cases h.symm.trans (exec_ldKey_of_none s x hkey); constructor <;> simp
    | some k => cases h.symm.trans (exec_ldKey_of_some s x hkey); constructor <;> simp
  case ldSt x =>
    by_cases hx : s.reg x = 0
    · cases h.symm.trans (exec_ldSt_of_eq_zero s x hx); constructor <;> simp
    · cases h.symm.trans (exec_ldSt_of_ne_zero s x hx); constructor <;> simp
  -- Every instruction left has one answer, whose fields the laws of State give.
  all_goals
    cases h
    constructor <;> simp

/-- Settles O55: the memory field of `exec_writersOnly`. -/
theorem onlyBcdAndBlockStoreWriteMemory : Obligations.OnlyBcdAndBlockStoreWriteMemory := by
  intro i s t h hbcd hstore
  have hmem : t.mem = s.mem := (exec_writersOnly h).mem hbcd hstore
  exact ⟨fun a => by rw [hmem], hmem⟩

/-- Settles O57: SP and the slots by `exec_writersOnly`, the latch by `exec_faultCase`. -/
theorem stackWrittenOnlyByCallAndReturn : Obligations.StackWrittenOnlyByCallAndReturn := by
  intro i s t h
  have hw := exec_writersOnly h
  exact ⟨hw.sp, hw.stack, (exec_faultCase h).imp_right fun ⟨c, _, ht⟩ => ⟨c, ht⟩⟩

/-- Settles O58: the other fields of `exec_writersOnly`. -/
theorem specialStateHasOnlyItsWriters : Obligations.SpecialStateHasOnlyItsWriters := by
  intro i s t h
  have hw := exec_writersOnly h
  exact ⟨hw.index, hw.delay, hw.sound, hw.hires, hw.bank, hw.disp⟩

/-! ## The invariant -/

/-- Only the two stores write memory, and both stay inside it. -/
theorem exec_wf_mem {i : Instr} {s t : State} (h : exec i s = .next t) (hm : Memory.wf s.mem) : Memory.wf t.mem := by
  by_cases hbcd : ∃ x, i = .ldBcd x
  · obtain ⟨x, rfl⟩ := hbcd
    rcases Nat.lt_or_ge 0xFFF (s.i.toNat + 2) with hi | hi
    · cases h.symm.trans (exec_ldBcd_of_lt hi); exact hm
    · cases h.symm.trans (exec_ldBcd_of_le hi)
      exact Memory.wf_storeBytes hm (Nat.succ_le_succ hi)
  by_cases hstore : ∃ x, i = .storeBlock x
  · obtain ⟨x, rfl⟩ := hstore
    rcases Nat.lt_or_ge 0xFFF (s.i.toNat + x.toNat) with hi | hi
    · cases h.symm.trans (exec_storeBlock_of_lt hi); exact hm
    · cases h.symm.trans (exec_storeBlock_of_le hi)
      exact Memory.wf_storeBytes hm (by rw [s.length_block]; exact Nat.succ_le_succ hi)
  · rw [(exec_writersOnly h).mem (not_exists.1 hbcd) (not_exists.1 hstore)]; exact hm

/-- Only the clear, the scrolls and the draws write the plane, and each answers one of its shape. -/
theorem exec_shaped_disp {i : Instr} {s t : State} (h : exec i s = .next t)
    (hd : Plane.shaped s.cfg.width s.cfg.height s.disp) : Plane.shaped s.cfg.width s.cfg.height t.disp := by
  by_cases hsame : t.disp = s.disp
  · rw [hsame]; exact hd
  rcases (exec_writersOnly h).disp hsame with rfl | rfl | rfl | ⟨n, rfl | rfl⟩ | ⟨x, y, rfl | ⟨n, rfl⟩⟩
  · cases h; exact Plane.shaped_blank s.cfg
  · cases h; exact shaped_scroll ..
  · cases h; exact shaped_scroll ..
  · cases h; exact shaped_scroll ..
  · cases h; exact shaped_scroll ..
  · rcases eq_or_eq_of_ite_raiseFault h with rfl | rfl
    · exact shaped_draw hd ..
    · exact hd
  · rcases eq_or_eq_of_ite_raiseFault h with rfl | rfl
    · exact shaped_draw hd ..
    · exact hd

/-- A state with the configuration, the memory and the plane of one that meets the invariant meets it. -/
theorem State.inv_congr {s t : State} (hs : s.Inv) (hc : t.cfg = s.cfg) (hm : t.mem = s.mem) (hd : t.disp = s.disp) :
    t.Inv := by
  unfold State.Inv
  rw [hc, hm, hd]; exact hs

theorem exec_inv {i : Instr} {s t : State} (h : exec i s = .next t) (hs : s.Inv) : t.Inv := by
  obtain ⟨hc, hm, hd⟩ := hs
  unfold State.Inv
  rw [(exec_cfg_pending h).1]
  exact ⟨hc, exec_wf_mem h hm, exec_shaped_disp h hd⟩

theorem loadEvent_inv {s : State} (hs : s.Inv) (bytes : List Byte) : (s.loadEvent bytes).Inv := by
  unfold State.loadEvent
  split
  · next hlen =>
    obtain ⟨hc, hm, hd⟩ := hs
    have hend : origin + bytes.length ≤ 0x1000 := Nat.add_le_add_left hlen origin
    exact ⟨hc, Memory.wf_storeBytes (Memory.wf_clearProgram hm) hend, hd⟩
  · exact hs

theorem perform_inv {s t : State} {e : Event} (h : s.perform e = .next t) (hs : s.Inv) : t.Inv := by
  cases e with
  | step =>
    exact stepEvent_rel (P := fun s t => s.Inv → t.Inv) (fun _ _ _ => exec_inv) (fun _ => id) (fun _ => id)
      (fun _ => id) h hs
  | tick =>
    obtain rfl : s.tickEvent = t := Host.Outcome.next.inj h
    rw [s.tickEvent_eq]; exact hs
  | reset =>
    cases h
    exact ⟨hs.1, hs.2.1, Plane.shaped_blank s.cfg⟩
  | load bytes =>
    cases h
    exact loadEvent_inv hs bytes

/-- Settles O53: taking the next event writes no field of the invariant, and every event keeps it. -/
theorem everyStepKeepsMemoryAndPlaneWellFormed : Obligations.EveryStepKeepsMemoryAndPlaneWellFormed := fun s _ hs h =>
  perform_inv h (State.inv_congr hs s.takeEvent_cfg s.takeEvent_mem s.takeEvent_disp)

theorem State.powerOn_inv {c : Config} (hc : c.wf) : (State.powerOn c).Inv :=
  ⟨hc, Memory.wf_nil, Plane.shaped_blank c⟩

/-- Settles O54: every power-on state of a legal configuration meets the invariant, the default one among them. -/
theorem resetMemoryAndPlaneAreWellFormed : Obligations.ResetMemoryAndPlaneAreWellFormed :=
  State.powerOn_inv (by decide)

end Sys2Proof.Machine
end

section
/-! The state most instructions do not look at: the inputs (spec/10_state.md section 8), and HIRES, ST and the outputs
(R27, R30, R36). -/

namespace Sys2Proof.Machine

/-- The instructions that consult an input (R12, R37). -/
def ReadsInputs (i : Instr) : Prop := (∃ x, i = .skp x ∨ i = .sknp x ∨ i = .ldKey x) ∨ ∃ x kk, i = .rnd x kk

/-- The instructions that write HIRES, ST or the outputs (R39). -/
def WritesUnread (i : Instr) : Prop := i = .low ∨ i = .high ∨ ∃ x, i = .ldSt x

/-- `s` with other inputs to come. -/
def State.withInputs (s : State) (ks : List (Option Nibble)) (rs : List Byte) (d : Nat) : State :=
  { s with keys := ks, rnds := rs, draws := d }

/-- `s` with other values of the fields no instruction reads. -/
def State.withUnread (s : State) (h : Resolution) (b : Byte) (o : List Output) : State :=
  { s with hires := h, st := b, outputs := o }

section overrides
variable (s : State) (ks : List (Option Nibble)) (rs : List Byte) (d : Nat) (h : Resolution) (b : Byte)
  (o : List Output)

theorem State.skipIf_withInputs_withUnread (c : Bool) :
    ((s.withInputs ks rs d).withUnread h b o).skipIf c = ((s.skipIf c).withInputs ks rs d).withUnread h b o := by
  cases c <;> rfl

@[simp] theorem State.withUnread_key : (s.withUnread h b o).key = s.key := rfl

theorem State.takeKey_withUnread : (s.withUnread h b o).takeKey = s.takeKey.withUnread h b o := by
  unfold State.takeKey
  rw [show (s.withUnread h b o).keys = s.keys from rfl]
  split <;> rfl

theorem State.takeRnd_withUnread : (s.withUnread h b o).takeRnd = s.takeRnd.withUnread h b o := by
  unfold State.takeRnd
  rw [show (s.withUnread h b o).rnds = s.rnds from rfl]
  split <;> rfl

theorem State.skipIf_withUnread (c : Bool) : (s.withUnread h b o).skipIf c = (s.skipIf c).withUnread h b o := by
  cases c <;> rfl

end overrides

/-- An instruction that consults no input and writes none of HIRES, ST and the outputs does the same whatever all of
these hold, and leaves them. -/
theorem exec_withInputs_withUnread {i : Instr} {s t : State} (he : exec i s = .next t) (hin : ¬ ReadsInputs i)
    (hout : ¬ WritesUnread i) (ks : List (Option Nibble)) (rs : List Byte) (d : Nat) (h : Resolution) (b : Byte)
    (o : List Output) :
    exec i ((s.withInputs ks rs d).withUnread h b o) = .next ((t.withInputs ks rs d).withUnread h b o) := by
  cases i
  case skp | sknp | ldKey | rnd => exact absurd (by simp [ReadsInputs]) hin
  case low | high | ldSt => exact absurd (by simp [WritesUnread]) hout
  case ret =>
    rcases Nat.eq_zero_or_pos s.sp.val with hsp | hsp
    · cases he.symm.trans (exec_ret_of_zero hsp); exact exec_ret_of_zero hsp
    · cases he.symm.trans (exec_ret_of_pos hsp)
      exact exec_ret_of_pos (s := (s.withInputs ks rs d).withUnread h b o) hsp
  case call nnn =>
    by_cases hsp : s.sp.val < 16
    · cases he.symm.trans (exec_call_of_lt nnn hsp)
      exact exec_call_of_lt (s := (s.withInputs ks rs d).withUnread h b o) nnn hsp
    · have hfull : s.sp.val = 16 := by have := s.sp.isLt; omega
      cases he.symm.trans (exec_call_of_full nnn hfull); exact exec_call_of_full nnn hfull
  case drw x y n =>
    by_cases hr : s.inRange (n.toNat - 1) = true
    · cases he.symm.trans (exec_drw_of_inRange hr); exact if_pos hr
    · cases he.symm.trans (exec_drw_of_not_inRange hr); exact if_neg hr
  case drwZeroExtended x y =>
    by_cases hr : s.inRange 31 = true
    · cases he.symm.trans (exec_drwZeroExtended_of_inRange hr); exact if_pos hr
    · cases he.symm.trans (exec_drwZeroExtended_of_not_inRange hr); exact if_neg hr
  case ldBcd x =>
    rcases Nat.lt_or_ge 0xFFF (s.i.toNat + 2) with hi | hi
    · cases he.symm.trans (exec_ldBcd_of_lt hi); exact exec_ldBcd_of_lt hi
    · cases he.symm.trans (exec_ldBcd_of_le hi); exact exec_ldBcd_of_le hi
  case storeBlock x =>
    rcases Nat.lt_or_ge 0xFFF (s.i.toNat + x.toNat) with hi | hi
    · cases he.symm.trans (exec_storeBlock_of_lt hi); exact exec_storeBlock_of_lt hi
    · cases he.symm.trans (exec_storeBlock_of_le hi); exact exec_storeBlock_of_le hi
  case loadBlock x =>
    rcases Nat.lt_or_ge 0xFFF (s.i.toNat + x.toNat) with hi | hi
    · cases he.symm.trans (exec_loadBlock_of_lt hi); exact exec_loadBlock_of_lt hi
    · cases he.symm.trans (exec_loadBlock_of_le hi); exact exec_loadBlock_of_le hi
  case seByte | sneByte | seReg | sneReg =>
    cases he
    exact congrArg Host.Outcome.next (s.skipIf_withInputs_withUnread ks rs d h b o _)
  -- Every instruction left tests nothing: its one answer is made of fields that are not overridden.
  all_goals cases he; rfl

/-- Settles O59: of the other instructions, the three that write HIRES, ST or the outputs do so whatever the inputs
are, and the rest leave those three as they are. -/
theorem inputsAreReadOnlyByTheirInstructions : Obligations.InputsAreReadOnlyByTheirInstructions := by
  intro i s t ks rs d he hkey hrnd
  have hin : ¬ ReadsInputs i := by
    rintro (⟨x, rfl | rfl | rfl⟩ | ⟨x, kk, rfl⟩)
    · exact (hkey x).1 rfl
    · exact (hkey x).2.1 rfl
    · exact (hkey x).2.2 rfl
    · exact hrnd x kk rfl
  by_cases hout : WritesUnread i
  · rcases hout with rfl | rfl | ⟨x, rfl⟩
    · cases he; rfl
    · cases he; rfl
    · by_cases hx : s.reg x = 0
      · cases he.symm.trans (exec_ldSt_of_eq_zero s x hx); exact exec_ldSt_of_eq_zero _ x hx
      · cases he.symm.trans (exec_ldSt_of_ne_zero s x hx); exact exec_ldSt_of_ne_zero _ x hx
  · have hself := exec_withInputs_withUnread he hin hout s.keys s.rnds s.draws s.hires s.st s.outputs
    have hother := exec_withInputs_withUnread he hin hout ks rs d s.hires s.st s.outputs
    have ht : t = (t.withInputs s.keys s.rnds s.draws).withUnread s.hires s.st s.outputs :=
      Host.Outcome.next.inj (he.symm.trans hself)
    rw [ht]
    exact hother

/-- Settles O60: the instructions that consult an input consult the same one, and the rest leave the inputs as they
are. -/
theorem hiresSoundTimerAndOutputsAreReadByNoInstruction :
    Obligations.HiresSoundTimerAndOutputsAreReadByNoInstruction := by
  intro i s t h b o he hlow hhigh hldSt
  have hout : ¬ WritesUnread i := by
    rintro (rfl | rfl | ⟨x, rfl⟩)
    · exact hlow rfl
    · exact hhigh rfl
    · exact hldSt x rfl
  show exec i (s.withUnread h b o) = .next (t.withUnread h b o)
  by_cases hin : ReadsInputs i
  · rcases hin with ⟨x, rfl | rfl | rfl⟩ | ⟨x, kk, rfl⟩
    · cases he
      show Host.Outcome.next ((s.withUnread h b o).takeKey.skipIf _) = _
      rw [State.takeKey_withUnread, State.skipIf_withUnread]; rfl
    · cases he
      show Host.Outcome.next ((s.withUnread h b o).takeKey.skipIf _) = _
      rw [State.takeKey_withUnread, State.skipIf_withUnread]; rfl
    · cases he
      simp only [exec, execLdKey, State.withUnread_key, State.takeKey_withUnread]
      cases s.key <;> rfl
    · cases he
      rw [exec_rnd, State.takeRnd_withUnread]; rfl
  · have hself := exec_withInputs_withUnread he hin hout s.keys s.rnds s.draws s.hires s.st s.outputs
    have hother := exec_withInputs_withUnread he hin hout s.keys s.rnds s.draws h b o
    have ht : t = (t.withInputs s.keys s.rnds s.draws).withUnread s.hires s.st s.outputs :=
      Host.Outcome.next.inj (he.symm.trans hself)
    rw [ht]
    exact hother

end Sys2Proof.Machine
end

section
/-! The tick agent and the host: `Tick`, power-on, `Reset` and `Load` (spec/60_exceptions.md R286,
spec/70_reset_and_hazards.md R320 to R327), and code fetched where it was just stored (spec/20_memory.md R74). -/

namespace Sys2Proof.Machine

/-- Settles O46: the two timers and the outputs of `tickEvent`, and its frame. -/
theorem tickCountsBothTimersDown : Obligations.TickCountsBothTimersDown := by
  intro s
  refine ⟨s.tickEvent, rfl, s.tickEvent_dt_toNat, s.tickEvent_st_toNat, s.tickEvent_outputs, s.tickEvent_eq,
    fun a => ?memory⟩
  case memory => rw [s.tickEvent_eq]

/-! ## Power-on and Reset -/

theorem Memory.read_nil (a : Nat) : Memory.read [] a = Memory.unlisted a := rfl

theorem Memory.unlisted_font {a : Nat} (h : a < 0x50) : some (Memory.unlisted a) = font[a]? := by
  have hlen : a < font.length := h
  rw [Memory.unlisted, if_pos h, List.getD_eq_getElem?_getD, List.getElem?_eq_getElem hlen, Option.getD_some]

section powerOn
variable (c : Config)

theorem State.powerOn_reg (k : Nibble) : (State.powerOn c).reg k = 0 := Vector.getElem_replicate _

theorem State.powerOn_stack {k : Nat} (h : k < 16) : (State.powerOn c).stack[k]? = some 0 :=
  Vector.getElem?_replicate.trans (if_pos h)

theorem State.powerOn_bank {k : Nat} (h : k < 8) : (State.powerOn c).r[k]? = some 0 :=
  Vector.getElem?_replicate.trans (if_pos h)

theorem State.powerOn_pixel (x y : Nat) : (State.powerOn c).pixel x y = false := Plane.cell_blank c x y

end powerOn

/-- Settles O48: but for memory, the events, the inputs and the outputs, the state after `Reset` is the power-on
state. -/
theorem resetRestoresPowerOnValues : Obligations.ResetRestoresPowerOnValues := fun s =>
  ⟨s.resetEvent, rfl, State.powerOn_reg s.cfg, rfl, rfl, rfl, rfl, rfl, fun _ => State.powerOn_stack s.cfg,
    State.powerOn_pixel s.cfg, Plane.shaped_blank s.cfg, rfl, fun _ => State.powerOn_bank s.cfg, rfl,
    fun _ => rfl, rfl, rfl⟩

/-- Settles O52: at power-on memory lists nothing, so it reads as unlisted. -/
theorem resetStateHasTheSpecifiedValues : Obligations.ResetStateHasTheSpecifiedValues :=
  ⟨State.powerOn_reg _, rfl, rfl, rfl, rfl, rfl, fun _ => State.powerOn_stack _, State.powerOn_pixel _, rfl,
    fun _ => State.powerOn_bank _, rfl, rfl, fun _ => Memory.unlisted_font,
    fun _ h _ => Memory.unlisted_program h⟩

section powerOnWith
variable (f : Vector Byte 80) (l : Vector Byte 432)

theorem length_font_lowmem : (f.toList ++ l.toList).length = 0x200 := by simp

theorem Memory.read_storeBytes_zero (m : Memory) (bs : List Byte) {a : Nat} (h : a < bs.length) :
    some (Memory.read (Memory.storeBytes m 0 bs) a) = bs[a]? := by
  rw [List.getElem?_eq_getElem h, ← Memory.read_storeBytes_inside m 0 bs a h, Nat.zero_add]

theorem read_powerOn_font {a : Nat} (h : a < 0x50) :
    some (Memory.read (Memory.storeBytes [] 0 (f.toList ++ l.toList)) a) = f[a]? := by
  rw [Memory.read_storeBytes_zero _ _ (by rw [length_font_lowmem]; omega),
    List.getElem?_append_left (by simpa using h), Vector.getElem?_toList]

theorem read_powerOn_lowmem {a : Nat} (h : 0x50 ≤ a) (h' : a < 0x200) :
    some (Memory.read (Memory.storeBytes [] 0 (f.toList ++ l.toList)) a) = l[a - 0x50]? := by
  rw [Memory.read_storeBytes_zero _ _ (by rwa [length_font_lowmem]),
    List.getElem?_append_right (by simpa using h), Vector.length_toList, Vector.getElem?_toList]

theorem read_powerOn_program {a : Nat} (h : 0x200 ≤ a) :
    Memory.read (Memory.storeBytes [] 0 (f.toList ++ l.toList)) a = 0 := by
  rw [Memory.read_storeBytes_outside _ _ _ _ (.inr (by rw [length_font_lowmem]; omega)), Memory.read_nil,
    Memory.unlisted_program h]

end powerOnWith

/-- Settles O51: one run of 512 stored bytes, the font's and then the low memory's, over a memory that lists nothing. -/
theorem powerOnMemoryHoldsFontLowmemZeros : Obligations.PowerOnMemoryHoldsFontLowmemZeros := by
  intro c f l s
  refine ⟨fun a => read_powerOn_font f l, fun a => read_powerOn_lowmem f l, fun a h _ => read_powerOn_program f l h,
    rfl, fun hc => ⟨hc, ?memory, Plane.shaped_blank c⟩⟩
  case memory => exact Memory.wf_storeBytes Memory.wf_nil (by rw [length_font_lowmem]; decide)

/-! ## Load -/

section load
variable {s : State} {bytes : List Byte}

theorem State.loadEvent_of_le (h : bytes.length ≤ 3584) :
    s.loadEvent bytes = { s with mem := Memory.storeBytes (Memory.clearProgram s.mem) 0x200 bytes, pc := 0x200 } :=
  if_pos h

theorem State.loadEvent_of_lt (h : 3584 < bytes.length) :
    s.loadEvent bytes = { s with outputs := s.outputs ++ [.loadRefused] } :=
  if_neg (Nat.not_le_of_lt h)

end load

/-- Settles O49: the program area is cleared, and the bytes are stored over it from 0x200 on. -/
theorem loadReplacesTheProgramOnly : Obligations.LoadReplacesTheProgramOnly := by
  intro s bytes
  refine ⟨fun h => congrArg Host.Outcome.next (State.loadEvent_of_lt h), fun h =>
    ⟨_, congrArg Host.Outcome.next (State.loadEvent_of_le h), fun k hk => ?program, fun a ha _ => ?zeros,
      fun a ha => ?below, rfl⟩⟩
  case program => rw [Memory.read_storeBytes_inside _ _ _ k hk, List.getElem?_eq_getElem hk]
  case zeros =>
    rw [Memory.read_storeBytes_outside _ _ _ a (.inr ha), Memory.read_clearProgram, if_neg (by omega)]
  case below =>
    rw [Memory.read_storeBytes_outside _ _ _ a (.inl ha), Memory.read_clearProgram, if_pos ha]

/-- `Reset` keeps memory and the events to come, and sets PC to the origin, as `Load` does. -/
theorem State.loadEvent_resetEvent (s : State) {bytes : List Byte} (h : bytes.length ≤ 3584) :
    s.resetEvent.loadEvent bytes = (s.loadEvent bytes).resetEvent := by
  rw [State.loadEvent_of_le h, State.loadEvent_of_le h]; rfl

/-- A `Step` runs the instruction the two bytes at PC decode to. -/
theorem step_of_read {s : State} {a b : Byte} {i : Instr} (hnext : s.stepIsNext) (hfault : s.fault = none)
    (hpc : s.pc.toNat ≤ 0xFFE) (ha : Memory.read s.mem s.pc.toNat = a) (hb : Memory.read s.mem (s.pc.toNat + 1) = b)
    (hd : decode s.cfg.mode (BitVec.ofNat 16 (a.toNat * 256 + b.toNat)) = .instr i) : step s = exec i s.takeEvent :=
  stepRunsTheDecodedInstruction s i hnext hfault hpc (by rwa [ha, hb])

/-- Settles O50: after both, PC is at the first byte and no fault is left. -/
theorem loadedProgramRunsFromItsFirstWord : Obligations.LoadedProgramRunsFromItsFirstWord := by
  intro s a b bs i hnext hlen hd
  have hle : (a :: b :: bs).length ≤ 3584 := Nat.add_le_add_right hlen 2
  refine ⟨s.loadEvent_resetEvent hle, ?step⟩
  case step =>
    have inside := Memory.read_storeBytes_inside (Memory.clearProgram s.mem) 0x200 (a :: b :: bs)
    rw [State.loadEvent_of_le hle]
    exact step_of_read (a := a) (b := b) ((State.headEvent_congr rfl rfl).trans hnext) rfl
      (show (0x200 : Word).toNat ≤ 0xFFE by decide)
      (inside 0 (by simp)) (inside 1 (by simp)) hd

/-! ## Stored code -/

/-- Settles O45: PC + 2 is I, where the store begins, and the step's fetch reads what it left there. -/
theorem storedCodeIsFetchedByTheNextStep : Obligations.StoredCodeIsFetchedByTheNextStep := by
  intro s t x i hx hnext hfault hpc hi hrange he hd
  have hpcNext : (s.pc + 2).toNat = s.pc.toNat + 2 := by 
    rw [BitVec.toNat_add]
    exact Nat.mod_eq_of_lt (show s.pc.toNat + 2 < 65536 by omega)
  obtain ⟨hcfg, hpending, hturns⟩ := exec_cfg_pending he
  cases (exec_storeBlock_of_le hrange).symm.trans he
  have stored := fun k hk => Memory.read_storeBytes_block s.mem s.i.toNat s (x := x) (k := k) hk
  have hfetch : Memory.read (Memory.storeBytes s.mem s.i.toNat (s.block x)) (s.pc + 2).toNat = s.reg 0 := by
    rw [← hi]; exact stored 0 (Nat.zero_le _)
  have hfetch' : Memory.read (Memory.storeBytes s.mem s.i.toNat (s.block x)) ((s.pc + 2).toNat + 1) = s.reg 1 := by
    rw [← hi]; exact stored 1 hx
  exact step_of_read ((State.headEvent_congr hpending hturns).trans hnext) hfault
    (show (s.pc + 2).toNat ≤ 0xFFE by omega) hfetch hfetch' hd

end Sys2Proof.Machine
end

section
/-! The draws: their words (spec/30_encoding.md R95) and their effects (spec/42_display.md R182, R183, R188 to R190). -/

namespace Sys2Proof.Machine

/-! ## One sequence of toggles -/

section drawSeq
variable {w h : Nat} {ps : List (Nat × Nat)} {d : Plane} (hd : Plane.shaped w h d) (hps : ∀ q ∈ ps, q.1 < w ∧ q.2 < h)
include hd hps

/-- The same toggles twice restore the plane. -/
theorem drawSeq_twice_plane (c c' : Bool) : (drawSeq ps ((drawSeq ps (d, c)).1, c')).1 = d := by
  have hd' := shaped_drawSeq ps c hd
  refine Plane.ext_of_cell (shaped_drawSeq ps c' hd') hd fun a b => ?_
  rw [cell_drawSeq ps c' hd' hps, cell_drawSeq ps c hd hps, Bool.xor_assoc, Bool.xor_self, Bool.xor_false]

/-- On a blank plane the second pass collides as soon as there is a toggle: the last one meets its pixel as the first
pass left it, toggled by all earlier ones again, which is one toggle in all. -/
theorem collision_drawSeq_twice (hblank : ∀ a b, Plane.cell d a b = false) :
    (drawSeq ps ((drawSeq ps (d, false)).1, false)).2 = true ↔ ∃ q, q ∈ ps := by
  rw [collision_drawSeq ps false (shaped_drawSeq ps false hd) hps]
  constructor
  · rintro (hf | ⟨l, q, r, rfl, -⟩)
    · cases hf
    · exact ⟨q, by simp⟩
  · rintro ⟨q', hq'⟩
    rcases ps.eq_nil_or_concat with rfl | ⟨l, q, rfl⟩
    · cases hq'
    · refine .inr ⟨l, q, [], List.concat_eq_append, ?_⟩
      have hcount : (l.concat q).count q = l.count q + 1 := by simp
      rw [cell_drawSeq _ false hd hps, hblank, hcount]
      rcases Nat.mod_two_eq_zero_or_one (l.count q) with hl | hl <;> simp [hl, Nat.add_mod]

/-! Where no pixel is among the toggles twice, each is toggled once, and tested as it was before. -/

variable (hnodup : ps.Nodup)
include hnodup

theorem cell_drawSeq_of_nodup (c : Bool) (a b : Nat) :
    Plane.cell (drawSeq ps (d, c)).1 a b = (Plane.cell d a b ^^ decide ((a, b) ∈ ps)) := by
  rw [cell_drawSeq ps c hd hps, hnodup.count]
  split <;> simp [*]

theorem collision_drawSeq_of_nodup :
    (drawSeq ps (d, false)).2 = true ↔ ∃ q ∈ ps, Plane.cell d q.1 q.2 = true := by
  have first : ∀ l q r, ps = l ++ q :: r → l.count q = 0 := by
    rintro l q r rfl
    exact List.count_eq_zero.2 fun hq => (List.nodup_append.1 hnodup).2.2 q hq q List.mem_cons_self rfl
  rw [collision_drawSeq ps false hd hps]
  constructor
  · rintro (hf | ⟨l, q, r, e, hq⟩)
    · cases hf
    · rw [first l q r e] at hq
      exact ⟨q, by rw [e]; simp, by simpa using hq⟩
  · rintro ⟨q, hmem, hq⟩
    obtain ⟨l, r, e⟩ := List.append_of_mem hmem
    exact .inr ⟨l, q, r, e, by simpa [first l q r e] using hq⟩

end drawSeq

/-! ## A footprint that fits the plane -/

theorem eq_of_add_mod_eq {m k a b : Nat} (ha : a < m) (hb : b < m) (h : (k + a) % m = (k + b) % m) : a = b :=
  Nat.ModEq.eq_of_lt_of_lt (Nat.ModEq.add_left_cancel' k h) ha hb

section footprint
variable {w h x0 y0 rows cols : Nat} {p : Nat → Nat → Bool} (hcols : cols ≤ w) (hrows : rows ≤ h)
include hcols

theorem nodup_rowDests (r : Nat) : (rowDests w h x0 y0 p r cols).Nodup := by
  refine List.nodup_flatMap.2 ⟨fun c _ => ?one, List.nodup_range.pairwise_of_forall_ne fun c hc c' hc' hne => ?two⟩
  case one => split <;> simp
  case two =>
    intro q hq hq'
    have col : ∀ c, q ∈ (if p r c then [((x0 + c) % w, (y0 + r) % h)] else []) → q.1 = (x0 + c) % w := by
      intro c hq
      split at hq
      · rw [List.mem_singleton.1 hq]
      · cases hq
    exact hne (eq_of_add_mod_eq ((List.mem_range.1 hc).trans_le hcols) ((List.mem_range.1 hc').trans_le hcols)
      ((col c hq).symm.trans (col c' hq')))

include hrows

theorem nodup_dests : (dests w h x0 y0 p rows cols).Nodup := by
  refine List.nodup_flatMap.2
    ⟨fun r _ => nodup_rowDests hcols r, List.nodup_range.pairwise_of_forall_ne fun r hr r' hr' hne => ?_⟩
  intro q hq hq'
  have row : ∀ r, q ∈ rowDests w h x0 y0 p r cols → q.2 = (y0 + r) % h := by
    intro r hq
    obtain ⟨c, -, hq⟩ := List.mem_flatMap.1 hq
    split at hq
    · rw [List.mem_singleton.1 hq]
    · cases hq
  exact hne (eq_of_add_mod_eq ((List.mem_range.1 hr).trans_le hrows) ((List.mem_range.1 hr').trans_le hrows)
    ((row r hq).symm.trans (row r' hq')))

/-- A pixel of the footprint is among the destinations exactly when its one source pixel is set. -/
theorem mem_dests_iff_of_fits {r c : Nat} (hr : r < rows) (hc : c < cols) :
    ((x0 + c) % w, (y0 + r) % h) ∈ dests w h x0 y0 p rows cols ↔ p r c = true := by
  rw [mem_dests]
  constructor
  · rintro ⟨r', c', hr', hc', hp, e⟩
    obtain ⟨ex, ey⟩ := Prod.mk.inj e
    rwa [eq_of_add_mod_eq (hr.trans_le hrows) (hr'.trans_le hrows) ey,
      eq_of_add_mod_eq (hc.trans_le hcols) (hc'.trans_le hcols) ex]
  · exact fun hp => ⟨r, c, hr, hc, hp, rfl⟩

end footprint

theorem collisionFlag_eq_one (c : Bool) : collisionFlag c = 1 ↔ c = true := by cases c <;> decide

theorem collisionFlag_eq (c : Bool) : collisionFlag c = 1 ∨ collisionFlag c = 0 := by cases c <;> decide

/-! ## Effects -/

section effects
variable {s : State} {x y n : Nibble}

theorem exec_drw_of_lt (h : 0xFFF < s.i.toNat + n.toNat - 1) :
    exec (.drw x y n) s = .next (s.raiseFault .dataOutOfRange) :=
  exec_drw_of_not_inRange (State.not_inRange_of_lt (by omega))

theorem exec_drw_of_le (hn : n ≠ 0) (h : s.i.toNat + n.toNat - 1 ≤ 0xFFF) :
    exec (.drw x y n) s =
      .next (s.drawSprite x y ((List.range n.toNat).map fun r => (List.range 8).map (s.spriteBit r))).advance := by
  have hpos : 0 < n.toNat := Nat.pos_of_ne_zero fun h0 => hn (BitVec.eq_of_toNat_eq h0)
  rw [exec_drw_of_inRange ((s.inRange_iff _).2 (by omega)), classicDecode_loadBytes]

theorem exec_drwZeroExtended_of_lt (h : 0xFFF < s.i.toNat + 31) :
    exec (.drwZeroExtended x y) s = .next (s.raiseFault .dataOutOfRange) :=
  exec_drwZeroExtended_of_not_inRange (State.not_inRange_of_lt h)

theorem exec_drwZeroExtended_of_le (h : s.i.toNat + 31 ≤ 0xFFF) :
    exec (.drwZeroExtended x y) s =
      .next (s.drawSprite x y ((List.range 16).map fun r => (List.range 16).map (s.wideSpriteBit r))).advance := by
  rw [exec_drwZeroExtended_of_inRange ((s.inRange_iff _).2 h), extendedDecode_loadBytes]

theorem exec_drwZeroClassic (s : State) (x y : Nibble) :
    exec (.drwZeroClassic x y) s = .next (s.raiseFault .invalidSpriteHeight) := rfl

end effects

/-- Settles O27: in range, the sprite is the matrix of `spriteBit`, and `drawSprite_effect` says what drawing it
does. -/
theorem drawXorsTheSpriteWithWrap : Obligations.DrawXorsTheSpriteWithWrap := by
  intro x y n hn
  exact ⟨fun m => decode_digits_drw m x y hn, fun s hw hd =>
    ⟨exec_drw_of_lt, fun hi => ⟨_, exec_drw_of_le hn hi, State.drawSprite_effect hw hd rfl⟩⟩⟩

/-- Settles O28: the same of the matrix of `wideSpriteBit`. -/
theorem extendedDrawXorsTheWideSprite : Obligations.ExtendedDrawXorsTheWideSprite := by
  intro x y
  exact ⟨decode_digits_classD .extended x y 0, fun s hw hd =>
    ⟨exec_drwZeroExtended_of_lt, fun hi => ⟨_, exec_drwZeroExtended_of_le hi, State.drawSprite_effect hw hd rfl⟩⟩⟩

/-- Settles O31: the row of the last digit 0 in Classic mode, whose meaning is the fault alone. -/
theorem classicDrawOfNoRowsFaults : Obligations.ClassicDrawOfNoRowsFaults := fun x y =>
  ⟨decode_digits_classD .classic x y 0, fun s => exec_drwZeroClassic s x y⟩

/-! ## The 8×n draw as its sequence of toggles -/

/-- The pixels the 8×n sprite at I, drawn at (Vx, Vy), toggles, in row-major order. -/
def State.spriteDests (s : State) (x y n : Nibble) : List (Nat × Nat) :=
  dests s.cfg.width s.cfg.height (s.reg x).toNat (s.reg y).toNat s.spriteBit n.toNat 8

section spriteDests
variable {s t : State} {x y n : Nibble}

theorem exec_drw_spriteDests (hn : n ≠ 0) (hi : s.i.toNat + n.toNat - 1 ≤ 0xFFF) (h : exec (.drw x y n) s = .next t) :
    t.disp = (drawSeq (s.spriteDests x y n) (s.disp, false)).1 ∧
    t.reg 0xF = collisionFlag (drawSeq (s.spriteDests x y n) (s.disp, false)).2 := by
  cases (exec_drw_of_le hn hi).symm.trans h
  have hdraw := draw_range s.cfg.width s.cfg.height (s.reg x).toNat (s.reg y).toNat s.spriteBit n.toNat 8 s.disp
  exact ⟨congrArg Prod.fst hdraw,
    (State.reg_setReg_same _ 0xF _).trans (congrArg (fun out => collisionFlag out.2) hdraw)⟩

theorem State.exists_mem_spriteDests :
    (∃ q, q ∈ s.spriteDests x y n) ↔ ∃ r c, r < n.toNat ∧ c < 8 ∧ s.spriteBit r c = true := by
  simp only [State.spriteDests, mem_dests]
  constructor
  · rintro ⟨q, r, c, hr, hc, hp, -⟩
    exact ⟨r, c, hr, hc, hp⟩
  · rintro ⟨r, c, hr, hc, hp⟩
    exact ⟨_, r, c, hr, hc, hp, rfl⟩

/-- The registers but VF are as before a draw. -/
theorem State.reg_drawSprite_ne {p : List (List Bool)} {k : Nibble} (hk : k ≠ 0xF) :
    (s.drawSprite x y p).reg k = s.reg k :=
  State.reg_setReg_ne _ 0xF k _ hk

/-- A draw overwrites the plane, VF and PC, so a second one with its coordinates elsewhere toggles the same pixels. -/
theorem spriteDests_of_exec_drw (hn : n ≠ 0) (hi : s.i.toNat + n.toNat - 1 ≤ 0xFFF) (hx : x ≠ 0xF) (hy : y ≠ 0xF)
    (h : exec (.drw x y n) s = .next t) : t.spriteDests x y n = s.spriteDests x y n ∧ t.i = s.i := by
  cases (exec_drw_of_le hn hi).symm.trans h
  refine ⟨?_, rfl⟩
  rw [State.spriteDests, State.reg_advance, State.reg_advance, State.reg_drawSprite_ne hx, State.reg_drawSprite_ne hy]
  rfl

end spriteDests

/-- Settles O29: no pixel is toggled twice, so each footprint pixel has one source pixel and is tested as it was. -/
theorem drawClosedFormWithoutOverlap : Obligations.DrawClosedFormWithoutOverlap := by
  intro x y n s t hd hn hw hh hi h px py
  have hpos : 0 < n.toNat := Nat.pos_of_ne_zero fun h0 => hn (BitVec.eq_of_toNat_eq h0)
  have hinside : ∀ q ∈ s.spriteDests x y n, q.1 < s.cfg.width ∧ q.2 < s.cfg.height := fun q hq =>
    dests_inside (by omega) (by omega) hq
  have hnodup : (s.spriteDests x y n).Nodup := nodup_dests hw hh
  obtain ⟨hdisp, hflag⟩ := exec_drw_spriteDests hn hi h
  have hpixel : ∀ a b, t.pixel a b = (s.pixel a b ^^ decide ((a, b) ∈ s.spriteDests x y n)) := by
    intro a b
    rw [State.pixel, hdisp, cell_drawSeq_of_nodup hd hinside hnodup]; rfl
  refine ⟨fun r c hr hc => ?footprint, fun a b hout => ?outside, hflag ▸ collisionFlag_eq _, ?collision⟩
  case footprint =>
    have hmem : (px c, py r) ∈ s.spriteDests x y n ↔ s.spriteBit r c = true := mem_dests_iff_of_fits hw hh hr hc
    rw [hpixel]
    simp only [hmem, Bool.decide_eq_true]
  case outside =>
    have hnot : (a, b) ∉ s.spriteDests x y n := by
      intro hmem
      obtain ⟨r, c, hr, hc, -, e⟩ := mem_dests.1 hmem
      exact hout r c hr hc (Prod.mk.inj e)
    rw [hpixel, decide_eq_false hnot, Bool.xor_false]
  case collision =>
    rw [hflag, collisionFlag_eq_one, collision_drawSeq_of_nodup hd hinside hnodup]
    constructor
    · rintro ⟨q, hq, hset⟩
      obtain ⟨r, c, hr, hc, hp, rfl⟩ := mem_dests.1 hq
      exact ⟨r, c, hr, hc, hp, hset⟩
    · rintro ⟨r, c, hr, hc, hp, hset⟩
      exact ⟨_, mem_dests.2 ⟨r, c, hr, hc, hp, rfl⟩, hset⟩

/-- Settles O30: the two draws toggle the same pixels in the same order. -/
theorem drawingTwiceRestoresThePlane : Obligations.DrawingTwiceRestoresThePlane := by
  intro x y n s hn hx hy hw hd hi
  obtain ⟨t, ht⟩ := exec_next (.drw x y n) s
  obtain ⟨u, hu⟩ := exec_next (.drw x y n) t
  have hinside : ∀ q ∈ s.spriteDests x y n, q.1 < s.cfg.width ∧ q.2 < s.cfg.height := fun q hq =>
    dests_inside hw.1 hw.2 hq
  obtain ⟨hsame, hindex⟩ := spriteDests_of_exec_drw hn hi hx hy ht
  obtain ⟨htdisp, -⟩ := exec_drw_spriteDests hn hi ht
  obtain ⟨hudisp, huflag⟩ := exec_drw_spriteDests hn (by rwa [hindex]) hu
  rw [hsame, htdisp] at hudisp huflag
  refine ⟨t, u, ht, hu, ?restored, fun hblank => ?collision⟩
  case restored => rw [hudisp, drawSeq_twice_plane hd hinside]
  case collision =>
    rw [huflag, collisionFlag_eq_one, collision_drawSeq_twice hd hinside hblank, State.exists_mem_spriteDests]

end Sys2Proof.Machine
end
